-- ==== Sys2Proof/Word.lean ====
section
/-! DEFINITION. The word types of the block (rule R8: every value is unsigned; symbols 8 bits, wire integers 32 bits,
frequencies and byte offsets 64 bits). -/

namespace Sys2Proof

/-- A symbol, or one byte of `IN` or `OUT`. -/
abbrev Byte := BitVec 8

/-- A 32-bit wire integer or 32-bit register. -/
abbrev Word32 := BitVec 32

/-- A 64-bit frequency, length or byte offset. -/
abbrev Word64 := BitVec 64

end Sys2Proof
end

