-- ==== Sys2Proof/Config.lean ====
section
/-! DEFINITION. What is fixed for the life of a block (rules R7, R9, R42), and the free values of the behaviour the spec
leaves unspecified (93_implementation_defined.md U6, U7, U11). -/

namespace Sys2Proof

/-- Byte order of the 32-bit wire integers, the policy of rule R9(a). -/
inductive ByteOrder where
  | little
  | big
  deriving DecidableEq, Repr

/-- Which child the sift-down takes when both have equal frequency, the policy of rule R9(b). -/
inductive TieChild where
  | left
  | right
  deriving DecidableEq, Repr

/-- When the sift-down swaps: on a strictly smaller child only, or on an equal one too; the policy of rule R9(c). -/
inductive SiftStop where
  | strict
  | nonStrict
  deriving DecidableEq, Repr

/-- The parameters of rule R7 and the policies of rule R9. An unbounded parameter is one that no run can exceed. -/
structure Config where
  maxSyms : Nat
  inCap : Nat
  outCap : Nat
  byteOrder : ByteOrder
  tieChild : TieChild
  siftStop : SiftStop
  deriving DecidableEq, Repr

/-- The policies take the values this spec decides (rule R9; decisions D4, D5, D6). -/
abbrev Config.Decided (c : Config) : Prop :=
  c.byteOrder = .little ∧ c.tieChild = .left ∧ c.siftStop = .strict

/-- The parameters of the block that `State.reset` describes: `MAX_SYMS` as rule R7 suggests, `IN_CAP` and `OUT_CAP` as
large as `IN_LEN` and `OUT_LEN` can say, the decided policies. DESIGN CHOICE, notes/assumptions/1.md, unsafe. -/
def Config.ofReset : Config where
  maxSyms := 256
  inCap := 2 ^ 64 - 1
  outCap := 2 ^ 32 - 1
  byteOrder := .little
  tieChild := .left
  siftStop := .strict

/-- What `IN` holds at an offset nothing has been placed at, given the state's `epoch` and the offset: any value, fixed
during one run (U7). A free value: it has no body, and no proof can see it. notes/assumptions/4.md, safe. -/
opaque Config.freeInByte : Nat → Nat → Byte

/-- What an unspecified host read returns, given the state's count of reads: any value, fresh at each read (U6, U11).
A free value. notes/assumptions/6.md, safe. -/
opaque Config.freeRead : Nat → Word64

end Sys2Proof
end

