-- ==== Sys2Proof/Syntax.lean ====
section
/-! DEFINITION. The block's 19 operations, one constructor per row of spec/opcode_table.json (rule R13). -/

namespace Sys2Proof

/-- The operations. The sequencer operations take no operand from their code (rule R99). -/
inductive Instr where
  /-- `GO`, rule R216: the host's command, with the `VAL` bit. -/
  | go (validate : Bool)
  /-- `IDLE`, rule R219. -/
  | idle
  /-- `FT.HDR`, rule R141. -/
  | ftHdr
  /-- `FT.ENT`, rule R142. -/
  | ftEnt
  /-- `TB.INIT`, rule R161. -/
  | tbInit
  /-- `TB.LEAF`, rule R162. -/
  | tbLeaf
  /-- `TB.MERGE`, rule R163. -/
  | tbMerge
  /-- `TB.ROOT`, rule R164. -/
  | tbRoot
  /-- `BS.HDR`, rule R181. -/
  | bsHdr
  /-- `BS.BIT`, rule R182. -/
  | bsBit
  /-- `BS.RUN1`, rule R183. -/
  | bsRun1
  /-- `VL.INIT`, rule R201. -/
  | vlInit
  /-- `VL.TALLY`, rule R202. -/
  | vlTally
  /-- `VL.CMP`, rule R203. -/
  | vlCmp
  /-- `HALT.DONE`, rule R220. -/
  | haltDone
  /-- `HALT.ERR`, rule R221. -/
  | haltErr
  /-- `PQ.SIZE`, rule R122. -/
  | pqSize
  /-- `PQ.PUSH`, rule R123, with the node index it pushes. -/
  | pqPush (k : Nat)
  /-- `PQ.POP`, rule R124. -/
  | pqPop
  deriving DecidableEq, Repr

end Sys2Proof
end

