-- ==== Sys2Proof/WellFormed.lean ====
section
/-! DEFINITION. When an operation is well formed on a block with given parameters. -/

namespace Sys2Proof

/-- The operand of `PQ.PUSH` is a node index, `0 .. 2*MAX_SYMS - 2` (rules R8 and R100); no other operation has an operand
that could be ill formed. -/
def Instr.wellFormed (c : Config) (i : Instr) : Bool :=
  match i with
  | .pqPush k => decide (k < 2 * c.maxSyms - 1)
  | .go _ | .idle | .ftHdr | .ftEnt | .tbInit | .tbLeaf | .tbMerge | .tbRoot | .bsHdr | .bsBit | .bsRun1
  | .vlInit | .vlTally | .vlCmp | .haltDone | .haltErr | .pqSize | .pqPop => true

end Sys2Proof
end

