-- ==== Sys2Proof/Decode.lean ====
section
/-! DEFINITION. The three operation encodings of 30_encoding.md (rules R98, R99, R100, R102): the decoder, total and
rejecting by name, and after it the encoder. -/

namespace Sys2Proof

/-- The formats of rule R90 that select an operation. -/
inductive Format where
  | cmd
  | seq
  | pq
  deriving DecidableEq, Repr

/-- An encoded operation, in the format its place gives it: a word written to `CTRL`, the `PHASE` code, or a request to the
Priority Queue with the node index carried beside it. -/
inductive Code where
  | cmd (w : Word32)
  | seq (phase : BitVec 4)
  | pq (req : BitVec 2) (node : Nat)
  deriving DecidableEq, Repr

/-- Why a code is no operation. -/
inductive Reject where
  /-- A word with bit 0 = 0 written to `CTRL` is no command (rule R98). -/
  | noCommand
  /-- `PHASE` code 15 is reserved (rule R102). -/
  | reservedPhase
  /-- `PQ_REQ` code 3 is reserved (rule R102). -/
  | reservedRequest
  deriving DecidableEq, Repr

/-- The format of a code. -/
def Code.format : Code → Format
  | .cmd _ => .cmd
  | .seq _ => .seq
  | .pq _ _ => .pq

/-- The `CMD` format, rule R98: `GO` is bit 0, `VAL` bit 1, bits 31:2 are ignored. -/
def decodeCmd (w : Word32) : Except Reject Instr :=
  if w.getLsbD 0 then .ok (.go (w.getLsbD 1)) else .error .noCommand

/-- The `SEQ` format, the table of rule R99. -/
def decodeSeq (phase : BitVec 4) : Except Reject Instr :=
  match phase.toNat with
  | 0 => .ok .idle
  | 1 => .ok .ftHdr
  | 2 => .ok .ftEnt
  | 3 => .ok .tbInit
  | 4 => .ok .tbLeaf
  | 5 => .ok .tbMerge
  | 6 => .ok .tbRoot
  | 7 => .ok .bsHdr
  | 8 => .ok .bsBit
  | 9 => .ok .bsRun1
  | 10 => .ok .vlInit
  | 11 => .ok .vlTally
  | 12 => .ok .vlCmp
  | 13 => .ok .haltDone
  | 14 => .ok .haltErr
  | _ => .error .reservedPhase

/-- The `PQ` format, the table of rule R100. -/
def decodePq (req : BitVec 2) (node : Nat) : Except Reject Instr :=
  match req.toNat with
  | 0 => .ok .pqSize
  | 1 => .ok (.pqPush node)
  | 2 => .ok .pqPop
  | _ => .error .reservedRequest

/-- The decoder. -/
def decode : Code → Except Reject Instr
  | .cmd w => decodeCmd w
  | .seq phase => decodeSeq phase
  | .pq req node => decodePq req node

/-- The encoder, from the same tables; ignored bits are written 0. -/
def encode : Instr → Code
  | .go validate => .cmd (if validate then 3#32 else 1#32)
  | .idle => .seq 0#4
  | .ftHdr => .seq 1#4
  | .ftEnt => .seq 2#4
  | .tbInit => .seq 3#4
  | .tbLeaf => .seq 4#4
  | .tbMerge => .seq 5#4
  | .tbRoot => .seq 6#4
  | .bsHdr => .seq 7#4
  | .bsBit => .seq 8#4
  | .bsRun1 => .seq 9#4
  | .vlInit => .seq 10#4
  | .vlTally => .seq 11#4
  | .vlCmp => .seq 12#4
  | .haltDone => .seq 13#4
  | .haltErr => .seq 14#4
  | .pqSize => .pq 0#2 0
  | .pqPush k => .pq 1#2 k
  | .pqPop => .pq 2#2 0

/-- The format the opcode table gives an operation (rule R90). -/
def Instr.format : Instr → Format
  | .go _ => .cmd
  | .pqSize | .pqPush _ | .pqPop => .pq
  | .idle | .ftHdr | .ftEnt | .tbInit | .tbLeaf | .tbMerge | .tbRoot | .bsHdr | .bsBit | .bsRun1
  | .vlInit | .vlTally | .vlCmp | .haltDone | .haltErr => .seq

/-- A word of the opcode table as a code. The three formats are held in three places of the block and share numbers, so the
width alone tells them apart: up to 3 bits a `PQ` request (the node index in the bits above the request), up to 8 bits a
`PHASE` code in the low 4 bits, wider a `CTRL` word. DESIGN CHOICE, notes/assumptions/13.md, safe. -/
def tableCode (nbits w : Nat) : Code :=
  if nbits ≤ 3 then .pq (BitVec.ofNat 2 w) (w / 4)
  else if nbits ≤ 8 then .seq (BitVec.ofNat 4 w)
  else .cmd (BitVec.ofNat 32 w)

/-- The operation the decoder reads from a word of the opcode table. -/
def decodeTableWord (nbits w : Nat) : Option Instr :=
  match decode (tableCode nbits w) with
  | .ok i => some i
  | .error _ => none

end Sys2Proof
end

