-- ==== Sys2Proof/Machine/State.lean ====
section
/-! DEFINITION. The state of the block (10_state.md rules R20 to R47), as plain data; the named reasons a step can stop; the
state after reset (rule R44). -/

namespace Sys2Proof.Machine

/-- An indexed file or buffer: (index, value) pairs with strictly rising indices. An unlisted element has no value. -/
abbrev Store (α : Type) := List (Nat × α)

/-- A byte buffer. -/
abbrev Memory := Store Byte

/-- A node index or NIL (rule R8). -/
abbrev NodeRef := Option Nat

/-- The `PHASE` register, rule R28. Its 4-bit codes are `phaseCode`; code 15 is unrepresentable, as rule R102 asks. -/
inductive Phase where
  | idle | ftHdr | ftEnt | tbInit | tbLeaf | tbMerge | tbRoot | bsHdr | bsBit | bsRun1
  | vlInit | vlTally | vlCmp | haltDone | haltErr
  deriving DecidableEq, Repr

/-- The 2-bit `STATE` view of `PHASE`, rule R41. -/
inductive RunState where
  | idle | busy | done | error
  deriving DecidableEq, Repr

/-- An element of `FT`, rule R34. -/
structure FtEntry where
  count : Word32
  sym : Byte
  deriving DecidableEq, Repr

/-- An element of `NODE`, rule R35. -/
structure TreeNode where
  leaf : Bool
  freq : Word64
  sym : Byte
  left : NodeRef
  right : NodeRef
  deriving DecidableEq, Repr

/-- The causes of the block's errors, one per row of rule R242, with the context a `ValidationError` records. -/
inductive BlockError where
  | hdrTrunc | entTrunc | zeroSyms | bodyTrunc | payloadTrunc | bitsExceed
  | deadEnd | outOfBounds
  | countMismatch (sym : Byte) (declared observed : Word32)
  | syms | out
  deriving DecidableEq, Repr

/-- The indexed files and buffers, as named by a fault. -/
inductive RegFile where
  | ft | node | heap | obs | out
  deriving DecidableEq, Repr

/-- Why the model stops where the spec gives no behaviour. None of these is an error of the block (rule R247); all are safe,
since the model stops where nothing is specified, and all are unreachable from reset. -/
inductive Fault where
  /-- A read of an element the current run has not written, raised by `FT.ENT` to `VL.CMP` (U5). Safe. -/
  | unwrittenRead (file : RegFile) (index : Nat)
  /-- A write of an element beyond its file's size (rules R34 to R40), raised by the operations that write files. Safe. -/
  | absentElement (file : RegFile) (index : Nat)
  /-- `MemRead` of `n` bytes not all below `IN_LEN`, where rule R11 leaves it undefined. Safe. -/
  | inOutOfBounds (offset n : Nat)
  /-- A use of node NIL, raised by `BS.HDR`, `BS.BIT` and `BS.RUN1` (U4). Safe. -/
  | nilNode
  /-- `FT.ENT` with `IDX >= SYM_COUNT` (U4). Safe. -/
  | ftEntPre
  /-- `TB.LEAF` with `IDX >= SYM_COUNT` or `NNODES != IDX` (U4). Safe. -/
  | tbLeafPre
  /-- `TB.MERGE` with `HSIZE < 2` (U4). Safe. -/
  | tbMergePre
  /-- `TB.ROOT` with `HSIZE != 1` (U4). Safe. -/
  | tbRootPre
  /-- `BS.BIT` with `NODE[WALK]` a leaf (U4). Safe. -/
  | bsBitPre
  /-- `BS.RUN1` with `NODE[ROOT]` internal (U4). Safe. -/
  | bsRun1Pre
  /-- `VL.TALLY` with `IDX >= OUT_LEN` (U4). Safe. -/
  | vlTallyPre
  /-- `VL.CMP` with `IDX >= SYM_COUNT` (U4). Safe. -/
  | vlCmpPre
  /-- `PQ.POP` with `HSIZE` = 0 (rules R125 and R247). Safe. -/
  | pqPopEmpty
  /-- `PQ.PUSH` with `HSIZE` = `MAX_SYMS` or more (rules R125 and R247). Safe. -/
  | pqPushFull
  /-- `PQ.PUSH` of an index that is no existing node or is in the heap (rule R123, operand). Safe. -/
  | pqPushOperand
  deriving DecidableEq, Repr

/-- Why the model declines a step. -/
inductive Refusal where
  /-- An operation without a meaning, rejected by name in `exec`; no arm uses it. Safe. -/
  | notModelled (mnemonic : String)
  /-- A fetched code that is no operation; raised by the block's step and unreachable, since `State` holds no reserved code
  (rule R102). Safe. -/
  | rejected (why : Reject)
  /-- The host writes `IN` or `IN_LEN` while `STATE` is BUSY: "the model has no move for it" (rule R289). Safe. -/
  | hostWritesWhileBusy
  /-- The host writes `IN` at an offset `IN_CAP` or above, where there is no byte (rule R39). Safe. -/
  | hostWritesBeyondIn
  deriving DecidableEq, Repr

/-- A request to the Priority Queue, rule R100; code 3 is unrepresentable, as rule R102 asks. -/
inductive PqRequest where
  | size
  | push (k : Nat)
  | pop
  deriving DecidableEq, Repr

/-- One access of the host (rules R21, R215, R223, R280). -/
inductive HostAction where
  /-- Write a register by number. -/
  | writeReg (n : Nat) (v : Word64)
  /-- Write a byte of `IN`. -/
  | writeIn (offset : Nat) (b : Byte)
  /-- Read a register by number. -/
  | readReg (n : Nat)
  /-- Read a byte of `IN`. -/
  | readIn (offset : Nat)
  /-- Read a byte of `OUT`. -/
  | readOut (offset : Nat)
  /-- Apply reset. -/
  | reset
  deriving DecidableEq, Repr

/-- Who moves next: the block, by one sequencer operation, or the host, by one access (rules R15, R16). -/
inductive Input where
  | block
  | host (a : HostAction)
  deriving DecidableEq, Repr

/-- The complete state of the block (rule R20), its parameters (rule R42), and after them the model's own fields. -/
structure State where
  /-- The parameters and policies, fixed for the life of the block (rule R42). No step writes it. -/
  cfg : Config
  /-- `PHASE`, rule R28. -/
  phase : Phase
  /-- `VALIDATE_EN`, rule R29. -/
  validateEn : Bool
  /-- `ERR_CODE`, rule R47. -/
  errCode : BitVec 3
  /-- `ERR_SUB`, rule R47. -/
  errSub : BitVec 4
  /-- `IN_LEN`, rule R24. -/
  inLen : Word64
  /-- `OUT_LEN`, rule R25. -/
  outLen : Word32
  /-- `ERR_SYM`, rule R26. -/
  errSym : Byte
  /-- `ERR_DECLARED`, rule R26. -/
  errDeclared : Word32
  /-- `ERR_OBSERVED`, rule R26. -/
  errObserved : Word32
  /-- `ERR_CURSOR`, rule R26. -/
  errCursor : Word32
  /-- `HDR_TOTAL_LEN`, rule R27. -/
  hdrTotalLen : Word32
  /-- `HDR_RESERVED`, rule R27. -/
  hdrReserved : Word32
  /-- `SYM_COUNT`, rule R27. -/
  symCount : Word32
  /-- `PACKED_BITS`, rule R27. -/
  packedBits : Word32
  /-- `PACKED_BYTES`, rule R27. -/
  packedBytes : Word32
  /-- `UNPACKED_BYTES`, rule R27. -/
  unpackedBytes : Word32
  /-- `IDX`, rule R30. -/
  idx : Word32
  /-- `CURSOR`, rule R31. -/
  cursor : Word32
  /-- `WALK`, rule R31. -/
  walk : NodeRef
  /-- `ROOT`, rule R31. -/
  root : NodeRef
  /-- `PAYLOAD_BASE`, rule R32. -/
  payloadBase : Word64
  /-- `HSIZE`, rule R33. -/
  hsize : Nat
  /-- `NNODES`, rule R33. -/
  nnodes : Nat
  /-- `FT`, rule R34. -/
  ft : Store FtEntry
  /-- `NODE`, rule R35. -/
  node : Store TreeNode
  /-- `HEAP`, rule R37. -/
  heap : Store Nat
  /-- `OBS`, rule R38. -/
  obs : Store Word32
  /-- `IN`, rule R39. -/
  inBuf : Memory
  /-- `OUT`, rule R40. -/
  outBuf : Memory
  /-- The model's own: what moves next, first entry first; when it is empty the block moves. notes/assumptions/2.md. -/
  inputs : List Input
  /-- The model's own: selects the free values of unplaced `IN` bytes; new at each accepted GO. notes/assumptions/4.md. -/
  epoch : Nat
  /-- The model's own: how many host reads were made; selects the free values of reads. notes/assumptions/6.md. -/
  reads : Nat
  /-- The model's own: what the host's last read returned. notes/assumptions/6.md. -/
  hostSaw : Option Word64
  /-- The model's own: a Priority Queue request standing outside any builder operation; no step sets it.
  notes/assumptions/11.md. -/
  pqPort : Option PqRequest
  /-- The model's own: the result of a Priority Queue request executed alone. notes/assumptions/11.md. -/
  pqAns : Option Nat
  deriving DecidableEq, Repr

/-- A block with parameters `c` right after reset: the table of rule R44. Every file and buffer is unspecified, so nothing is
listed. The model's own fields start empty (DESIGN CHOICE, notes/assumptions/18.md). -/
def State.resetWith (c : Config) : State where
  cfg := c
  phase := .idle
  validateEn := false
  errCode := 0
  errSub := 0
  inLen := 0
  outLen := 0
  errSym := 0
  errDeclared := 0
  errObserved := 0
  errCursor := 0
  hdrTotalLen := 0
  hdrReserved := 0
  symCount := 0
  packedBits := 0
  packedBytes := 0
  unpackedBytes := 0
  idx := 0
  cursor := 0
  walk := none
  root := none
  payloadBase := 0
  hsize := 0
  nnodes := 0
  ft := []
  node := []
  heap := []
  obs := []
  inBuf := []
  outBuf := []
  inputs := []
  epoch := 0
  reads := 0
  hostSaw := none
  pqPort := none
  pqAns := none

/-- The machine right after reset, on a block with the parameters `Config.ofReset`. -/
def State.reset : State := State.resetWith Config.ofReset

end Sys2Proof.Machine
end

