-- ==== Sys2Proof/Machine/Ops.lean ====
section
/-! DEFINITION. The named operations over files, buffers and registers; the trap entry (rule R252); the start of a run (rule
R216), which is also the only way out of an error (rule R254); the reset event (rule R281). -/

namespace Sys2Proof.Machine

/-- The element at an index, if one is listed. -/
def Store.read {α : Type} : Store α → Nat → Option α
  | [], _ => none
  | (b, v) :: rest, a => if a = b then some v else Store.read rest a

/-- Write one element, keeping the indices strictly rising. -/
def Store.write {α : Type} : Store α → Nat → α → Store α
  | [], a, v => [(a, v)]
  | (b, w) :: rest, a, v =>
    if a < b then (a, v) :: (b, w) :: rest
    else if a = b then (a, v) :: rest
    else (b, w) :: Store.write rest a v

/-- The canonical form: indices strictly rising. Every listed value is data, since an unlisted element has none. -/
abbrev Store.wf {α : Type} (m : Store α) : Prop := (m.map Prod.fst).Pairwise (· < ·)

/-- The canonical form of a byte buffer. -/
abbrev Memory.wf (m : Memory) : Prop := Store.wf m

/-- The outcome of an operation that ends in a state or an internal fault. -/
def finish (r : Except Fault State) : Host.Outcome State Fault Refusal :=
  match r with
  | .ok s => .next s
  | .error f => .fault f

/-- The byte of `IN` at an offset: what the host placed, else (unplaced, or at or beyond `IN_CAP`) a free value that is fixed
during one run (U7). -/
def inByte (s : State) (a : Nat) : Byte :=
  match (if a < s.cfg.inCap then Store.read s.inBuf a else none) with
  | some b => b
  | none => Config.freeInByte s.epoch a

/-- `OUT[a]`, defined for `a < OUT_LEN` (rule R66). -/
def readOut (s : State) (a : Nat) : Except Fault Byte :=
  match (if a < s.outLen.toNat then Store.read s.outBuf a else none) with
  | some b => .ok b
  | none => .error (.unwrittenRead .out a)

/-- `MemWrite(a, 1, v)`, rule R11, defined for `a < OUT_CAP` (rule R66). -/
def writeOut (s : State) (a : Nat) (v : Byte) : Except Fault State :=
  if a < s.cfg.outCap then .ok { s with outBuf := Store.write s.outBuf a v } else .error (.absentElement .out a)

/-- `FT[i]`; the valid elements are `0 .. SYM_COUNT-1` (rule R34). -/
def readFt (s : State) (i : Nat) : Except Fault FtEntry :=
  match (if i < s.symCount.toNat then Store.read s.ft i else none) with
  | some e => .ok e
  | none => .error (.unwrittenRead .ft i)

/-- `FT[i] <- e`; the file has `MAX_SYMS` elements (rule R34). -/
def writeFt (s : State) (i : Nat) (e : FtEntry) : Except Fault State :=
  if i < s.cfg.maxSyms then .ok { s with ft := Store.write s.ft i e } else .error (.absentElement .ft i)

/-- `NODE[k]`; the valid elements are `0 .. NNODES-1` (rule R35). -/
def readNode (s : State) (k : Nat) : Except Fault TreeNode :=
  match (if k < s.nnodes then Store.read s.node k else none) with
  | some n => .ok n
  | none => .error (.unwrittenRead .node k)

/-- The node a reference names; NIL names none. -/
def readNodeRef (s : State) (r : NodeRef) : Except Fault TreeNode :=
  match r with
  | some k => readNode s k
  | none => .error .nilNode

/-- `NODE[k] <- n`; the arena has `2*MAX_SYMS - 1` elements (rule R35). -/
def writeNode (s : State) (k : Nat) (n : TreeNode) : Except Fault State :=
  if k < 2 * s.cfg.maxSyms - 1 then .ok { s with node := Store.write s.node k n } else .error (.absentElement .node k)

/-- `OBS[x]`, rule R38. -/
def readObs (s : State) (x : Byte) : Except Fault Word32 :=
  match Store.read s.obs x.toNat with
  | some v => .ok v
  | none => .error (.unwrittenRead .obs x.toNat)

/-- `OBS[x] <- v`, rule R38. -/
def writeObs (s : State) (x : Byte) (v : Word32) : State :=
  { s with obs := Store.write s.obs x.toNat v }

/-- `ERR_CODE` of an error, the table of rule R241. -/
def BlockError.code : BlockError → BitVec 3
  | .hdrTrunc | .entTrunc | .zeroSyms | .bodyTrunc | .payloadTrunc | .bitsExceed => 1
  | .deadEnd | .outOfBounds => 2
  | .countMismatch _ _ _ => 3
  | .syms | .out => 4

/-- `ERR_SUB` of an error, the table of rule R242. -/
def BlockError.sub : BlockError → BitVec 4
  | .hdrTrunc => 1
  | .entTrunc => 2
  | .zeroSyms => 3
  | .bodyTrunc => 4
  | .payloadTrunc => 5
  | .bitsExceed => 6
  | .deadEnd => 1
  | .outOfBounds => 2
  | .countMismatch _ _ _ => 1
  | .syms => 1
  | .out => 2

/-- The trap entry, rule R252: `raise e`. It records the kind, the sub-cause and the context of the kind, and goes to
`HALT.ERR`; nothing else changes and nothing is saved. -/
def raise (e : BlockError) (s : State) : State :=
  { s with
    errCode := e.code
    errSub := e.sub
    errCursor := match e with
      | .deadEnd | .outOfBounds => s.cursor
      | .hdrTrunc | .entTrunc | .zeroSyms | .bodyTrunc | .payloadTrunc | .bitsExceed
      | .countMismatch _ _ _ | .syms | .out => s.errCursor
    errSym := match e with
      | .countMismatch x _ _ => x
      | .hdrTrunc | .entTrunc | .zeroSyms | .bodyTrunc | .payloadTrunc | .bitsExceed
      | .deadEnd | .outOfBounds | .syms | .out => s.errSym
    errDeclared := match e with
      | .countMismatch _ d _ => d
      | .hdrTrunc | .entTrunc | .zeroSyms | .bodyTrunc | .payloadTrunc | .bitsExceed
      | .deadEnd | .outOfBounds | .syms | .out => s.errDeclared
    errObserved := match e with
      | .countMismatch _ _ o => o
      | .hdrTrunc | .entTrunc | .zeroSyms | .bodyTrunc | .payloadTrunc | .bitsExceed
      | .deadEnd | .outOfBounds | .syms | .out => s.errObserved
    phase := .haltErr }

/-- The register writes of an accepted `GO`, rule R216. There is no return from an error but this (rule R254). The model's
own `epoch` advances, so that unplaced bytes of `IN` may differ from run to run. -/
def startRun (validate : Bool) (s : State) : State :=
  { s with
    validateEn := validate
    errCode := 0
    errSub := 0
    errSym := 0
    errDeclared := 0
    errObserved := 0
    errCursor := 0
    hdrTotalLen := 0
    hdrReserved := 0
    symCount := 0
    packedBits := 0
    packedBytes := 0
    unpackedBytes := 0
    outLen := 0
    phase := .ftHdr
    epoch := s.epoch + 1 }

/-- The reset event, rule R281, at any time: the registers of rule R44, the files and buffers unspecified again. The
parameters stay (rule R42); of the model's own fields those that describe the host stay, and `epoch` advances.
notes/assumptions/19.md. -/
def resetEvent (s : State) : State :=
  { State.resetWith s.cfg with
    inputs := s.inputs
    epoch := s.epoch + 1
    reads := s.reads
    hostSaw := s.hostSaw }

/-- Where decoding ends without error: the successors of `BS.BIT` step 1 and of the last `BS.RUN1` (rule R222). -/
def afterDecode (s : State) : Phase := if s.validateEn then .vlInit else .haltDone

/-- `Emit(x)`, rule R184, and then `k`, which is what the operation does after it; an error ends the operation instead. -/
def emitThen (x : Byte) (s : State) (k : State → State) : Except Fault State :=
  if s.outLen.toNat = s.cfg.outCap then .ok (raise .out s)
  else do
    let s1 ← writeOut s s.outLen.toNat x
    .ok (k { s1 with outLen := s1.outLen + 1 })

end Sys2Proof.Machine
end

