-- ==== Sys2Proof/Machine/Operands.lean ====
section
/-! DEFINITION. How the operations address `IN` and assemble what they read there: the wire format of 30_encoding.md rules
R91 to R96 and the accesses of 20_memory.md rules R60 to R67. -/

namespace Sys2Proof.Machine

/-- A 32-bit integer from its four bytes in address order, rule R60; big-endian is the other value of the policy. -/
def assemble (o : ByteOrder) (b0 b1 b2 b3 : Byte) : Word32 :=
  match o with
  | .little => b3 ++ b2 ++ b1 ++ b0
  | .big => b0 ++ b1 ++ b2 ++ b3

/-- `MemRead(a, 1)`, rule R11: defined only when `a + 1 <= IN_LEN`. -/
def memRead1 (s : State) (a : Nat) : Except Fault Byte :=
  if a + 1 ≤ s.inLen.toNat then .ok (inByte s a) else .error (.inOutOfBounds a 1)

/-- The 32-bit integer that lies at offset `a` of `IN`. -/
def inWord (s : State) (a : Nat) : Word32 :=
  assemble s.cfg.byteOrder (inByte s a) (inByte s (a + 1)) (inByte s (a + 2)) (inByte s (a + 3))

/-- `MemRead(a, 4)`, rules R11 and R95: defined only when `a + 4 <= IN_LEN`. -/
def memRead4 (s : State) (a : Nat) : Except Fault Word32 :=
  if a + 4 ≤ s.inLen.toNat then .ok (inWord s a) else .error (.inOutOfBounds a 4)

/-- The offset of frequency entry `i`, `12 + 8*i` (rule R92). -/
def entryAddr (i : Nat) : Nat := 12 + 8 * i

/-- The first offset after the entries, `12 + 8*SYM_COUNT`, which is the body header's (rule R93). Rule R12 has every sum
exact, so it is a natural number. -/
def entriesEnd (s : State) : Nat := 12 + 8 * s.symCount.toNat

/-- The offset of the byte that holds payload bit `CURSOR`, rules R61 and R96. -/
def payloadAddr (s : State) : Nat := s.payloadBase.toNat + s.cursor.toNat / 8

/-- Payload bit `c` of the byte that holds it, rule R96: most significant bit first. -/
def bitOfByte (b : Byte) (c : Nat) : Bool := b.getLsbD (7 - c % 8)

/-- Payload bit `CURSOR`: one 1-byte read (rule R64) and the extraction of rule R96. -/
def payloadBit (s : State) : Except Fault Bool := do
  let b ← memRead1 s (payloadAddr s)
  .ok (bitOfByte b s.cursor.toNat)

end Sys2Proof.Machine
end

