-- ==== Sys2Proof/Machine/Flags.lean ====
section
/-! DEFINITION. The block has no condition codes; its only flag is the `STATE` view (rule R41). The codes of `PHASE` (rule
R99), the `STATE` view and the `STATUS` word (rule R23). -/

namespace Sys2Proof.Machine

/-- The 4-bit code of a phase, the table of rule R99. -/
def phaseCode : Phase → BitVec 4
  | .idle => 0
  | .ftHdr => 1
  | .ftEnt => 2
  | .tbInit => 3
  | .tbLeaf => 4
  | .tbMerge => 5
  | .tbRoot => 6
  | .bsHdr => 7
  | .bsBit => 8
  | .bsRun1 => 9
  | .vlInit => 10
  | .vlTally => 11
  | .vlCmp => 12
  | .haltDone => 13
  | .haltErr => 14

/-- The phase a 4-bit code names; 15 is reserved (rule R102). -/
def phaseOfCode (c : BitVec 4) : Option Phase :=
  match c.toNat with
  | 0 => some .idle
  | 1 => some .ftHdr
  | 2 => some .ftEnt
  | 3 => some .tbInit
  | 4 => some .tbLeaf
  | 5 => some .tbMerge
  | 6 => some .tbRoot
  | 7 => some .bsHdr
  | 8 => some .bsBit
  | 9 => some .bsRun1
  | 10 => some .vlInit
  | 11 => some .vlTally
  | 12 => some .vlCmp
  | 13 => some .haltDone
  | 14 => some .haltErr
  | _ => none

/-- The `STATE` view of `PHASE`, rule R41. -/
def runState : Phase → RunState
  | .idle => .idle
  | .haltDone => .done
  | .haltErr => .error
  | .ftHdr | .ftEnt | .tbInit | .tbLeaf | .tbMerge | .tbRoot | .bsHdr | .bsBit | .bsRun1
  | .vlInit | .vlTally | .vlCmp => .busy

/-- The 2-bit code of a run state, rule R23. -/
def runStateCode : RunState → BitVec 2
  | .idle => 0
  | .busy => 1
  | .done => 2
  | .error => 3

/-- `STATE` is BUSY. -/
def busy (s : State) : Bool := runState s.phase == .busy

/-- The `STATUS` word of given fields, rule R23: bits 31:16 and 3:2 read 0. -/
def statusOf (validate : Bool) (sub : BitVec 4) (code : BitVec 3) (phase : BitVec 4) (st : RunState) : Word32 :=
  0#16 ++ BitVec.ofBool validate ++ sub ++ code ++ phase ++ 0#2 ++ runStateCode st

/-- The `STATUS` view of a state, rule R23. -/
def statusWord (s : State) : Word32 :=
  statusOf s.validateEn s.errSub s.errCode (phaseCode s.phase) (runState s.phase)

end Sys2Proof.Machine
end

