-- ==== Sys2Proof/Machine/BitStream.lean ====
section
/-! DEFINITION. The Bit Stream Decoder: `BS.HDR`, `BS.BIT`, `BS.RUN1` (43_bit_stream_decoder.md). -/

namespace Sys2Proof.Machine

/-- The checks of `BS.HDR` after the body header is latched, and the start of the walk (rule R181). -/
def bsHdrChecks (s : State) : Except Fault State :=
  if s.inLen.toNat < s.payloadBase.toNat + s.packedBytes.toNat then .ok (raise .payloadTrunc s)
  else if 8 * s.packedBytes.toNat < s.packedBits.toNat then .ok (raise .bitsExceed s)
  else do
    let r ← readNodeRef s s.root
    .ok { s with cursor := 0, walk := s.root, idx := 0, phase := if r.leaf then .bsRun1 else .bsBit }

/-- `BS.HDR`, rule R181. -/
def execBsHdr (s : State) : Host.Outcome State Fault Refusal :=
  finish <|
    if s.inLen.toNat < entriesEnd s + 12 then .ok (raise .bodyTrunc s)
    else do
      let bits ← memRead4 s (entriesEnd s)
      let bytes ← memRead4 s (entriesEnd s + 4)
      let unpacked ← memRead4 s (entriesEnd s + 8)
      bsHdrChecks { s with
        packedBits := bits
        packedBytes := bytes
        unpackedBytes := unpacked
        payloadBase := BitVec.ofNat 64 (entriesEnd s + 12) }

/-- Steps 4 to 6 of `BS.BIT` (rule R182), with the bit consumed and the child it selects. -/
def bsBitArrive (s : State) (nxt : NodeRef) : Except Fault State :=
  match nxt with
  | none => .ok (raise .deadEnd s)
  | some k => do
    let s1 := { s with walk := some k }
    let n ← readNode s1 k
    if n.leaf then emitThen n.sym s1 fun t => { t with walk := t.root, phase := .bsBit }
    else if s1.cursor = s1.packedBits then .ok (raise .outOfBounds s1)
    else .ok { s1 with phase := .bsBit }

/-- `BS.BIT`, rule R182. -/
def execBsBit (s : State) : Host.Outcome State Fault Refusal :=
  finish do
    let w ← readNodeRef s s.walk
    if w.leaf then .error .bsBitPre
    else if s.cursor = s.packedBits then .ok { s with phase := afterDecode s }
    else do
      let bit ← payloadBit s
      bsBitArrive { s with cursor := s.cursor + 1 } (if bit then w.right else w.left)

/-- `BS.RUN1`, rule R183. -/
def execBsRun1 (s : State) : Host.Outcome State Fault Refusal :=
  finish do
    let r ← readNodeRef s s.root
    if !r.leaf then .error .bsRun1Pre
    else do
      let e ← readFt s 0
      if s.idx = e.count then .ok { s with phase := afterDecode s }
      else emitThen r.sym s fun t => { t with idx := t.idx + 1, phase := .bsRun1 }

end Sys2Proof.Machine
end

