-- ==== Sys2Proof/Machine/Command.lean ====
section
/-! DEFINITION. The host command `GO` and the three resting operations `IDLE`, `HALT.DONE`, `HALT.ERR`
(45_host_and_sequencer.md). -/

namespace Sys2Proof.Machine

/-- `GO`, rule R216; dropped while BUSY (rule R218). -/
def execGo (validate : Bool) (s : State) : Host.Outcome State Fault Refusal :=
  if busy s then .next s else .next (startRun validate s)

/-- `IDLE`, rule R219: no register, no buffer element changes. -/
def execIdle (s : State) : Host.Outcome State Fault Refusal := .next s

/-- `HALT.DONE`, rule R220: changes nothing until an accepted `GO`. -/
def execHaltDone (s : State) : Host.Outcome State Fault Refusal := .next s

/-- `HALT.ERR`, rule R221: changes nothing until an accepted `GO`. -/
def execHaltErr (s : State) : Host.Outcome State Fault Refusal := .next s

end Sys2Proof.Machine
end

