-- ==== Sys2Proof/Machine/FreqTable.lean ====
section
/-! DEFINITION. The Frequency Table Reader: `FT.HDR` and `FT.ENT` (41_frequency_table_reader.md). -/

namespace Sys2Proof.Machine

/-- The checks and the hand-over of `FT.HDR`, after the three words are latched (rule R141). -/
def ftHdrChecks (s : State) : State :=
  if s.inLen.toNat < entriesEnd s then raise .entTrunc s
  else if s.cfg.maxSyms < s.symCount.toNat then raise .syms s
  else { s with idx := 0, phase := if s.symCount = 0 then .tbInit else .ftEnt }

/-- `FT.HDR`, rule R141. -/
def execFtHdr (s : State) : Host.Outcome State Fault Refusal :=
  finish <|
    if s.inLen.toNat < 12 then .ok (raise .hdrTrunc s)
    else do
      let total ← memRead4 s 0
      let reserved ← memRead4 s 4
      let n ← memRead4 s 8
      .ok (ftHdrChecks { s with hdrTotalLen := total, hdrReserved := reserved, symCount := n })

/-- The end of `FT.ENT` (rule R142): the next entry, or the Tree Builder after the last. -/
def ftEntNext (s : State) : State :=
  { s with idx := s.idx + 1, phase := if s.idx + 1 = s.symCount then .tbInit else .ftEnt }

/-- `FT.ENT`, rule R142. -/
def execFtEnt (s : State) : Host.Outcome State Fault Refusal :=
  finish <|
    if s.symCount.toNat ≤ s.idx.toNat then .error .ftEntPre
    else do
      let count ← memRead4 s (entryAddr s.idx.toNat)
      let x ← memRead1 s (entryAddr s.idx.toNat + 4)
      let s1 ← writeFt s s.idx.toNat { count := count, sym := x }
      .ok (ftEntNext s1)

end Sys2Proof.Machine
end

