-- ==== Sys2Proof/Machine/Heap.lean ====
section
/-! DEFINITION. The Priority Queue, an array-backed binary min-heap of node indices (40_priority_queue.md rules R120 to R127):
the two sift loops and the three sub-operations, which the Tree Builder and the `PQ` requests share. -/

namespace Sys2Proof.Machine

/-- `HEAP[j]` of a heap array. -/
def heapAt (h : Store Nat) (j : Nat) : Except Fault Nat :=
  match Store.read h j with
  | some k => .ok k
  | none => .error (.unwrittenRead .heap j)

/-- `F(k) = NODE[k].freq`, rule R11. -/
def freqOf (s : State) (k : Nat) : Except Fault Word64 := do
  let n ← readNode s k
  .ok n.freq

/-- The key of a heap position, `F(HEAP[j])` and nothing else (rule R121). -/
def heapKey (s : State) (h : Store Nat) (j : Nat) : Except Fault Word64 := do
  let k ← heapAt h j
  freqOf s k

/-- Swap two positions of a heap array. -/
def heapSwap (h : Store Nat) (i j : Nat) : Except Fault (Store Nat) := do
  let ki ← heapAt h i
  let kj ← heapAt h j
  .ok (Store.write (Store.write h i kj) j ki)

/-- The parent of position `j > 0`, rule R9(d). -/
def heapParent (j : Nat) : Nat := (j - 1) / 2

/-- The loop of `PQ.PUSH`, rule R123, from position `j`: it swaps with the parent while the parent's frequency is strictly
greater. A parent's position is smaller, so `j` turns are enough. -/
def siftUp (s : State) : Nat → Nat → Store Nat → Except Fault (Store Nat)
  | 0, _, h => .ok h
  | fuel + 1, j, h =>
    if j = 0 then .ok h
    else do
      let fp ← heapKey s h (heapParent j)
      let fj ← heapKey s h j
      if fj < fp then do
        let h' ← heapSwap h (heapParent j) j
        siftUp s fuel (heapParent j) h'
      else .ok h

/-- With both children present, whether the right one is taken: only when strictly smaller (rule R124, decision D5); under the
other policy on equality too. -/
def takesRight (c : Config) (fl fr : Word64) : Bool :=
  match c.tieChild with
  | .left => decide (fr < fl)
  | .right => decide (fr ≤ fl)

/-- Whether the moving node goes down to the chosen child: only when that is strictly smaller (rule R124, decision D6); under
the other policy on equality too. -/
def movesDown (c : Config) (fc fj : Word64) : Bool :=
  match c.siftStop with
  | .strict => decide (fc < fj)
  | .nonStrict => decide (fc ≤ fj)

/-- The child chosen at position `j` of a heap of `n` positions in which the left child `2*j + 1` exists, rule R124. -/
def chosenChild (s : State) (n j : Nat) (h : Store Nat) : Except Fault Nat :=
  if 2 * j + 2 < n then do
    let fl ← heapKey s h (2 * j + 1)
    let fr ← heapKey s h (2 * j + 2)
    .ok (if takesRight s.cfg fl fr then 2 * j + 2 else 2 * j + 1)
  else .ok (2 * j + 1)

/-- The loop of `PQ.POP`, rule R124, from position `j` of a heap of `n` positions. A child's position is greater, so `n` turns
are enough. -/
def siftDown (s : State) (n : Nat) : Nat → Nat → Store Nat → Except Fault (Store Nat)
  | 0, _, h => .ok h
  | fuel + 1, j, h =>
    if n ≤ 2 * j + 1 then .ok h
    else do
      let c ← chosenChild s n j h
      let fc ← heapKey s h c
      let fj ← heapKey s h j
      if movesDown s.cfg fc fj then do
        let h' ← heapSwap h c j
        siftDown s n fuel c h'
      else .ok h

/-- Node `k` stands in an occupied position. -/
def inHeap (s : State) (k : Nat) : Bool := (List.range s.hsize).any fun j => Store.read s.heap j == some k

/-- `PQ.SIZE()`, rule R122. -/
def pqSize (s : State) : Nat := s.hsize

/-- `PQ.PUSH(k)`, rule R123. Its operand is an existing node that is not in the heap, and there is room. -/
def pqPush (k : Nat) (s : State) : Except Fault State :=
  if s.nnodes ≤ k ∨ inHeap s k then .error .pqPushOperand
  else if s.cfg.maxSyms ≤ s.hsize then .error .pqPushFull
  else do
    let h ← siftUp s s.hsize s.hsize (Store.write s.heap s.hsize k)
    .ok { s with heap := h, hsize := s.hsize + 1 }

/-- `PQ.POP()`, rule R124: the node returned and the state after. The stale last position keeps its value. -/
def pqPop (s : State) : Except Fault (Nat × State) :=
  if s.hsize = 0 then .error .pqPopEmpty
  else do
    let m ← heapAt s.heap 0
    let n := s.hsize - 1
    if n = 0 then .ok (m, { s with hsize := n })
    else do
      let last ← heapAt s.heap n
      let h ← siftDown s n n 0 (Store.write s.heap 0 last)
      .ok (m, { s with heap := h, hsize := n })

end Sys2Proof.Machine
end

