-- ==== Sys2Proof/Machine/PriorityQueue.lean ====
section
/-! DEFINITION. The three Priority Queue requests executed alone (40_priority_queue.md rules R122 to R124). The Tree Builder
uses the same sub-operations inside its own operations; a request executed alone leaves its result in `pqAns`, the result
column of rule R100 (the model's own field, notes/assumptions/11.md). -/

namespace Sys2Proof.Machine

/-- `PQ.SIZE`, rule R122. -/
def execPqSize (s : State) : Host.Outcome State Fault Refusal := .next { s with pqAns := some (pqSize s) }

/-- `PQ.PUSH`, rule R123; it has no result. -/
def execPqPush (k : Nat) (s : State) : Host.Outcome State Fault Refusal :=
  finish do
    let s1 ← pqPush k s
    .ok { s1 with pqAns := none }

/-- `PQ.POP`, rule R124. -/
def execPqPop (s : State) : Host.Outcome State Fault Refusal :=
  finish do
    let (m, s1) ← pqPop s
    .ok { s1 with pqAns := some m }

end Sys2Proof.Machine
end

