-- ==== Sys2Proof/Machine/TreeBuilder.lean ====
section
/-! DEFINITION. The Huffman Tree Builder: `TB.INIT`, `TB.LEAF`, `TB.MERGE`, `TB.ROOT` (42_tree_builder.md). -/

namespace Sys2Proof.Machine

/-- `TB.INIT`, rule R161. -/
def execTbInit (s : State) : Host.Outcome State Fault Refusal :=
  .next (if s.symCount = 0 then raise .zeroSyms s else { s with hsize := 0, nnodes := 0, idx := 0, phase := .tbLeaf })

/-- The leaf of a frequency entry, rule R162. -/
def leafOf (e : FtEntry) : TreeNode where
  leaf := true
  freq := e.count.setWidth 64
  sym := e.sym
  left := none
  right := none

/-- The internal node over the two popped nodes, rule R163: first pop left, second right, frequency the sum. -/
def joinOf (a b : Nat) (fa fb : Word64) : TreeNode where
  leaf := false
  freq := fa + fb
  sym := 0
  left := some a
  right := some b

/-- The end of `TB.LEAF` (rule R162): the next entry, or after the last one the merges, or the root when there is one node. -/
def tbLeafNext (s : State) : State :=
  { s with
    idx := s.idx + 1
    phase := if s.idx + 1 < s.symCount then .tbLeaf else if 1 < pqSize s then .tbMerge else .tbRoot }

/-- The end of `TB.MERGE` (rule R163): merge again while more than one node remains. -/
def tbMergeNext (s : State) : State := { s with phase := if 1 < pqSize s then .tbMerge else .tbRoot }

/-- Create node `k = NNODES`: `NODE[k] <- n; NNODES <- k + 1; PQ.PUSH(k)`, the middle of `TB.LEAF` and of `TB.MERGE`. -/
def addNode (s : State) (k : Nat) (n : TreeNode) : Except Fault State := do
  let s1 ← writeNode s k n
  pqPush k { s1 with nnodes := k + 1 }

/-- `TB.LEAF`, rule R162. -/
def execTbLeaf (s : State) : Host.Outcome State Fault Refusal :=
  finish <|
    if s.symCount.toNat ≤ s.idx.toNat ∨ s.nnodes ≠ s.idx.toNat then .error .tbLeafPre
    else do
      let e ← readFt s s.idx.toNat
      let s1 ← addNode s s.idx.toNat (leafOf e)
      .ok (tbLeafNext s1)

/-- `TB.MERGE`, rule R163: first pop, second pop, then the push, never reordered. -/
def execTbMerge (s : State) : Host.Outcome State Fault Refusal :=
  finish <|
    if s.hsize < 2 then .error .tbMergePre
    else do
      let (a, s1) ← pqPop s
      let (b, s2) ← pqPop s1
      let fa ← freqOf s2 a
      let fb ← freqOf s2 b
      let s3 ← addNode s2 s2.nnodes (joinOf a b fa fb)
      .ok (tbMergeNext s3)

/-- `TB.ROOT`, rule R164. -/
def execTbRoot (s : State) : Host.Outcome State Fault Refusal :=
  finish <|
    if s.hsize ≠ 1 then .error .tbRootPre
    else do
      let (r, s1) ← pqPop s
      .ok { s1 with root := some r, phase := .bsHdr }

end Sys2Proof.Machine
end

