-- ==== Sys2Proof/Machine/Validator.lean ====
section
/-! DEFINITION. The Validator: `VL.INIT`, `VL.TALLY`, `VL.CMP` (44_validator.md). -/

namespace Sys2Proof.Machine

/-- All 256 tallies at 0, rule R201. -/
def zeroTallies : Store Word32 := (List.range 256).map fun i => (i, 0)

/-- `VL.INIT`, rule R201. -/
def execVlInit (s : State) : Host.Outcome State Fault Refusal :=
  .next { s with obs := zeroTallies, idx := 0, phase := if s.outLen = 0 then .vlCmp else .vlTally }

/-- The end of `VL.TALLY` (rule R202): the next byte, or the comparison from entry 0 after the last. -/
def vlTallyNext (s : State) : State :=
  if s.idx + 1 = s.outLen then { s with idx := 0, phase := .vlCmp } else { s with idx := s.idx + 1, phase := .vlTally }

/-- The end of a `VL.CMP` that agrees (rule R203): the next entry, or the end of the run after the last. -/
def vlCmpNext (s : State) : State :=
  { s with idx := s.idx + 1, phase := if s.idx + 1 = s.symCount then .haltDone else .vlCmp }

/-- `VL.TALLY`, rule R202. -/
def execVlTally (s : State) : Host.Outcome State Fault Refusal :=
  finish <|
    if s.outLen.toNat ≤ s.idx.toNat then .error .vlTallyPre
    else do
      let x ← readOut s s.idx.toNat
      let v ← readObs s x
      .ok (vlTallyNext (writeObs s x (v + 1)))

/-- `VL.CMP`, rule R203. -/
def execVlCmp (s : State) : Host.Outcome State Fault Refusal :=
  finish <|
    if s.symCount.toNat ≤ s.idx.toNat then .error .vlCmpPre
    else do
      let e ← readFt s s.idx.toNat
      let v ← readObs s e.sym
      if v ≠ e.count then .ok (raise (.countMismatch e.sym e.count v) s)
      else .ok (vlCmpNext s)

end Sys2Proof.Machine
end

