-- ==== Sys2Proof/Machine/Dispatch.lean ====
section
/-! DEFINITION. The meaning of every operation, one arm per constructor. -/

namespace Sys2Proof.Machine

/-- What an operation does. -/
def exec (i : Instr) (s : State) : Host.Outcome State Fault Refusal :=
  match i with
  | .go validate => Sys2Proof.Machine.execGo validate s
  | .idle => Sys2Proof.Machine.execIdle s
  | .ftHdr => Sys2Proof.Machine.execFtHdr s
  | .ftEnt => Sys2Proof.Machine.execFtEnt s
  | .tbInit => Sys2Proof.Machine.execTbInit s
  | .tbLeaf => Sys2Proof.Machine.execTbLeaf s
  | .tbMerge => Sys2Proof.Machine.execTbMerge s
  | .tbRoot => Sys2Proof.Machine.execTbRoot s
  | .bsHdr => Sys2Proof.Machine.execBsHdr s
  | .bsBit => Sys2Proof.Machine.execBsBit s
  | .bsRun1 => Sys2Proof.Machine.execBsRun1 s
  | .vlInit => Sys2Proof.Machine.execVlInit s
  | .vlTally => Sys2Proof.Machine.execVlTally s
  | .vlCmp => Sys2Proof.Machine.execVlCmp s
  | .haltDone => Sys2Proof.Machine.execHaltDone s
  | .haltErr => Sys2Proof.Machine.execHaltErr s
  | .pqSize => Sys2Proof.Machine.execPqSize s
  | .pqPush k => Sys2Proof.Machine.execPqPush k s
  | .pqPop => Sys2Proof.Machine.execPqPop s

end Sys2Proof.Machine
end

