-- ==== Sys2Proof/Machine/HostAccess.lean ====
section
/-! DEFINITION. What the host can do (rules R21 to R27, R46, R215, R223, R280 to R282, R289, R290). -/

namespace Sys2Proof.Machine

/-- The width of a register by number, the table of rule R21; numbers 14 and above do not exist. -/
def regWidth (n : Nat) : Nat :=
  match n with
  | 0 | 1 => 32
  | 2 => 64
  | 3 => 32
  | 4 => 8
  | 5 | 6 | 7 | 8 | 9 | 10 | 11 | 12 | 13 => 32
  | _ => 0

/-- The current value of a register by number, zero-extended: the table of rule R21. `CTRL` and absent registers return 0. -/
def regValue (s : State) (n : Nat) : Word64 :=
  match n with
  | 0 => 0
  | 1 => (statusWord s).setWidth 64
  | 2 => s.inLen
  | 3 => s.outLen.setWidth 64
  | 4 => s.errSym.setWidth 64
  | 5 => s.errDeclared.setWidth 64
  | 6 => s.errObserved.setWidth 64
  | 7 => s.errCursor.setWidth 64
  | 8 => s.hdrTotalLen.setWidth 64
  | 9 => s.hdrReserved.setWidth 64
  | 10 => s.symCount.setWidth 64
  | 11 => s.packedBits.setWidth 64
  | 12 => s.packedBytes.setWidth 64
  | 13 => s.unpackedBytes.setWidth 64
  | _ => 0

/-- The free value of this read, cut to `w` bits (U6, U11). -/
def freeValue (s : State) (w : Nat) : Word64 := ((Config.freeRead s.reads).setWidth w).setWidth 64

/-- `STATUS` read while BUSY: `STATE` and `VALIDATE_EN` exact, `PHASE`, `ERR_CODE` and `ERR_SUB` unspecified (rule R23). -/
def busyStatus (s : State) : Word32 :=
  let f := Config.freeRead s.reads
  statusOf s.validateEn (f.extractLsb' 7 4) (f.extractLsb' 4 3) (f.extractLsb' 0 4) (runState s.phase)

/-- What a host read of a register returns (rule R223). While BUSY only `STATE` and `VALIDATE_EN` are specified (rule R290),
besides the zeros of `CTRL` and of absent registers. -/
def hostReadReg (s : State) (n : Nat) : Word64 :=
  if busy s then
    if n = 0 then 0
    else if n = 1 then (busyStatus s).setWidth 64
    else freeValue s (regWidth n)
  else regValue s n

/-- What a host read of `OUT[a]` returns: the emitted byte; unspecified while BUSY, at or beyond `OUT_LEN` (U6, U11). -/
def hostReadOut (s : State) (a : Nat) : Word64 :=
  match (if busy s then none else if a < s.outLen.toNat then Store.read s.outBuf a else none) with
  | some b => b.setWidth 64
  | none => freeValue s 8

/-- What a host read of `IN[a]` returns: the byte it placed (rule R39); unspecified while BUSY (rule R290) and where it placed
none. -/
def hostReadIn (s : State) (a : Nat) : Word64 :=
  match (if busy s then none else if a < s.cfg.inCap then Store.read s.inBuf a else none) with
  | some b => b.setWidth 64
  | none => freeValue s 8

/-- A host read returns a value and changes nothing of the block (rule R223). -/
def hostReturns (s : State) (v : Word64) : State := { s with hostSaw := some v, reads := s.reads + 1 }

/-- A host write of word `w` to `CTRL`, rules R22 and R216: a command when it decodes, otherwise ignored. -/
def hostWriteCtrl (w : Word32) (s : State) : Host.Outcome State Fault Refusal :=
  match decode (.cmd w) with
  | .ok i => exec i s
  | .error _ => .next s

/-- A host write of a register by number, rule R223: only `CTRL` and `IN_LEN` take one, every other write is ignored. -/
def hostWriteReg (n : Nat) (v : Word64) (s : State) : Host.Outcome State Fault Refusal :=
  if n = 0 then hostWriteCtrl (v.setWidth 32) s
  else if n = 2 then
    if busy s then .refused .hostWritesWhileBusy else .next { s with inLen := v }
  else .next s

/-- A host write of a byte of `IN`, rules R39 and R223; not while BUSY (rule R289). -/
def hostWriteIn (a : Nat) (b : Byte) (s : State) : Host.Outcome State Fault Refusal :=
  if busy s then .refused .hostWritesWhileBusy
  else if a < s.cfg.inCap then .next { s with inBuf := Store.write s.inBuf a b }
  else .refused .hostWritesBeyondIn

/-- One access of the host. -/
def hostAct (a : HostAction) (s : State) : Host.Outcome State Fault Refusal :=
  match a with
  | .writeReg n v => hostWriteReg n v s
  | .writeIn off b => hostWriteIn off b s
  | .readReg n => .next (hostReturns s (hostReadReg s n))
  | .readIn off => .next (hostReturns s (hostReadIn s off))
  | .readOut off => .next (hostReturns s (hostReadOut s off))
  | .reset => .next (resetEvent s)

end Sys2Proof.Machine
end

