-- ==== Sys2Proof/Machine/Fetch.lean ====
section
/-! DEFINITION. How the block selects its next operation: `PHASE` takes the place of a program counter (rule R28), and the
place where each encoded operation stands. -/

namespace Sys2Proof.Machine

/-- The code of a Priority Queue request, the table of rule R100. -/
def requestCode : PqRequest → Code
  | .size => .pq 0#2 0
  | .push k => .pq 1#2 k
  | .pop => .pq 2#2 0

/-- The request a code names; 3 is reserved (rule R102). -/
def requestOfCode (req : BitVec 2) (k : Nat) : Option PqRequest :=
  match req.toNat with
  | 0 => some .size
  | 1 => some (.push k)
  | 2 => some .pop
  | _ => none

/-- The code the block executes next: a request standing at the Priority Queue, else the `PHASE` code. -/
def fetch (s : State) : Code :=
  match s.pqPort with
  | some r => requestCode r
  | none => .seq (phaseCode s.phase)

/-- One operation of the block: decode what is fetched and execute it. -/
def blockStep (s : State) : Host.Outcome State Fault Refusal :=
  match decode (fetch s) with
  | .ok i => exec i { s with pqPort := none }
  | .error why => .refused (.rejected why)

/-- The block moves next. -/
def blockNext (s : State) : List Input := if s.inputs.isEmpty then [] else .block :: s.inputs

/-- Place an encoded operation where the next step takes it from: a `CTRL` word as the host's next write, a `PHASE` code in
`PHASE`, a request at the Priority Queue. A reserved code has no place. -/
def placeCode (c : Code) (s : State) : State :=
  match c with
  | .cmd w => { s with inputs := .host (.writeReg 0 (w.setWidth 64)) :: s.inputs }
  | .seq p =>
    match phaseOfCode p with
    | some ph => { s with phase := ph, pqPort := none, inputs := blockNext s }
    | none => s
  | .pq req k =>
    match requestOfCode req k with
    | some r => { s with pqPort := some r, inputs := blockNext s }
    | none => s

end Sys2Proof.Machine
end

