-- ==== Sys2Proof/Machine/Step.lean ====
section
/-! DEFINITION. One step of the machine: the next move of the block or of the host (rules R15, R16). -/

namespace Sys2Proof.Machine

/-- One step: the first entry of `inputs` moves, and when there is none the block does. -/
def step (s : State) : Host.Outcome State Fault Refusal :=
  match s.inputs with
  | [] => blockStep s
  | .block :: rest => blockStep { s with inputs := rest }
  | .host a :: rest => hostAct a { s with inputs := rest }

/-- `s` with a word of the opcode table placed where the next step takes it from. notes/assumptions/3.md. -/
def State.withFetchWord (s : State) (nbits w : Nat) : State := placeCode (tableCode nbits w) s

end Sys2Proof.Machine
end

