-- ==== Sys2Proof/Safety.lean ====
section
/-! DEFINITION. What counts as a good state and a good run, in the terms the statements use: the canonical form of storage, the
tree under construction (rules R45, R126, R165), the invariant of every reachable state, and runs of the machine. -/

namespace Sys2Proof.Machine

/-! Storage. -/

/-- Every file and buffer is in canonical form and lists no element beyond its size (rules R34 to R40). -/
structure StorageForm (s : State) : Prop where
  inWf : Memory.wf s.inBuf
  outWf : Memory.wf s.outBuf
  ftWf : Store.wf s.ft
  nodeWf : Store.wf s.node
  heapWf : Store.wf s.heap
  obsWf : Store.wf s.obs
  inSize : ∀ p ∈ s.inBuf, p.1 < s.cfg.inCap
  outSize : ∀ p ∈ s.outBuf, p.1 < s.cfg.outCap
  ftSize : ∀ p ∈ s.ft, p.1 < s.cfg.maxSyms
  nodeSize : ∀ p ∈ s.node, p.1 < 2 * s.cfg.maxSyms - 1
  heapSize : ∀ p ∈ s.heap, p.1 < s.cfg.maxSyms
  obsSize : ∀ p ∈ s.obs, p.1 < 256

/-- Store `m'` is store `m` with value `v` at index `a`: every other index reads as before. -/
def Updated {α : Type} (m m' : Store α) (a : Nat) (v : α) : Prop :=
  ∀ b, Store.read m' b = if b = a then some v else Store.read m b

/-! The heap and the tree. -/

/-- `F(k)` for the nodes of arena `m`, rule R11. -/
def nodeFreq (m : Store TreeNode) (k : Nat) : Word64 :=
  match Store.read m k with
  | some n => n.freq
  | none => 0

/-- The key of position `j` of heap array `h` over arena `m`, rule R121. -/
def arrayFreq (m : Store TreeNode) (h : Store Nat) (j : Nat) : Word64 :=
  match Store.read h j with
  | some k => nodeFreq m k
  | none => 0

/-- The key of heap position `j`. -/
def posFreq (s : State) (j : Nat) : Word64 := arrayFreq s.node s.heap j

/-- The position reached from position `j` by `i` moves to the parent. -/
def ancestor (j : Nat) : Nat → Nat
  | 0 => j
  | i + 1 => heapParent (ancestor j i)

/-- What `PQ.PUSH` of node `k` makes of heap array `h` with `n` occupied positions, by rule R123: along the chain of parents
from position `n`, the nodes of strictly greater frequency come down one place each, `m` of them, `k` stands where they
end, and every other position is as before. -/
structure Raised (nodes : Store TreeNode) (h : Store Nat) (n k : Nat) (h' : Store Nat) (m : Nat) : Prop where
  climbs : ∀ i, i < m → ancestor n i ≠ 0 ∧ nodeFreq nodes k < arrayFreq nodes h (ancestor n (i + 1))
  stops : ancestor n m = 0 ∨ arrayFreq nodes h (ancestor n (m + 1)) ≤ nodeFreq nodes k
  placed : Store.read h' (ancestor n m) = some k
  moved : ∀ i, i < m → Store.read h' (ancestor n i) = Store.read h (ancestor n (i + 1))
  others : ∀ x, (∀ i, i ≤ m → x ≠ ancestor n i) → Store.read h' x = Store.read h x

/-- `PQ.PUSH(k)` took heap array `h` with `n` occupied positions to `h'` (rule R123). -/
def Pushed (nodes : Store TreeNode) (h : Store Nat) (n k : Nat) (h' : Store Nat) : Prop := ∃ m, Raised nodes h n k h' m

/-- The child that rule R124 chooses at position `j` of `n`: the right one only where it exists and is strictly smaller. -/
def smallerChild (nodes : Store TreeNode) (h : Store Nat) (n j : Nat) : Nat :=
  if 2 * j + 2 < n ∧ arrayFreq nodes h (2 * j + 2) < arrayFreq nodes h (2 * j + 1) then 2 * j + 2 else 2 * j + 1

/-- The position reached from position `j` of a heap of `n` positions by `i` moves to the chosen child. -/
def descendant (nodes : Store TreeNode) (h : Store Nat) (n j : Nat) : Nat → Nat
  | 0 => j
  | i + 1 => smallerChild nodes h n (descendant nodes h n j i)

/-- What the loop of `PQ.POP` makes of heap array `h` of `n` positions with node `k` at position `j`, by rule R124: along the
chain of chosen children from `j`, the nodes of strictly smaller frequency than `k` go up one place each, `m` of them, `k`
stands where they end, and every other position is as before. -/
structure Lowered (nodes : Store TreeNode) (h : Store Nat) (n j k : Nat) (h' : Store Nat) (m : Nat) : Prop where
  descends : ∀ i, i < m → 2 * descendant nodes h n j i + 1 < n ∧ arrayFreq nodes h (descendant nodes h n j (i + 1)) < nodeFreq nodes k
  stops : n ≤ 2 * descendant nodes h n j m + 1 ∨ nodeFreq nodes k ≤ arrayFreq nodes h (descendant nodes h n j (m + 1))
  placed : Store.read h' (descendant nodes h n j m) = some k
  moved : ∀ i, i < m → Store.read h' (descendant nodes h n j i) = Store.read h (descendant nodes h n j (i + 1))
  others : ∀ x, (∀ i, i ≤ m → x ≠ descendant nodes h n j i) → Store.read h' x = Store.read h x

/-- `PQ.POP()` took heap array `h` to `h'`, leaving `n` occupied positions (rule R124): the element at position `n` goes down from
the root; when none remains, nothing moves. -/
def Popped (nodes : Store TreeNode) (h : Store Nat) (n : Nat) (h' : Store Nat) : Prop :=
  if n = 0 then h' = h else ∃ k m, Store.read h n = some k ∧ Lowered nodes h n 0 k h' m

/-- The nodes in the heap, in position order. -/
def heapNodes (s : State) : List Nat := (List.range s.hsize).filterMap (Store.read s.heap)

/-- The nodes that are the child of an internal node, once for each edge. -/
def childNodes (s : State) : List Nat :=
  (List.range s.nnodes).flatMap fun k =>
    match Store.read s.node k with
    | some n => n.left.toList ++ n.right.toList
    | none => []

/-- The declared count of table entry `i`. -/
def countOf (s : State) (i : Nat) : Nat :=
  match Store.read s.ft i with
  | some e => e.count.toNat
  | none => 0

/-- The sum of the counts of the first `m` entries. -/
def countSum (s : State) (m : Nat) : Nat := ((List.range m).map (countOf s)).sum

/-- Every occupied heap position holds an existing node. -/
def HeapFilled (s : State) : Prop :=
  ∀ j, j < s.hsize → ∃ k n, Store.read s.heap j = some k ∧ k < s.nnodes ∧ Store.read s.node k = some n

/-- The heap order of rule R126. -/
def HeapOrdered (s : State) : Prop := ∀ j, 1 ≤ j → j < s.hsize → posFreq s (heapParent j) ≤ posFreq s j

/-- Node `k` is the leaf of table entry `k` (rule R162). -/
def LeafNode (s : State) (k : Nat) : Prop :=
  ∃ e, Store.read s.ft k = some e ∧ Store.read s.node k = some (leafOf e)

/-- Node `k` is internal, over two nodes of smaller index, and its frequency is exactly the sum of theirs (rules R45, R163). -/
def InnerNode (s : State) (k : Nat) : Prop :=
  ∃ a b, a < k ∧ b < k ∧ Store.read s.node k = some (joinOf a b (nodeFreq s.node a) (nodeFreq s.node b)) ∧
    (nodeFreq s.node k).toNat = (nodeFreq s.node a).toNat + (nodeFreq s.node b).toNat

/-- The arena while `leaves` leaves exist and `roots` are the nodes without a parent (rules R45, R165): the leaves come first,
in header order; the others are internal; every node is a root or the child of exactly one internal node; the roots'
frequencies sum to the counts of the leaves. -/
structure Arena (s : State) (leaves : Nat) (roots : List Nat) : Prop where
  leaf : ∀ k, k < leaves → LeafNode s k
  inner : ∀ k, leaves ≤ k → k < s.nnodes → InnerNode s k
  forest : (roots ++ childNodes s).Perm (List.range s.nnodes)
  weight : (roots.map fun k => (nodeFreq s.node k).toNat).sum = countSum s leaves

/-- The build after `leaves` leaves (rules R126, R165). -/
structure Building (s : State) (leaves : Nat) : Prop where
  filled : HeapFilled s
  ordered : HeapOrdered s
  balance : s.nnodes + s.hsize = 2 * leaves
  arena : Arena s leaves (heapNodes s)

/-- The tree after `TB.ROOT` (rule R165). -/
structure TreeBuilt (s : State) : Prop where
  some1 : 1 ≤ s.symCount.toNat
  emptied : s.hsize = 0
  size : s.nnodes + 1 = 2 * s.symCount.toNat
  rootIs : s.root = some (s.nnodes - 1)
  arena : Arena s s.symCount.toNat [s.nnodes - 1]

/-- Where the bits of a path lead from node `k`, left on 0 and right on 1 (rule R97); a path ends at a leaf. -/
def followPath (s : State) (k : Nat) : List Bool → Option Nat
  | [] => some k
  | b :: bits =>
    match Store.read s.node k with
    | some n =>
      if n.leaf then none
      else
        match (if b then n.right else n.left) with
        | some c => followPath s c bits
        | none => none
    | none => none

/-! The table, the payload, the output, the tallies. -/

/-- The first `m` table entries are read, and the table fits its file. -/
structure TableRead (s : State) (m : Nat) : Prop where
  fits : s.symCount.toNat ≤ s.cfg.maxSyms
  listed : ∀ i, i < m → ∃ e, Store.read s.ft i = some e

/-- The entries lie inside the input (the check of `FT.HDR`). -/
def TableInside (s : State) : Prop := entriesEnd s ≤ s.inLen.toNat

/-- The payload lies inside the input and holds its bits (the checks of `BS.HDR`). -/
structure PayloadInside (s : State) : Prop where
  base : s.payloadBase.toNat = entriesEnd s + 12
  bytes : s.payloadBase.toNat + s.packedBytes.toNat ≤ s.inLen.toNat
  bits : s.packedBits.toNat ≤ 8 * s.packedBytes.toNat

/-- Every emitted byte is written, and is the symbol of a table entry. -/
def Emitted (s : State) : Prop :=
  ∀ j, j < s.outLen.toNat → ∃ i e, i < s.symCount.toNat ∧ Store.read s.ft i = some e ∧ Store.read s.outBuf j = some e.sym

/-- The valid payload bits `0 .. PACKED_BITS-1` (rules R94, R96). -/
def payloadBits (s : State) : List Bool :=
  (List.range s.packedBits.toNat).map fun c => bitOfByte (inByte s (s.payloadBase.toNat + c / 8)) c

/-- The code leads from node `r` to a leaf, whose symbol is output byte `j` (rule R97). -/
def CodeEmits (s : State) (r : Nat) (code : List Bool) (j : Nat) : Prop :=
  ∃ k n, followPath s r code = some k ∧ Store.read s.node k = some n ∧ n.leaf = true ∧ Store.read s.outBuf j = some n.sym

/-- How often symbol `x` stands in the first `m` output bytes. -/
def occurrences (s : State) (x : Byte) (m : Nat) : Nat :=
  (List.range m).countP fun j => Store.read s.outBuf j == some x

/-- The tallies count the first `m` output bytes (rule R202). -/
def Tallied (s : State) (m : Nat) : Prop :=
  ∀ x : Byte, ∃ v, Store.read s.obs x.toNat = some v ∧ v.toNat = occurrences s x m

/-- The output holds the declared count of each of the first `m` entries' symbols (rule R203). -/
def Matches (s : State) (m : Nat) : Prop :=
  ∀ i, i < m → ∃ e, Store.read s.ft i = some e ∧ occurrences s e.sym s.outLen.toNat = e.count.toNat

/-- Decoding has completed: all bits are consumed in the general case (rule R186), and in the single-leaf case the one symbol
is emitted `count` times and no bit is consumed (rule R183). -/
structure Decoded (s : State) : Prop where
  table : TableRead s s.symCount.toNat
  tree : TreeBuilt s
  emitted : Emitted s
  general : 2 ≤ s.symCount.toNat → s.cursor = s.packedBits
  single : s.symCount.toNat = 1 → s.cursor = 0 ∧ s.outLen.toNat = countOf s 0

/-! The invariant. -/

/-- No error is recorded. -/
def NoError (s : State) : Prop :=
  s.errCode = 0 ∧ s.errSub = 0 ∧ s.errSym = 0 ∧ s.errDeclared = 0 ∧ s.errObserved = 0 ∧ s.errCursor = 0

/-- The context of a `ValidationError` is 0. -/
def NoMismatch (s : State) : Prop := s.errSym = 0 ∧ s.errDeclared = 0 ∧ s.errObserved = 0

/-- What `HALT.ERR` records, one case for each kind (rules R241 to R246, R253). -/
inductive ErrorRecord (s : State) : Prop where
  | format (code : s.errCode = 1) (low : 1 ≤ s.errSub.toNat) (high : s.errSub.toNat ≤ 6) (context : NoMismatch s)
      (cursor : s.errCursor = 0) (nothing : s.outLen = 0)
  | midCode (code : s.errCode = 2) (sub : s.errSub = 2) (context : NoMismatch s) (cursor : s.errCursor = s.cursor)
      (consumed : s.cursor = s.packedBits) (emitted : Emitted s)
  | mismatch (code : s.errCode = 3) (sub : s.errSub = 1) (cursor : s.errCursor = 0) (enabled : s.validateEn = true)
      (decoded : Decoded s) (i : Nat) (e : FtEntry) (inTable : i < s.symCount.toNat) (entry : Store.read s.ft i = some e)
      (sym : s.errSym = e.sym) (declared : s.errDeclared = e.count)
      (observed : s.errObserved.toNat = occurrences s e.sym s.outLen.toNat) (differs : s.errObserved ≠ s.errDeclared)
      (earlier : Matches s i)
  | tooManySymbols (code : s.errCode = 4) (sub : s.errSub = 1) (context : NoMismatch s) (cursor : s.errCursor = 0)
      (exceeded : s.cfg.maxSyms < s.symCount.toNat) (nothing : s.outLen = 0)
  | outputFull (code : s.errCode = 4) (sub : s.errSub = 2) (context : NoMismatch s) (cursor : s.errCursor = 0)
      (full : s.outLen.toNat = s.cfg.outCap) (emitted : Emitted s)

/-- What holds when an operation is about to run, by `PHASE`: the preconditions of U4 and what they rest on (rules R165, R185,
R217). -/
def PhaseInv (s : State) : Prop :=
  match s.phase with
  | .idle => NoError s
  | .ftHdr => NoError s ∧ s.outLen = 0
  | .ftEnt => NoError s ∧ s.outLen = 0 ∧ TableInside s ∧ TableRead s s.idx.toNat ∧ s.idx.toNat < s.symCount.toNat
  | .tbInit => NoError s ∧ s.outLen = 0 ∧ TableInside s ∧ TableRead s s.symCount.toNat
  | .tbLeaf => NoError s ∧ s.outLen = 0 ∧ TableInside s ∧ TableRead s s.symCount.toNat ∧ s.idx.toNat < s.symCount.toNat ∧
      s.nnodes = s.idx.toNat ∧ Building s s.idx.toNat
  | .tbMerge => NoError s ∧ s.outLen = 0 ∧ TableInside s ∧ TableRead s s.symCount.toNat ∧ 2 ≤ s.hsize ∧
      Building s s.symCount.toNat
  | .tbRoot => NoError s ∧ s.outLen = 0 ∧ TableInside s ∧ TableRead s s.symCount.toNat ∧ s.hsize = 1 ∧
      Building s s.symCount.toNat
  | .bsHdr => NoError s ∧ s.outLen = 0 ∧ TableInside s ∧ TableRead s s.symCount.toNat ∧ TreeBuilt s
  | .bsBit => NoError s ∧ TableRead s s.symCount.toNat ∧ TreeBuilt s ∧ PayloadInside s ∧ Emitted s ∧ 2 ≤ s.symCount.toNat ∧
      (∃ w, s.walk = some w ∧ s.symCount.toNat ≤ w ∧ w < s.nnodes) ∧ s.cursor.toNat ≤ s.packedBits.toNat ∧
      (s.cursor = s.packedBits → s.walk = s.root) ∧ s.outLen.toNat ≤ s.cursor.toNat
  | .bsRun1 => NoError s ∧ TableRead s s.symCount.toNat ∧ TreeBuilt s ∧ Emitted s ∧ s.symCount.toNat = 1 ∧ s.cursor = 0 ∧
      s.outLen = s.idx ∧ s.idx.toNat ≤ countOf s 0
  | .vlInit => NoError s ∧ Decoded s ∧ s.validateEn = true
  | .vlTally => NoError s ∧ Decoded s ∧ s.validateEn = true ∧ s.idx.toNat < s.outLen.toNat ∧ Tallied s s.idx.toNat
  | .vlCmp => NoError s ∧ Decoded s ∧ s.validateEn = true ∧ s.idx.toNat < s.symCount.toNat ∧ Tallied s s.outLen.toNat ∧
      Matches s s.idx.toNat
  | .haltDone => NoError s ∧ Decoded s ∧ (s.validateEn = true → Matches s s.symCount.toNat)
  | .haltErr => ErrorRecord s

/-- The invariant of every reachable state. -/
structure Inv (s : State) : Prop where
  storage : StorageForm s
  port : s.pqPort = none
  outFits : s.outLen.toNat ≤ s.cfg.outCap
  phase : PhaseInv s

/-! Runs. -/

/-- `k` steps that each answer a next state. -/
def stepN : Nat → State → Option State
  | 0, s => some s
  | k + 1, s =>
    match step s with
    | .next t => stepN k t
    | .fault _ => none
    | .refused _ => none

/-- A block left to itself: no host access is waiting and no request stands alone at the Priority Queue. -/
def Alone (s : State) : Prop := s.inputs = [] ∧ s.pqPort = none

/-- The run is over (rule R226). -/
def Ended (s : State) : Prop := s.phase = .haltDone ∨ s.phase = .haltErr

/-- What a host can see of the result of a run (rules R46, R226): the halt, the error and its context, the output, the wire
fields, `VALIDATE_EN`. -/
structure Result where
  phase : Phase
  validateEn : Bool
  errCode : BitVec 3
  errSub : BitVec 4
  errSym : Byte
  errDeclared : Word32
  errObserved : Word32
  errCursor : Word32
  output : List (Option Byte)
  symCount : Word32
  packedBits : Word32
  packedBytes : Word32
  deriving DecidableEq, Repr

/-- The output bytes `OUT[0 .. OUT_LEN-1]`. -/
def outputOf (s : State) : List (Option Byte) := (List.range s.outLen.toNat).map (Store.read s.outBuf)

/-- The result of a run, less the three fields that are only latched (rule R27, U10). -/
def resultOf (s : State) : Result where
  phase := s.phase
  validateEn := s.validateEn
  errCode := s.errCode
  errSub := s.errSub
  errSym := s.errSym
  errDeclared := s.errDeclared
  errObserved := s.errObserved
  errCursor := s.errCursor
  output := outputOf s
  symCount := s.symCount
  packedBits := s.packedBits
  packedBytes := s.packedBytes

/-- The bytes of the header, the entries and the body header that the block uses: `symbol_count`, each entry's `count` and
`symbol`, `packed_bits`, `packed_bytes` (rules R91 to R93); `n` is the symbol count. -/
def UsedByte (n a : Nat) : Prop :=
  (8 ≤ a ∧ a < 12) ∨ (12 ≤ a ∧ a < 12 + 8 * n ∧ (a - 12) % 8 < 5) ∨ (12 + 8 * n ≤ a ∧ a < 20 + 8 * n)

/-- Two blocks hold the same image as far as the block may use it (rules R101, U10): the same used bytes below `IN_LEN`, and the
same valid payload bits. -/
structure SameUsedImage (s t : State) : Prop where
  cfg : s.cfg = t.cfg
  inLen : s.inLen = t.inLen
  bytes : ∀ a, a < s.inLen.toNat → UsedByte (inWord s 8).toNat a → inByte s a = inByte t a
  bits : ∀ c, c < (inWord s (12 + 8 * (inWord s 8).toNat)).toNat →
    24 + 8 * (inWord s 8).toNat + c / 8 < s.inLen.toNat →
    bitOfByte (inByte s (24 + 8 * (inWord s 8).toNat + c / 8)) c =
      bitOfByte (inByte t (24 + 8 * (inWord s 8).toNat + c / 8)) c

/-- The bound of rule R224 on the operations of a run, in the values its end state holds. -/
def operationBound (t : State) : Nat :=
  1 + t.symCount.toNat + 1 + t.symCount.toNat + (t.symCount.toNat - 1) + 1 + 1 +
    (if t.symCount.toNat = 1 then countOf t 0 + 1 else t.packedBits.toNat + 1) + 1 + t.outLen.toNat + t.symCount.toNat

end Sys2Proof.Machine
end

