-- ==== Sys2Proof/Certificates/Slice0/Obligations.lean ====
section
/-! DEFINITION. The statements for the provers, from the numbered rules of spec/. -/

open Sys2Proof Sys2Proof.Machine

/-! Encodings (30_encoding.md). -/

/-- Rule R98: a word written to `CTRL` is `GO` when bit 0 is 1, with `VAL` bit 1, whatever bits 31:2 are, and no command when
bit 0 is 0. -/
def Obligations.CommandWordsDecode : Prop :=
  ∀ w : Word32,
    (w &&& 1#32 = 1#32 → decode (.cmd w) = .ok (.go (decide (w &&& 2#32 = 2#32)))) ∧
    (w &&& 1#32 = 0#32 → decode (.cmd w) = .error .noCommand)

/-- The tables of rules R99 and R100: the operation of each code; the two reserved codes are none (rule R102). -/
def Obligations.OperationCodesDecode : Prop :=
  decode (.seq 0#4) = .ok .idle ∧ decode (.seq 1#4) = .ok .ftHdr ∧ decode (.seq 2#4) = .ok .ftEnt ∧
  decode (.seq 3#4) = .ok .tbInit ∧ decode (.seq 4#4) = .ok .tbLeaf ∧ decode (.seq 5#4) = .ok .tbMerge ∧
  decode (.seq 6#4) = .ok .tbRoot ∧ decode (.seq 7#4) = .ok .bsHdr ∧ decode (.seq 8#4) = .ok .bsBit ∧
  decode (.seq 9#4) = .ok .bsRun1 ∧ decode (.seq 10#4) = .ok .vlInit ∧ decode (.seq 11#4) = .ok .vlTally ∧
  decode (.seq 12#4) = .ok .vlCmp ∧ decode (.seq 13#4) = .ok .haltDone ∧ decode (.seq 14#4) = .ok .haltErr ∧
  decode (.seq 15#4) = .error .reservedPhase ∧
  (∀ k, decode (.pq 0#2 k) = .ok .pqSize ∧ decode (.pq 1#2 k) = .ok (.pqPush k) ∧ decode (.pq 2#2 k) = .ok .pqPop ∧
    decode (.pq 3#2 k) = .error .reservedRequest)

/-- Decoder and encoder agree (rules R98 to R100): what is encoded decodes to itself, and a code that decodes is the encoding of
what it decodes to, but for the bits that rule R98 ignores and the node index that only `PQ.PUSH` carries. -/
def Obligations.DecoderAndEncoderAgree : Prop :=
  (∀ i : Instr, decode (encode i) = .ok i) ∧
  (∀ (w : Word32) (i : Instr), decode (.cmd w) = .ok i → encode i = .cmd (w &&& 3#32)) ∧
  (∀ (p : BitVec 4) (i : Instr), decode (.seq p) = .ok i → encode i = .seq p) ∧
  (∀ (r : BitVec 2) (k : Nat) (i : Instr), decode (.pq r k) = .ok i → encode i = .pq r (if r = 1#2 then k else 0))

/-- Words of the opcode table, written out bit by bit from rules R98 to R100. -/
def Obligations.SelectedWordsDecode : Prop :=
  decodeTableWord 32 0x00000001 = some (.go false) ∧ decodeTableWord 32 0x00000003 = some (.go true) ∧
  decodeTableWord 32 0xFFFFFFFD = some (.go false) ∧ decodeTableWord 32 0x00000002 = none ∧
  decodeTableWord 4 0b0001 = some .ftHdr ∧ decodeTableWord 4 0b0101 = some .tbMerge ∧
  decodeTableWord 4 0b1000 = some .bsBit ∧ decodeTableWord 4 0b1100 = some .vlCmp ∧ decodeTableWord 4 0b1111 = none ∧
  decodeTableWord 2 0b10 = some .pqPop ∧ decodeTableWord 2 0b11 = none

/-! The step (rules R15, R28, R222). -/

/-- A step runs the decoded operation: the one `PHASE` selects, or a request standing at the Priority Queue, or the command in a
word the host writes to `CTRL`; around it, the step only takes the entry off `inputs` and the request off its port. A step
whose next input is another access of the host is that access. The queue of inputs and the standing request are the
model's own (notes/assumptions/2.md, 11.md). -/
def Obligations.StepRunsDecodedOperation : Prop :=
  ∀ (s : State) (i : Instr),
    (s.inputs = [] → s.pqPort = none → decode (.seq (phaseCode s.phase)) = .ok i → step s = exec i s) ∧
    (∀ rest, s.inputs = .block :: rest → s.pqPort = none → decode (.seq (phaseCode s.phase)) = .ok i →
      step s = exec i { s with inputs := rest }) ∧
    (∀ r, s.inputs = [] → s.pqPort = some r → decode (requestCode r) = .ok i →
      step s = exec i { s with pqPort := none }) ∧
    (∀ r rest, s.inputs = .block :: rest → s.pqPort = some r → decode (requestCode r) = .ok i →
      step s = exec i { s with inputs := rest, pqPort := none }) ∧
    (∀ v rest, s.inputs = .host (.writeReg 0 v) :: rest → decode (.cmd (v.setWidth 32)) = .ok i →
      step s = exec i { s with inputs := rest }) ∧
    (∀ a rest, s.inputs = .host a :: rest → step s = hostAct a { s with inputs := rest })

/-- A word placed by `withFetchWord` is the operation the next step runs: a `CTRL` word on the state as it was, a `PHASE` code
with `PHASE` holding that code, a request with its port empty again (the model's own placement, notes/assumptions/3.md,
13.md). -/
def Obligations.PlacedWordRuns : Prop :=
  ∀ (s : State) (nbits w : Nat) (i : Instr), decodeTableWord nbits w = some i →
    (∀ c, tableCode nbits w = .cmd c → step (s.withFetchWord nbits w) = exec i s) ∧
    (∀ c, tableCode nbits w = .seq c →
      ∃ p, phaseCode p = c ∧ step (s.withFetchWord nbits w) = exec i { s with phase := p, pqPort := none }) ∧
    (∀ q k, tableCode nbits w = .pq q k → step (s.withFetchWord nbits w) = exec i { s with pqPort := none })

/-! Reset (rules R44, R280 to R282). -/

/-- The table of rule R44, on a block with any parameters: the registers, and the files and buffers, of which no element has a
value: the block's own read of one faults, and a byte of `IN` is a free value. -/
def Obligations.ResetValues : Prop :=
  State.reset = State.resetWith Config.ofReset ∧
  ∀ (c : Config) (s : State), s = State.resetWith c →
    s.phase = .idle ∧ runState s.phase = .idle ∧ s.validateEn = false ∧ s.errCode = 0 ∧ s.errSub = 0 ∧ s.inLen = 0 ∧
    s.outLen = 0 ∧ s.errSym = 0 ∧ s.errDeclared = 0 ∧ s.errObserved = 0 ∧ s.errCursor = 0 ∧ s.hdrTotalLen = 0 ∧
    s.hdrReserved = 0 ∧ s.symCount = 0 ∧ s.packedBits = 0 ∧ s.packedBytes = 0 ∧ s.unpackedBytes = 0 ∧ s.idx = 0 ∧
    s.cursor = 0 ∧ s.payloadBase = 0 ∧ s.hsize = 0 ∧ s.nnodes = 0 ∧ s.root = none ∧ s.walk = none ∧
    (∀ i, readFt s i = .error (.unwrittenRead .ft i)) ∧ (∀ k, readNode s k = .error (.unwrittenRead .node k)) ∧
    (∀ j, heapAt s.heap j = .error (.unwrittenRead .heap j)) ∧
    (∀ x, readObs s x = .error (.unwrittenRead .obs x.toNat)) ∧
    (∀ a, readOut s a = .error (.unwrittenRead .out a)) ∧ (∀ a, inByte s a = Config.freeInByte s.epoch a) ∧
    hostReadReg s 0 = 0

/-- Rule R281: reset, in any state, gives the registers the values of rule R44, leaves no element of a file or buffer with a
value, and `STATUS` reads 0; the block then waits in `IDLE`. The parameters stay (rule R42). -/
def Obligations.ResetEventEffect : Prop :=
  ∀ s : State, ∃ t, hostAct .reset s = .next t ∧
    t = { State.resetWith s.cfg with inputs := s.inputs, epoch := t.epoch, reads := s.reads, hostSaw := s.hostSaw } ∧
    statusWord t = 0 ∧ hostReadReg t 1 = 0 ∧ exec .idle t = .next t

/-! The command and the resting operations (45_host_and_sequencer.md). -/

/-- Rule R216, the host write of a word to `CTRL`. The `epoch` is the model's own (notes/assumptions/4.md). -/
def Obligations.CommandWriteStartsRun : Prop :=
  ∀ (s : State) (v : Word64),
    (v.getLsbD 0 = false → hostAct (.writeReg 0 v) s = .next s) ∧
    (v.getLsbD 0 = true → runState s.phase = .busy → hostAct (.writeReg 0 v) s = .next s) ∧
    (v.getLsbD 0 = true → runState s.phase ≠ .busy → ∃ t, hostAct (.writeReg 0 v) s = .next t ∧ runState t.phase = .busy ∧
      t = { s with
        validateEn := v.getLsbD 1, errCode := 0, errSub := 0, errSym := 0, errDeclared := 0, errObserved := 0,
        errCursor := 0, hdrTotalLen := 0, hdrReserved := 0, symCount := 0, packedBits := 0, packedBytes := 0,
        unpackedBytes := 0, outLen := 0, phase := .ftHdr, epoch := s.epoch + 1 })

/-- `GO` completes when the block is not BUSY (rule R216), and is dropped with no effect while it is (rule R218). -/
def Obligations.GoCompletes : Prop :=
  ∀ (s : State) (validate : Bool),
    (runState s.phase ≠ .busy → exec (.go validate) s = .next { s with
      validateEn := validate, errCode := 0, errSub := 0, errSym := 0, errDeclared := 0, errObserved := 0, errCursor := 0,
      hdrTotalLen := 0, hdrReserved := 0, symCount := 0, packedBits := 0, packedBytes := 0, unpackedBytes := 0, outLen := 0,
      phase := .ftHdr, epoch := s.epoch + 1 }) ∧
    (runState s.phase = .busy → exec (.go validate) s = .next s)

/-- `IDLE`, `HALT.DONE` and `HALT.ERR` change nothing (rules R219 to R221), and a block that rests in one stays there. -/
def Obligations.RestingOperationsChangeNothing : Prop :=
  ∀ s : State, exec .idle s = .next s ∧ exec .haltDone s = .next s ∧ exec .haltErr s = .next s ∧
    (s.inputs = [] → s.pqPort = none → (s.phase = .idle ∨ s.phase = .haltDone ∨ s.phase = .haltErr) → step s = .next s)

/-- Only a command `GO` and a reset leave `IDLE` or a halt (rules R219, R254): a step that does is one of those two host
accesses. -/
def Obligations.OnlyGoOrResetLeavesRest : Prop :=
  ∀ s t : State, s.pqPort = none → (s.phase = .idle ∨ s.phase = .haltDone ∨ s.phase = .haltErr) → step s = .next t →
    t.phase = s.phase ∨
    (t.phase = .ftHdr ∧ ∃ v rest, s.inputs = .host (.writeReg 0 v) :: rest ∧ v.getLsbD 0 = true) ∨
    (t.phase = .idle ∧ ∃ rest, s.inputs = .host .reset :: rest)

/-! The host's view (10_state.md section 2, rule R223). -/

/-- The fields of `STATUS` (rule R23), with the `STATE` view (rule R41) and the `PHASE` codes (rule R99) as numerals. -/
def Obligations.StatusFields : Prop :=
  ∀ s : State,
    (statusWord s).extractLsb' 0 2 =
      (if s.phase = .idle then 0#2 else if s.phase = .haltDone then 2#2 else if s.phase = .haltErr then 3#2 else 1#2) ∧
    (statusWord s).extractLsb' 2 2 = 0#2 ∧
    (statusWord s).extractLsb' 4 4 =
      (match s.phase with
        | .idle => 0#4 | .ftHdr => 1#4 | .ftEnt => 2#4 | .tbInit => 3#4 | .tbLeaf => 4#4 | .tbMerge => 5#4
        | .tbRoot => 6#4 | .bsHdr => 7#4 | .bsBit => 8#4 | .bsRun1 => 9#4 | .vlInit => 10#4 | .vlTally => 11#4
        | .vlCmp => 12#4 | .haltDone => 13#4 | .haltErr => 14#4) ∧
    (statusWord s).extractLsb' 4 4 = phaseCode s.phase ∧ phaseOfCode (phaseCode s.phase) = some s.phase ∧
    (statusWord s).extractLsb' 8 3 = s.errCode ∧
    (statusWord s).extractLsb' 11 4 = s.errSub ∧
    (statusWord s).extractLsb' 15 1 = BitVec.ofBool s.validateEn ∧
    (statusWord s).extractLsb' 16 16 = 0#16

/-- Host reads when the block is not BUSY: the register map of rule R21, and the bytes of `IN` the host placed and of `OUT` the
run emitted (rules R39, R40). A read changes nothing of the block (rule R223); what it returned and how many reads there
were are the model's own record (notes/assumptions/6.md). Narrow values are zero-extended (notes/assumptions/21.md). -/
def Obligations.HostReadsAtRest : Prop :=
  ∀ s : State, runState s.phase ≠ .busy →
    (∀ n v,
      (n = 0 ∧ v = 0) ∨ (n = 1 ∧ v = (statusWord s).setWidth 64) ∨ (n = 2 ∧ v = s.inLen) ∨
      (n = 3 ∧ v = s.outLen.setWidth 64) ∨ (n = 4 ∧ v = s.errSym.setWidth 64) ∨
      (n = 5 ∧ v = s.errDeclared.setWidth 64) ∨ (n = 6 ∧ v = s.errObserved.setWidth 64) ∨
      (n = 7 ∧ v = s.errCursor.setWidth 64) ∨ (n = 8 ∧ v = s.hdrTotalLen.setWidth 64) ∨
      (n = 9 ∧ v = s.hdrReserved.setWidth 64) ∨ (n = 10 ∧ v = s.symCount.setWidth 64) ∨
      (n = 11 ∧ v = s.packedBits.setWidth 64) ∨ (n = 12 ∧ v = s.packedBytes.setWidth 64) ∨
      (n = 13 ∧ v = s.unpackedBytes.setWidth 64) ∨ (14 ≤ n ∧ v = 0) →
      hostAct (.readReg n) s = .next { s with hostSaw := some v, reads := s.reads + 1 }) ∧
    (∀ a b, a < s.outLen.toNat → Store.read s.outBuf a = some b →
      hostAct (.readOut a) s = .next { s with hostSaw := some (b.setWidth 64), reads := s.reads + 1 }) ∧
    (∀ a b, a < s.cfg.inCap → Store.read s.inBuf a = some b →
      hostAct (.readIn a) s = .next { s with hostSaw := some (b.setWidth 64), reads := s.reads + 1 })

/-- Host reads of `STATUS` while BUSY (rules R23, R290): `STATE` reads 1 and `VALIDATE_EN` the latched bit, the fields that read
0 do, and nothing of the block changes; `CTRL` and absent registers read 0. -/
def Obligations.StatusReadWhileBusy : Prop :=
  ∀ s : State, runState s.phase = .busy →
    (∃ v : Word64, hostAct (.readReg 1) s = .next { s with hostSaw := some v, reads := s.reads + 1 } ∧
      v.extractLsb' 0 2 = 1#2 ∧ v.extractLsb' 2 2 = 0#2 ∧ v.extractLsb' 15 1 = BitVec.ofBool s.validateEn ∧
      v.extractLsb' 16 48 = 0#48) ∧
    hostAct (.readReg 0) s = .next { s with hostSaw := some 0, reads := s.reads + 1 } ∧
    (∀ n, 14 ≤ n → hostAct (.readReg n) s = .next { s with hostSaw := some 0, reads := s.reads + 1 })

/-- Host writes (rules R24, R39, R223, R289): `IN_LEN` and a byte of `IN` take effect at once when the block is not BUSY; a write
to a read-only or absent register is ignored; while BUSY the model has no move for a write of `IN` or `IN_LEN`, nor at any
time for one of `IN` at or above `IN_CAP` (the model's choice, notes/assumptions/7.md, 8.md). -/
def Obligations.HostWrites : Prop :=
  ∀ s : State,
    (∀ n v, n ≠ 0 → n ≠ 2 → hostAct (.writeReg n v) s = .next s) ∧
    (runState s.phase ≠ .busy →
      (∀ v, hostAct (.writeReg 2 v) s = .next { s with inLen := v }) ∧
      (∀ a b, a < s.cfg.inCap → ∃ m, hostAct (.writeIn a b) s = .next { s with inBuf := m } ∧ Updated s.inBuf m a b) ∧
      (∀ a b, s.cfg.inCap ≤ a → hostAct (.writeIn a b) s = .refused .hostWritesBeyondIn)) ∧
    (runState s.phase = .busy →
      (∀ v, hostAct (.writeReg 2 v) s = .refused .hostWritesWhileBusy) ∧
      (∀ a b, hostAct (.writeIn a b) s = .refused .hostWritesWhileBusy))

/-! Reading `IN` (20_memory.md, 30_encoding.md). -/

/-- Rules R60 and R95: a 4-byte read inside `IN_LEN`, with the least significant byte at the lowest offset; under the other
policy at the highest. -/
def Obligations.WordByteOrder : Prop :=
  ∀ (s : State) (a : Nat), a + 4 ≤ s.inLen.toNat → ∃ w, memRead4 s a = .ok w ∧
    (s.cfg.byteOrder = .little → w.toNat = (inByte s a).toNat + 256 * (inByte s (a + 1)).toNat +
      65536 * (inByte s (a + 2)).toNat + 16777216 * (inByte s (a + 3)).toNat) ∧
    (s.cfg.byteOrder = .big → w.toNat = (inByte s (a + 3)).toNat + 256 * (inByte s (a + 2)).toNat +
      65536 * (inByte s (a + 1)).toNat + 16777216 * (inByte s a).toNat)

/-- Rule R96: payload bit `c` is bit `7 - (c & 7)` of the byte at `PAYLOAD_BASE + (c >> 3)`; and the rule's worked example. -/
def Obligations.PayloadBitOrder : Prop :=
  (∀ s : State, s.payloadBase.toNat + (s.cursor >>> 3).toNat < s.inLen.toNat →
    payloadBit s = .ok (decide
      ((inByte s (s.payloadBase.toNat + (s.cursor >>> 3).toNat) >>> (7 - (s.cursor &&& 7#32).toNat)) &&& 1#8 = 1#8))) ∧
  (List.range 8).map (bitOfByte 0x4C#8) = [false, true, false, false, true, true, false, false]

/-! The Frequency Table Reader (41_frequency_table_reader.md). -/

/-- Rule R141, `FT.HDR`: its three errors, in their order, and its effect. The three header registers are latched before the
second and third. -/
def Obligations.FtHdrEffect : Prop :=
  ∀ s u : State, u = { s with hdrTotalLen := inWord s 0, hdrReserved := inWord s 4, symCount := inWord s 8 } →
    (s.inLen.toNat < 12 → exec .ftHdr s = .next (raise .hdrTrunc s)) ∧
    (12 ≤ s.inLen.toNat → s.inLen.toNat < 12 + 8 * u.symCount.toNat → exec .ftHdr s = .next (raise .entTrunc u)) ∧
    (12 + 8 * u.symCount.toNat ≤ s.inLen.toNat → s.cfg.maxSyms < u.symCount.toNat →
      exec .ftHdr s = .next (raise .syms u)) ∧
    (12 + 8 * u.symCount.toNat ≤ s.inLen.toNat → u.symCount.toNat ≤ s.cfg.maxSyms → u.symCount = 0 →
      exec .ftHdr s = .next { u with idx := 0, phase := .tbInit }) ∧
    (12 + 8 * u.symCount.toNat ≤ s.inLen.toNat → u.symCount.toNat ≤ s.cfg.maxSyms → u.symCount ≠ 0 →
      exec .ftHdr s = .next { u with idx := 0, phase := .ftEnt })

/-- Rule R142, `FT.ENT`: one entry is read, nothing else of the table changes. -/
def Obligations.FtEntEffect : Prop :=
  ∀ s : State, s.idx.toNat < s.symCount.toNat → s.idx.toNat < s.cfg.maxSyms → 12 + 8 * s.idx.toNat + 5 ≤ s.inLen.toNat →
    ∃ ft', exec .ftEnt s = .next { s with
        ft := ft', idx := s.idx + 1,
        phase := if s.idx.toNat + 1 = s.symCount.toNat then .tbInit else .ftEnt } ∧
      Updated s.ft ft' s.idx.toNat
        { count := inWord s (12 + 8 * s.idx.toNat), sym := inByte s (12 + 8 * s.idx.toNat + 4) }

/-! The Priority Queue (40_priority_queue.md). -/

/-- Rule R122, `PQ.SIZE`. The result lines are the model's own field (notes/assumptions/11.md). -/
def Obligations.PqSizeEffect : Prop :=
  ∀ s : State, exec .pqSize s = .next { s with pqAns := some s.hsize }

/-- Rule R123, `PQ.PUSH` of an existing node that is not in the heap, with room: the exact array it leaves. That every occupied
position holds an existing node is part of the invariant `Inv`. -/
def Obligations.PqPushEffect : Prop :=
  ∀ (s : State) (k : Nat), HeapFilled s → k < s.nnodes → (∃ n, Store.read s.node k = some n) →
    (∀ j, j < s.hsize → Store.read s.heap j ≠ some k) → s.hsize < s.cfg.maxSyms →
    ∃ h', exec (.pqPush k) s = .next { s with heap := h', hsize := s.hsize + 1, pqAns := none } ∧
      Pushed s.node s.heap s.hsize k h'

/-- Rule R124, `PQ.POP` of a heap that is not empty, under the decided sift-down policies (decisions D5, D6) and either byte
order: the node at the root, and the exact array it leaves. -/
def Obligations.PqPopEffect : Prop :=
  ∀ s : State, HeapFilled s → 1 ≤ s.hsize → s.cfg.tieChild = .left → s.cfg.siftStop = .strict →
    ∃ m h', exec .pqPop s = .next { s with heap := h', hsize := s.hsize - 1, pqAns := some m } ∧
      Store.read s.heap 0 = some m ∧ Popped s.node s.heap (s.hsize - 1) h'

/-- Rule R126, under every policy: push and pop keep the heap filled and ordered and its nodes distinct; push adds one node, pop
takes out one, of minimum frequency. -/
def Obligations.HeapInvariantKept : Prop :=
  ∀ s t : State, HeapFilled s → HeapOrdered s → (heapNodes s).Nodup →
    (∀ k, (∃ n, Store.read s.node k = some n) → exec (.pqPush k) s = .next t →
      HeapFilled t ∧ HeapOrdered t ∧ (heapNodes t).Nodup ∧ (heapNodes t).Perm (k :: heapNodes s)) ∧
    (exec .pqPop s = .next t → ∃ m, t.pqAns = some m ∧
      HeapFilled t ∧ HeapOrdered t ∧ (heapNodes t).Nodup ∧ (heapNodes s).Perm (m :: heapNodes t) ∧
      ∀ j, j < s.hsize → nodeFreq s.node m ≤ posFreq s j)

/-- Where a request stops (rules R125, R247): pop of an empty heap, push on a full one, and push of an operand that rule R123
excludes (notes/assumptions/12.md). -/
def Obligations.PqRequestsStop : Prop :=
  ∀ (s : State) (k : Nat),
    (s.hsize = 0 → exec .pqPop s = .fault .pqPopEmpty) ∧
    (s.nnodes ≤ k → exec (.pqPush k) s = .fault .pqPushOperand) ∧
    (∀ j, j < s.hsize → Store.read s.heap j = some k → exec (.pqPush k) s = .fault .pqPushOperand) ∧
    (k < s.nnodes → (∀ j, j < s.hsize → Store.read s.heap j ≠ some k) → s.cfg.maxSyms ≤ s.hsize →
      exec (.pqPush k) s = .fault .pqPushFull)

/-! The Huffman Tree Builder (42_tree_builder.md). -/

/-- Rule R161, `TB.INIT`. -/
def Obligations.TbInitEffect : Prop :=
  ∀ s : State,
    (s.symCount = 0 → exec .tbInit s = .next (raise .zeroSyms s)) ∧
    (s.symCount ≠ 0 → exec .tbInit s = .next { s with hsize := 0, nnodes := 0, idx := 0, phase := .tbLeaf })

/-- Rule R162, `TB.LEAF`: the leaf of entry `IDX` is created and pushed. -/
def Obligations.TbLeafEffect : Prop :=
  ∀ (s : State) (e : FtEntry), s.idx.toNat < s.symCount.toNat → s.symCount.toNat ≤ s.cfg.maxSyms →
    s.nnodes = s.idx.toNat → Store.read s.ft s.idx.toNat = some e → HeapFilled s → s.hsize < s.cfg.maxSyms →
    ∃ node' h', exec .tbLeaf s = .next { s with
        node := node', nnodes := s.idx.toNat + 1, heap := h', hsize := s.hsize + 1, idx := s.idx + 1,
        phase := if s.idx.toNat + 1 < s.symCount.toNat then .tbLeaf else if 1 ≤ s.hsize then .tbMerge else .tbRoot } ∧
      Updated s.node node' s.idx.toNat
        { leaf := true, freq := e.count.setWidth 64, sym := e.sym, left := none, right := none } ∧
      Pushed node' s.heap s.hsize s.idx.toNat h'

/-- Rule R163, `TB.MERGE`, under the decided sift-down policies and either byte order: first pop, second pop, then the push of
their parent, with the exact heap arrays between. -/
def Obligations.TbMergeEffect : Prop :=
  ∀ s : State, 2 ≤ s.hsize → HeapFilled s → s.hsize ≤ s.cfg.maxSyms → s.nnodes + 1 < 2 * s.cfg.maxSyms →
    s.cfg.tieChild = .left → s.cfg.siftStop = .strict →
    ∃ a b h1 h2 h3 node', exec .tbMerge s = .next { s with
        node := node', nnodes := s.nnodes + 1, heap := h3, hsize := s.hsize - 1,
        phase := if 2 < s.hsize then .tbMerge else .tbRoot } ∧
      Store.read s.heap 0 = some a ∧ Popped s.node s.heap (s.hsize - 1) h1 ∧
      Store.read h1 0 = some b ∧ Popped s.node h1 (s.hsize - 2) h2 ∧
      Updated s.node node' s.nnodes
        { leaf := false, freq := nodeFreq s.node a + nodeFreq s.node b, sym := 0, left := some a, right := some b } ∧
      Pushed node' h2 (s.hsize - 2) s.nnodes h3

/-- Rule R164, `TB.ROOT`. -/
def Obligations.TbRootEffect : Prop :=
  ∀ (s : State) (r : Nat), s.hsize = 1 → Store.read s.heap 0 = some r →
    exec .tbRoot s = .next { s with hsize := 0, root := some r, phase := .bsHdr }

/-! The Bit Stream Decoder (43_bit_stream_decoder.md). -/

/-- Rule R181, `BS.HDR`: its three errors, in their order, and its effect. The body registers and `PAYLOAD_BASE` are written
before the second and third. -/
def Obligations.BsHdrEffect : Prop :=
  ∀ (s u : State) (B : Nat), B = 12 + 8 * s.symCount.toNat →
    u = { s with
      packedBits := inWord s B, packedBytes := inWord s (B + 4), unpackedBytes := inWord s (B + 8),
      payloadBase := BitVec.ofNat 64 (B + 12) } →
    (s.inLen.toNat < B + 12 → exec .bsHdr s = .next (raise .bodyTrunc s)) ∧
    (B + 12 ≤ s.inLen.toNat → s.inLen.toNat < B + 12 + u.packedBytes.toNat →
      exec .bsHdr s = .next (raise .payloadTrunc u)) ∧
    (B + 12 + u.packedBytes.toNat ≤ s.inLen.toNat → 8 * u.packedBytes.toNat < u.packedBits.toNat →
      exec .bsHdr s = .next (raise .bitsExceed u)) ∧
    (∀ r n, B + 12 + u.packedBytes.toNat ≤ s.inLen.toNat → u.packedBits.toNat ≤ 8 * u.packedBytes.toNat →
      s.root = some r → r < s.nnodes → Store.read s.node r = some n →
      exec .bsHdr s = .next { u with
        cursor := 0, walk := s.root, idx := 0, phase := if n.leaf then .bsRun1 else .bsBit })

/-- Rules R182 and R184, `BS.BIT` with `WALK` at an internal node: the stop of step 1; else, with the child the bit selects, the
dead end of step 4, the full output and the emission of step 5, the end inside a code and the move of step 6. -/
def Obligations.BsBitEffect : Prop :=
  ∀ (s : State) (w : Nat) (nd : TreeNode), s.walk = some w → w < s.nnodes → Store.read s.node w = some nd →
    nd.leaf = false →
    (s.cursor = s.packedBits →
      exec .bsBit s = .next { s with phase := if s.validateEn then .vlInit else .haltDone }) ∧
    (s.cursor ≠ s.packedBits → s.payloadBase.toNat + s.cursor.toNat / 8 < s.inLen.toNat →
      ∀ nxt, nxt = (if bitOfByte (inByte s (s.payloadBase.toNat + s.cursor.toNat / 8)) s.cursor.toNat
          then nd.right else nd.left) →
        (nxt = none → exec .bsBit s = .next (raise .deadEnd { s with cursor := s.cursor + 1 })) ∧
        (∀ k c, nxt = some k → k < s.nnodes → Store.read s.node k = some c →
          (c.leaf = true → s.outLen.toNat = s.cfg.outCap →
            exec .bsBit s = .next (raise .out { s with cursor := s.cursor + 1, walk := some k })) ∧
          (c.leaf = true → s.outLen.toNat < s.cfg.outCap →
            ∃ out', exec .bsBit s = .next { s with
                cursor := s.cursor + 1, walk := s.root, outBuf := out', outLen := s.outLen + 1, phase := .bsBit } ∧
              Updated s.outBuf out' s.outLen.toNat c.sym) ∧
          (c.leaf = false → s.cursor + 1 = s.packedBits →
            exec .bsBit s = .next (raise .outOfBounds { s with cursor := s.cursor + 1, walk := some k })) ∧
          (c.leaf = false → s.cursor + 1 ≠ s.packedBits →
            exec .bsBit s = .next { s with cursor := s.cursor + 1, walk := some k, phase := .bsBit })))

/-- Rules R183 and R184, `BS.RUN1` with a leaf as root: the end after `count` symbols, the full output, the emission. -/
def Obligations.BsRun1Effect : Prop :=
  ∀ (s : State) (r : Nat) (nd : TreeNode) (e : FtEntry), s.root = some r → r < s.nnodes → Store.read s.node r = some nd →
    nd.leaf = true → 0 < s.symCount.toNat → Store.read s.ft 0 = some e →
    (s.idx = e.count → exec .bsRun1 s = .next { s with phase := if s.validateEn then .vlInit else .haltDone }) ∧
    (s.idx ≠ e.count → s.outLen.toNat = s.cfg.outCap → exec .bsRun1 s = .next (raise .out s)) ∧
    (s.idx ≠ e.count → s.outLen.toNat < s.cfg.outCap →
      ∃ out', exec .bsRun1 s = .next { s with
          outBuf := out', outLen := s.outLen + 1, idx := s.idx + 1, phase := .bsRun1 } ∧
        Updated s.outBuf out' s.outLen.toNat nd.sym)

/-! The Validator (44_validator.md). -/

/-- Rule R201, `VL.INIT`: all 256 tallies are 0. -/
def Obligations.VlInitEffect : Prop :=
  ∀ s : State, ∃ obs', exec .vlInit s = .next { s with
      obs := obs', idx := 0, phase := if s.outLen = 0 then .vlCmp else .vlTally } ∧
    ∀ x : Byte, Store.read obs' x.toNat = some 0

/-- Rule R202, `VL.TALLY`: the tally of one output byte's symbol goes up by one, no other changes. A tally of no more than the
bytes counted so far, as `Inv` has it, does not overflow. -/
def Obligations.VlTallyEffect : Prop :=
  ∀ (s : State) (x : Byte) (v : Word32), s.idx.toNat < s.outLen.toNat → Store.read s.outBuf s.idx.toNat = some x →
    Store.read s.obs x.toNat = some v →
    ∃ obs', Updated s.obs obs' x.toNat (v + 1) ∧ (v.toNat ≤ s.idx.toNat → (v + 1).toNat = v.toNat + 1) ∧
      (s.idx.toNat + 1 = s.outLen.toNat → exec .vlTally s = .next { s with obs := obs', idx := 0, phase := .vlCmp }) ∧
      (s.idx.toNat + 1 ≠ s.outLen.toNat →
        exec .vlTally s = .next { s with obs := obs', idx := s.idx + 1, phase := .vlTally })

/-- Rule R203, `VL.CMP`: the error with its context, or the next entry. -/
def Obligations.VlCmpEffect : Prop :=
  ∀ (s : State) (e : FtEntry) (v : Word32), s.idx.toNat < s.symCount.toNat → Store.read s.ft s.idx.toNat = some e →
    Store.read s.obs e.sym.toNat = some v →
    (v ≠ e.count → exec .vlCmp s = .next (raise (.countMismatch e.sym e.count v) s)) ∧
    (v = e.count → exec .vlCmp s = .next { s with
      idx := s.idx + 1, phase := if s.idx.toNat + 1 = s.symCount.toNat then .haltDone else .vlCmp })

/-! Errors (60_exceptions.md). -/

/-- Rule R252, the trap entry, with the codes of rules R241 and R242: what each error writes, and nothing else. -/
def Obligations.TrapEntryEffect : Prop :=
  ∀ s : State,
    raise .hdrTrunc s = { s with errCode := 1, errSub := 1, phase := .haltErr } ∧
    raise .entTrunc s = { s with errCode := 1, errSub := 2, phase := .haltErr } ∧
    raise .zeroSyms s = { s with errCode := 1, errSub := 3, phase := .haltErr } ∧
    raise .bodyTrunc s = { s with errCode := 1, errSub := 4, phase := .haltErr } ∧
    raise .payloadTrunc s = { s with errCode := 1, errSub := 5, phase := .haltErr } ∧
    raise .bitsExceed s = { s with errCode := 1, errSub := 6, phase := .haltErr } ∧
    raise .deadEnd s = { s with errCode := 2, errSub := 1, errCursor := s.cursor, phase := .haltErr } ∧
    raise .outOfBounds s = { s with errCode := 2, errSub := 2, errCursor := s.cursor, phase := .haltErr } ∧
    (∀ x d o, raise (.countMismatch x d o) s =
      { s with errCode := 3, errSub := 1, errSym := x, errDeclared := d, errObserved := o, phase := .haltErr }) ∧
    raise .syms s = { s with errCode := 4, errSub := 1, phase := .haltErr } ∧
    raise .out s = { s with errCode := 4, errSub := 2, phase := .haltErr }

/-- Where an operation entered with its stated precondition false stops (rule R247, U4). -/
def Obligations.FalsePreconditionsStop : Prop :=
  ∀ s : State,
    (s.symCount.toNat ≤ s.idx.toNat → exec .ftEnt s = .fault .ftEntPre ∧ exec .tbLeaf s = .fault .tbLeafPre ∧
      exec .vlCmp s = .fault .vlCmpPre) ∧
    (s.nnodes ≠ s.idx.toNat → exec .tbLeaf s = .fault .tbLeafPre) ∧
    (s.hsize < 2 → exec .tbMerge s = .fault .tbMergePre) ∧
    (s.hsize ≠ 1 → exec .tbRoot s = .fault .tbRootPre) ∧
    (∀ w n, s.walk = some w → w < s.nnodes → Store.read s.node w = some n → n.leaf = true →
      exec .bsBit s = .fault .bsBitPre) ∧
    (∀ r n, s.root = some r → r < s.nnodes → Store.read s.node r = some n → n.leaf = false →
      exec .bsRun1 s = .fault .bsRun1Pre) ∧
    (s.outLen.toNat ≤ s.idx.toNat → exec .vlTally s = .fault .vlTallyPre)

/-! What no operation does beyond its rule. -/

/-- The successor table, rule R222, for every operation and every state in which it answers; an operation that raises goes to
`HALT.ERR` instead. -/
def Obligations.SuccessorTable : Prop :=
  ∀ s t : State,
    (exec .ftHdr s = .next t → t.phase = .haltErr ∨ (t.symCount ≠ 0 ∧ t.phase = .ftEnt) ∨
      (t.symCount = 0 ∧ t.phase = .tbInit)) ∧
    (exec .ftEnt s = .next t → (t.idx.toNat < t.symCount.toNat ∧ t.phase = .ftEnt) ∨
      (t.idx = t.symCount ∧ t.phase = .tbInit)) ∧
    (exec .tbInit s = .next t → (t.symCount = 0 ∧ t.phase = .haltErr) ∨ (t.symCount ≠ 0 ∧ t.phase = .tbLeaf)) ∧
    (exec .tbLeaf s = .next t → (t.idx.toNat < t.symCount.toNat ∧ t.phase = .tbLeaf) ∨
      (t.idx = t.symCount ∧ 1 < t.hsize ∧ t.phase = .tbMerge) ∨ (t.idx = t.symCount ∧ t.hsize = 1 ∧ t.phase = .tbRoot)) ∧
    (exec .tbMerge s = .next t → (1 < t.hsize ∧ t.phase = .tbMerge) ∨ (t.hsize = 1 ∧ t.phase = .tbRoot)) ∧
    (exec .tbRoot s = .next t → t.phase = .bsHdr) ∧
    (exec .bsHdr s = .next t → t.phase = .haltErr ∨
      ∃ r n, t.root = some r ∧ Store.read t.node r = some n ∧
        ((n.leaf = false ∧ t.phase = .bsBit) ∨ (n.leaf = true ∧ t.phase = .bsRun1))) ∧
    (exec .bsBit s = .next t → (s.cursor ≠ s.packedBits ∧ (t.phase = .bsBit ∨ t.phase = .haltErr)) ∨
      (s.cursor = s.packedBits ∧ t.phase = if s.validateEn then .vlInit else .haltDone)) ∧
    (exec .bsRun1 s = .next t → ∃ e, Store.read s.ft 0 = some e ∧
      ((s.idx ≠ e.count ∧ (t.phase = .bsRun1 ∨ t.phase = .haltErr)) ∨
        (s.idx = e.count ∧ t.phase = if s.validateEn then .vlInit else .haltDone))) ∧
    (exec .vlInit s = .next t → (t.outLen ≠ 0 ∧ t.phase = .vlTally) ∨ (t.outLen = 0 ∧ t.phase = .vlCmp)) ∧
    (exec .vlTally s = .next t → (t.idx.toNat < t.outLen.toNat ∧ t.phase = .vlTally) ∨
      (s.idx.toNat + 1 = s.outLen.toNat ∧ t.idx = 0 ∧ t.phase = .vlCmp)) ∧
    (exec .vlCmp s = .next t → t.phase = .haltErr ∨ (t.idx.toNat < t.symCount.toNat ∧ t.phase = .vlCmp) ∨
      (t.idx = t.symCount ∧ t.phase = .haltDone))

/-- The bytes each operation stores (rules R64 to R66): `BS.BIT` and `BS.RUN1` store at most the byte of `OUT` at `OUT_LEN`, no
other operation stores a byte, and none stores to `IN`. -/
def Obligations.BytesStored : Prop :=
  ∀ (i : Instr) (s t : State), exec i s = .next t →
    (∀ a, Store.read t.inBuf a = Store.read s.inBuf a) ∧
    ((∀ validate, i ≠ .go validate) → ∀ a, inByte t a = inByte s a) ∧
    (i ≠ .bsBit → i ≠ .bsRun1 → ∀ a, Store.read t.outBuf a = Store.read s.outBuf a) ∧
    (i = .bsBit ∨ i = .bsRun1 → ∀ a, a ≠ s.outLen.toNat → Store.read t.outBuf a = Store.read s.outBuf a)

/-- Which operations write the register files (rules R34 to R38), and which elements: of `FT` that at `IDX`, of `NODE` that at
`NNODES`, of `HEAP` none above the position a push appends to and, where a pop comes first, none from the old last position
on, of `OBS` all (`VL.INIT`) or the one of the output byte counted (`VL.TALLY`). -/
def Obligations.FileWriters : Prop :=
  ∀ (i : Instr) (s t : State), exec i s = .next t →
    (i ≠ .ftEnt → t.ft = s.ft) ∧
    (∀ j, j ≠ s.idx.toNat → Store.read t.ft j = Store.read s.ft j) ∧
    (i ≠ .tbLeaf → i ≠ .tbMerge → t.node = s.node) ∧
    (∀ k, k ≠ s.nnodes → Store.read t.node k = Store.read s.node k) ∧
    (i ≠ .tbLeaf → i ≠ .tbMerge → i ≠ .tbRoot → (∀ k, i ≠ .pqPush k) → i ≠ .pqPop → t.heap = s.heap) ∧
    (∀ j, s.hsize < j → Store.read t.heap j = Store.read s.heap j) ∧
    (i = .tbMerge ∨ i = .tbRoot ∨ i = .pqPop → ∀ j, s.hsize ≤ j + 1 → Store.read t.heap j = Store.read s.heap j) ∧
    (i ≠ .vlInit → i ≠ .vlTally → t.obs = s.obs) ∧
    (i = .vlTally → ∀ a, (∀ x, Store.read s.outBuf s.idx.toNat = some x → a ≠ x.toNat) →
      Store.read t.obs a = Store.read s.obs a)

/-- Which operations write each register (rules R24 to R33): every other one leaves it as it is. `PHASE`, the error registers
and the buffers have statements of their own; the last lines are the model's own fields. -/
def Obligations.RegisterWriters : Prop :=
  ∀ (i : Instr) (s t : State), exec i s = .next t →
    ((∀ validate, i ≠ .go validate) → t.validateEn = s.validateEn ∧ t.epoch = s.epoch) ∧
    ((∀ validate, i ≠ .go validate) → i ≠ .ftHdr →
      t.hdrTotalLen = s.hdrTotalLen ∧ t.hdrReserved = s.hdrReserved ∧ t.symCount = s.symCount) ∧
    ((∀ validate, i ≠ .go validate) → i ≠ .bsHdr →
      t.packedBits = s.packedBits ∧ t.packedBytes = s.packedBytes ∧ t.unpackedBytes = s.unpackedBytes) ∧
    ((∀ validate, i ≠ .go validate) → i ≠ .bsBit → i ≠ .bsRun1 → t.outLen = s.outLen) ∧
    (i ≠ .bsHdr → t.payloadBase = s.payloadBase) ∧
    (i ≠ .bsHdr → i ≠ .bsBit → t.cursor = s.cursor ∧ t.walk = s.walk) ∧
    (i ≠ .tbRoot → t.root = s.root) ∧
    (i ≠ .tbInit → i ≠ .tbLeaf → i ≠ .tbMerge → t.nnodes = s.nnodes) ∧
    (i ≠ .tbInit → i ≠ .tbLeaf → i ≠ .tbMerge → i ≠ .tbRoot → (∀ k, i ≠ .pqPush k) → i ≠ .pqPop → t.hsize = s.hsize) ∧
    (i = .idle ∨ i = .tbMerge ∨ i = .tbRoot ∨ i = .bsBit ∨ i = .haltDone ∨ i = .haltErr ∨ i = .pqSize ∨ i = .pqPop ∨
      (∃ validate, i = .go validate) ∨ (∃ k, i = .pqPush k) → t.idx = s.idx) ∧
    (i = .pqSize ∨ i = .pqPop ∨ (∃ k, i = .pqPush k) → t.phase = s.phase) ∧
    ((∀ k, i ≠ .pqPush k) → i ≠ .pqSize → i ≠ .pqPop → t.pqAns = s.pqAns) ∧
    t.inLen = s.inLen ∧ t.cfg = s.cfg ∧ t.inputs = s.inputs ∧ t.reads = s.reads ∧ t.hostSaw = s.hostSaw ∧
    t.pqPort = s.pqPort

/-- Which operations write the error registers (rules R26, R47, R252): the trap entry, which ends in `HALT.ERR`, and `GO`; only a
`DecodeError` (code 2) writes `ERR_CURSOR`, and only a `ValidationError` (code 3) the other context registers. -/
def Obligations.ErrorRegisterWriters : Prop :=
  ∀ (i : Instr) (s t : State), exec i s = .next t → (∀ validate, i ≠ .go validate) →
    (i ≠ .ftHdr → i ≠ .tbInit → i ≠ .bsHdr → i ≠ .bsBit → i ≠ .bsRun1 → i ≠ .vlCmp →
      t.errCode = s.errCode ∧ t.errSub = s.errSub) ∧
    (t.errCode = s.errCode ∧ t.errSub = s.errSub ∨ t.phase = .haltErr) ∧
    (i ≠ .bsBit → t.errCursor = s.errCursor) ∧
    (t.errCursor = s.errCursor ∨ (t.phase = .haltErr ∧ t.errCode = 2)) ∧
    (i ≠ .vlCmp → t.errSym = s.errSym ∧ t.errDeclared = s.errDeclared ∧ t.errObserved = s.errObserved) ∧
    (t.errSym = s.errSym ∧ t.errDeclared = s.errDeclared ∧ t.errObserved = s.errObserved ∨
      (t.phase = .haltErr ∧ t.errCode = 3))

/-- Rule R42: no step of the machine changes a parameter or a policy. -/
def Obligations.ParametersFixed : Prop :=
  ∀ s t : State, step s = .next t → t.cfg = s.cfg

/-! Invariants. -/

/-- Every step keeps the canonical form of every file and buffer and the bounds of their indices (rules R34 to R40), in every
state that has them. The form is the model's representation. -/
def Obligations.StorageFormKept : Prop :=
  ∀ s t : State, StorageForm s → step s = .next t → StorageForm t

/-- The invariant holds right after reset, on a block with any parameters. -/
def Obligations.InvariantAtReset : Prop :=
  Inv State.reset ∧ ∀ c : Config, Inv (State.resetWith c)

/-- Every step, of the block or of the host, keeps the invariant: the heap and the tree under construction (rules R45, R126,
R165), the walk (rule R185), the tallies, the record of an error (rules R241 to R246). -/
def Obligations.InvariantKept : Prop :=
  ∀ s t : State, Inv s → step s = .next t → Inv t

/-- Rule R247 and U4, U5: in a state that meets the invariant no step is an internal fault, and the block's own step always
answers a next state, whether no input is waiting or the next one is a move of the block. -/
def Obligations.NoInternalFault : Prop :=
  ∀ s : State, Inv s → (∀ f, step s ≠ .fault f) ∧
    (s.inputs = [] → ∃ t, step s = .next t) ∧
    (∀ rest, s.inputs = .block :: rest → ∃ t, step s = .next t)

/-- Rule R255: errors do not nest, and `ERR_CODE` once non-zero is not overwritten until the next accepted `GO` or reset. -/
def Obligations.ErrorsDoNotNest : Prop :=
  ∀ s t : State, Inv s → s.errCode ≠ 0 → step s = .next t →
    (t.errCode = s.errCode ∧ t.errSub = s.errSub ∧ t.phase = .haltErr) ∨
    (∃ v rest, s.inputs = .host (.writeReg 0 v) :: rest ∧ v.getLsbD 0 = true) ∨
    (∃ rest, s.inputs = .host .reset :: rest)

/-! Runs. -/

/-- Rule R224: from an accepted `GO`, whatever the state before it, the block reaches a halt within the stated number of
operations, with no fault on the way. -/
def Obligations.EveryRunEnds : Prop :=
  ∀ (s : State) (validate : Bool), Alone s → runState s.phase ≠ .busy →
    ∃ k t, exec (.go validate) s = .next (startRun validate s) ∧ stepN k (startRun validate s) = some t ∧ Ended t ∧
      k ≤ operationBound t

/-- How a run can end, whatever the state before its `GO`: DONE with no error, a complete decode, and after validation the
declared counts (rules R183, R186, R204, R220); or ERROR with exactly the record its kind calls for (rules R241 to R246,
R250, R253), never a dead end (rule R185). -/
def Obligations.RunOutcome : Prop :=
  ∀ (s : State) (validate : Bool) (k : Nat) (t : State), Alone s → runState s.phase ≠ .busy →
    stepN k (startRun validate s) = some t →
    (t.phase = .haltDone → NoError t ∧ Decoded t ∧ (validate = true → Matches t t.symCount.toNat)) ∧
    (t.phase = .haltErr → ErrorRecord t) ∧
    ¬(t.errCode = 2 ∧ t.errSub = 1)

/-- Rule R165: when the builder hands over to the decoder, the tree is as the rule says, and the root's frequency is exactly
the sum of the counts (rule R12). -/
def Obligations.BuildGuarantees : Prop :=
  ∀ (s : State) (validate : Bool) (k : Nat) (t : State), Alone s → runState s.phase ≠ .busy →
    stepN k (startRun validate s) = some t → t.phase = .bsHdr →
    TreeBuilt t ∧ ∃ r, t.root = some r ∧ r + 2 = 2 * t.symCount.toNat ∧ (nodeFreq t.node r).toNat = countSum t t.symCount.toNat

/-- Rules R45, R97 and R107 on the built tree: every node is reached from the root by exactly one path; a path does not go on
past a leaf, so no code is a prefix of another; with two or more symbols a code has 1 to `SYM_COUNT - 1` bits. -/
def Obligations.TreeIsPrefixCode : Prop :=
  ∀ (s : State) (r : Nat), TreeBuilt s → s.root = some r →
    (∀ k, k < s.nnodes → ∃ p, followPath s r p = some k ∧ ∀ q, followPath s r q = some k → q = p) ∧
    (∀ p q k, k < s.symCount.toNat → followPath s r p = some k → followPath s r (p ++ q) ≠ none → q = []) ∧
    (∀ p k, 2 ≤ s.symCount.toNat → k < s.symCount.toNat → followPath s r p = some k →
      1 ≤ p.length ∧ p.length ≤ s.symCount.toNat - 1)

/-- What a DONE run of two or more symbols has decoded (rules R94, R97, R107, R186): its valid payload bits, all of them and no
other, are the codes of the output's symbols one after another. -/
def Obligations.OutputDecodesPayload : Prop :=
  ∀ (s : State) (validate : Bool) (k : Nat) (t : State), Alone s → runState s.phase ≠ .busy →
    stepN k (startRun validate s) = some t → t.phase = .haltDone → 2 ≤ t.symCount.toNat →
    ∃ (r : Nat) (codes : List (List Bool)), t.root = some r ∧ codes.flatten = payloadBits t ∧ codes.length = t.outLen.toNat ∧
      ∀ j code, codes[j]? = some code → CodeEmits t r code j

/-- What a DONE run of one symbol has emitted (rule R183): that symbol, its declared count of times, with no bit consumed. -/
def Obligations.SingleSymbolOutput : Prop :=
  ∀ (s : State) (validate : Bool) (k : Nat) (t : State), Alone s → runState s.phase ≠ .busy →
    stepN k (startRun validate s) = some t → t.phase = .haltDone → t.symCount = 1 →
    ∃ e, Store.read t.ft 0 = some e ∧ t.outLen = e.count ∧ t.cursor = 0 ∧
      ∀ j, j < t.outLen.toNat → Store.read t.outBuf j = some e.sym

/-- Rules R217 and R225: the result of a run and the wire-field registers depend only on the bytes of `IN` below `IN_LEN`,
`IN_LEN`, `VAL` and the parameters, whatever the two blocks did before. -/
def Obligations.HistoryIndependent : Prop :=
  ∀ (s t : State) (validate : Bool), Alone s → Alone t → runState s.phase ≠ .busy → runState t.phase ≠ .busy →
    s.cfg = t.cfg → s.inLen = t.inLen →
    (∀ a, a < s.inLen.toNat → inByte (startRun validate s) a = inByte (startRun validate t) a) →
    ∃ k s' t', stepN k (startRun validate s) = some s' ∧ stepN k (startRun validate t) = some t' ∧ Ended s' ∧ Ended t' ∧
      resultOf s' = resultOf t' ∧ s'.hdrTotalLen = t'.hdrTotalLen ∧ s'.hdrReserved = t'.hdrReserved ∧
      s'.unpackedBytes = t'.unpackedBytes

/-- Rule R101 and U10: the ignored header and body words, the padding of the entries, the payload bits from `PACKED_BITS` on and
the bytes after the payload do not change the result of a run. -/
def Obligations.IgnoredBytesDoNotMatter : Prop :=
  ∀ (s t : State) (validate : Bool), Alone s → Alone t → runState s.phase ≠ .busy → runState t.phase ≠ .busy →
    SameUsedImage (startRun validate s) (startRun validate t) →
    ∃ k s' t', stepN k (startRun validate s) = some s' ∧ stepN k (startRun validate t) = some t' ∧ Ended s' ∧ Ended t' ∧
      resultOf s' = resultOf t'

/-- Rule R205: validation never changes the output, and adds no outcome but a `ValidationError`. -/
def Obligations.ValidationLeavesOutput : Prop :=
  ∀ s : State, Alone s → runState s.phase ≠ .busy →
    ∃ k j u w, stepN k (startRun false s) = some u ∧ Ended u ∧ stepN j (startRun true s) = some w ∧ Ended w ∧
      outputOf w = outputOf u ∧ w.outLen = u.outLen ∧
      (u.phase = .haltErr → w.phase = .haltErr ∧ w.errCode = u.errCode ∧ w.errSub = u.errSub ∧ w.errCursor = u.errCursor) ∧
      (u.phase = .haltDone → w.phase = .haltDone ∨ (w.phase = .haltErr ∧ w.errCode = 3))

/-- Rule R187, where every table entry has its own symbol and there are two or more: two DONE runs over the same tree whose
outputs are equal decoded the same payload bits, so a changed bit never reproduces the output. -/
def Obligations.ChangedBitsChangeOutput : Prop :=
  ∀ (s t : State) (validate : Bool) (j k : Nat) (u w : State), Alone s → Alone t → runState s.phase ≠ .busy →
    runState t.phase ≠ .busy → stepN j (startRun validate s) = some u → stepN k (startRun validate t) = some w →
    u.phase = .haltDone → w.phase = .haltDone → 2 ≤ u.symCount.toNat → u.symCount = w.symCount → u.root = w.root →
    (∀ x, x < u.nnodes → Store.read u.node x = Store.read w.node x) →
    (∀ x y e f, x < u.symCount.toNat → y < u.symCount.toNat → Store.read u.ft x = some e → Store.read u.ft y = some f →
      e.sym = f.sym → x = y) →
    outputOf u = outputOf w → payloadBits u = payloadBits w
end

