-- ==== Sys2Proof/Laws/Store.lean ====
section
/-! SUPPORT. Laws of the indexed files and buffers: a read after a write, the canonical form every write keeps, and where a
written store's entries come from. -/

namespace Sys2Proof.Machine

variable {α : Type}

@[simp] theorem store_read_nil (a : Nat) : Store.read ([] : Store α) a = none := rfl

/-- A read after a write: the written value at its index, the old value elsewhere. -/
theorem store_read_write (m : Store α) (a b : Nat) (v : α) :
    Store.read (Store.write m a v) b = if b = a then some v else Store.read m b := by
  induction m with
  | nil => rfl
  | cons p rest ih =>
    obtain ⟨c, w⟩ := p
    simp only [Store.write]
    by_cases hac : a < c
    · simp [hac, Store.read]
    · by_cases hae : a = c
      · subst hae
        by_cases hb : b = a <;> simp [Store.read, hb]
      · by_cases hbc : b = c
        · subst hbc
          simp [hac, hae, Store.read, Ne.symm hae]
        · simp [hac, hae, Store.read, hbc, ih]

@[simp] theorem store_read_write_same (m : Store α) (a : Nat) (v : α) : Store.read (Store.write m a v) a = some v := by
  simp [store_read_write]

theorem store_read_write_other (m : Store α) {a b : Nat} (v : α) (h : b ≠ a) :
    Store.read (Store.write m a v) b = Store.read m b := by
  simp [store_read_write, h]

/-- Every index of a written store is the written one or was there before. -/
theorem store_mem_write {m : Store α} {a : Nat} {v : α} {p : Nat × α} (h : p ∈ Store.write m a v) :
    p.1 = a ∨ p ∈ m := by
  induction m with
  | nil => left; simp [Store.write] at h; simp [h]
  | cons q rest ih =>
    obtain ⟨c, w⟩ := q
    simp only [Store.write] at h
    split at h
    · rcases List.mem_cons.1 h with rfl | h
      · exact .inl rfl
      · exact .inr h
    · split at h
      · rcases List.mem_cons.1 h with rfl | h
        · exact .inl rfl
        · exact .inr (List.mem_cons_of_mem _ h)
      · rcases List.mem_cons.1 h with rfl | h
        · exact .inr List.mem_cons_self
        · exact (ih h).imp_right (List.mem_cons_of_mem _)

/-- What a read returns is listed. -/
theorem store_read_mem {m : Store α} {a : Nat} {v : α} (h : Store.read m a = some v) : (a, v) ∈ m := by
  induction m with
  | nil => simp at h
  | cons q rest ih =>
    obtain ⟨c, w⟩ := q
    simp only [Store.read] at h
    split at h
    · next e => subst e; injection h with h; subst h; exact List.mem_cons_self
    · exact List.mem_cons_of_mem _ (ih h)

/-- A write keeps the canonical form. -/
theorem store_wf_write {m : Store α} (h : Store.wf m) (a : Nat) (v : α) : Store.wf (Store.write m a v) := by
  induction m with
  | nil => simp [Store.wf, Store.write]
  | cons q rest ih =>
    obtain ⟨c, w⟩ := q
    simp only [Store.wf, List.map_cons, List.pairwise_cons] at h ih ⊢
    simp only [Store.write]
    split
    · next hac =>
      simp only [List.map_cons, List.pairwise_cons, List.mem_cons]
      refine ⟨?_, h⟩
      rintro x (rfl | hx)
      · exact hac
      · exact lt_trans hac (h.1 x hx)
    · split
      · next hae => subst hae; exact List.pairwise_cons.2 h
      · next hac hae =>
        simp only [List.map_cons, List.pairwise_cons]
        refine ⟨fun x hx => ?_, ih h.2⟩
        obtain ⟨p, hp, rfl⟩ := List.mem_map.1 hx
        rcases store_mem_write hp with e | hp
        · omega
        · exact h.1 _ (List.mem_map_of_mem hp)

/-- The empty store is canonical. -/
theorem store_wf_nil : Store.wf ([] : Store α) := List.Pairwise.nil

/-- Two canonical stores that read alike are the same data. -/
theorem store_ext {m n : Store α} (hm : Store.wf m) (hn : Store.wf n) (h : ∀ a, Store.read m a = Store.read n a) : m = n := by
  induction m generalizing n with
  | nil =>
    cases n with
    | nil => rfl
    | cons q _ => simpa [Store.read] using h q.1
  | cons p rest ih =>
    obtain ⟨a, v⟩ := p
    cases n with
    | nil => simpa [Store.read] using h a
    | cons q rest' =>
      obtain ⟨b, w⟩ := q
      simp only [Store.wf, List.map_cons, List.pairwise_cons] at hm hn
      have noneBelow : ∀ {l : Store α} {x : Nat}, (∀ y ∈ l.map Prod.fst, x < y) → Store.read l x = none := by
        intro l x hx
        cases hr : Store.read l x with
        | none => rfl
        | some u => exact absurd (hx x (List.mem_map.2 ⟨_, store_read_mem hr, rfl⟩)) (lt_irrefl x)
      have hab : a = b := by
        rcases lt_trichotomy a b with hlt | e | hlt
        · have := h a
          simp only [Store.read, if_true] at this
          rw [if_neg (by omega), noneBelow (fun y hy => lt_trans hlt (hn.1 y hy))] at this
          cases this
        · exact e
        · have := h b
          simp only [Store.read, if_true] at this
          rw [if_neg (by omega), noneBelow (fun y hy => lt_trans hlt (hm.1 y hy))] at this
          cases this
      subst hab
      have hvw : v = w := by simpa [Store.read] using h a
      subst hvw
      refine congrArg _ (ih hm.2 hn.2 fun x => ?_)
      by_cases hx : x = a
      · subst hx; rw [noneBelow hm.1, noneBelow hn.1]
      · simpa [Store.read, hx] using h x

end Sys2Proof.Machine
end

