-- ==== Sys2Proof/Laws/State.lean ====
section
/-! SUPPORT. One lemma per field per named update of State, each true by rfl: the trap entry (rule R252), the start of a run
(rule R216), the reset event (rule R281), a host read (rule R223), a write of one tally (rule R202), the ends of `FT.ENT`,
`TB.LEAF`, `TB.MERGE` and `VL.CMP`. -/

namespace Sys2Proof.Machine

variable (e : BlockError) (v : Bool) (s : State) (x : Word64)

/-! The trap entry. -/

@[simp] theorem raise_cfg : (raise e s).cfg = s.cfg := rfl
@[simp] theorem raise_phase : (raise e s).phase = .haltErr := rfl
@[simp] theorem raise_validateEn : (raise e s).validateEn = s.validateEn := rfl
@[simp] theorem raise_errCode : (raise e s).errCode = e.code := rfl
@[simp] theorem raise_errSub : (raise e s).errSub = e.sub := rfl
@[simp] theorem raise_inLen : (raise e s).inLen = s.inLen := rfl
@[simp] theorem raise_outLen : (raise e s).outLen = s.outLen := rfl
@[simp] theorem raise_hdrTotalLen : (raise e s).hdrTotalLen = s.hdrTotalLen := rfl
@[simp] theorem raise_hdrReserved : (raise e s).hdrReserved = s.hdrReserved := rfl
@[simp] theorem raise_symCount : (raise e s).symCount = s.symCount := rfl
@[simp] theorem raise_packedBits : (raise e s).packedBits = s.packedBits := rfl
@[simp] theorem raise_packedBytes : (raise e s).packedBytes = s.packedBytes := rfl
@[simp] theorem raise_unpackedBytes : (raise e s).unpackedBytes = s.unpackedBytes := rfl
@[simp] theorem raise_idx : (raise e s).idx = s.idx := rfl
@[simp] theorem raise_cursor : (raise e s).cursor = s.cursor := rfl
@[simp] theorem raise_walk : (raise e s).walk = s.walk := rfl
@[simp] theorem raise_root : (raise e s).root = s.root := rfl
@[simp] theorem raise_payloadBase : (raise e s).payloadBase = s.payloadBase := rfl
@[simp] theorem raise_hsize : (raise e s).hsize = s.hsize := rfl
@[simp] theorem raise_nnodes : (raise e s).nnodes = s.nnodes := rfl
@[simp] theorem raise_ft : (raise e s).ft = s.ft := rfl
@[simp] theorem raise_node : (raise e s).node = s.node := rfl
@[simp] theorem raise_heap : (raise e s).heap = s.heap := rfl
@[simp] theorem raise_obs : (raise e s).obs = s.obs := rfl
@[simp] theorem raise_inBuf : (raise e s).inBuf = s.inBuf := rfl
@[simp] theorem raise_outBuf : (raise e s).outBuf = s.outBuf := rfl
@[simp] theorem raise_inputs : (raise e s).inputs = s.inputs := rfl
@[simp] theorem raise_epoch : (raise e s).epoch = s.epoch := rfl
@[simp] theorem raise_reads : (raise e s).reads = s.reads := rfl
@[simp] theorem raise_hostSaw : (raise e s).hostSaw = s.hostSaw := rfl
@[simp] theorem raise_pqPort : (raise e s).pqPort = s.pqPort := rfl
@[simp] theorem raise_pqAns : (raise e s).pqAns = s.pqAns := rfl
@[simp] theorem raise_hdrTrunc_errCursor : (raise .hdrTrunc s).errCursor = s.errCursor := rfl
@[simp] theorem raise_hdrTrunc_errSym : (raise .hdrTrunc s).errSym = s.errSym := rfl
@[simp] theorem raise_hdrTrunc_errDeclared : (raise .hdrTrunc s).errDeclared = s.errDeclared := rfl
@[simp] theorem raise_hdrTrunc_errObserved : (raise .hdrTrunc s).errObserved = s.errObserved := rfl
@[simp] theorem raise_entTrunc_errCursor : (raise .entTrunc s).errCursor = s.errCursor := rfl
@[simp] theorem raise_entTrunc_errSym : (raise .entTrunc s).errSym = s.errSym := rfl
@[simp] theorem raise_entTrunc_errDeclared : (raise .entTrunc s).errDeclared = s.errDeclared := rfl
@[simp] theorem raise_entTrunc_errObserved : (raise .entTrunc s).errObserved = s.errObserved := rfl
@[simp] theorem raise_zeroSyms_errCursor : (raise .zeroSyms s).errCursor = s.errCursor := rfl
@[simp] theorem raise_zeroSyms_errSym : (raise .zeroSyms s).errSym = s.errSym := rfl
@[simp] theorem raise_zeroSyms_errDeclared : (raise .zeroSyms s).errDeclared = s.errDeclared := rfl
@[simp] theorem raise_zeroSyms_errObserved : (raise .zeroSyms s).errObserved = s.errObserved := rfl
@[simp] theorem raise_bodyTrunc_errCursor : (raise .bodyTrunc s).errCursor = s.errCursor := rfl
@[simp] theorem raise_bodyTrunc_errSym : (raise .bodyTrunc s).errSym = s.errSym := rfl
@[simp] theorem raise_bodyTrunc_errDeclared : (raise .bodyTrunc s).errDeclared = s.errDeclared := rfl
@[simp] theorem raise_bodyTrunc_errObserved : (raise .bodyTrunc s).errObserved = s.errObserved := rfl
@[simp] theorem raise_payloadTrunc_errCursor : (raise .payloadTrunc s).errCursor = s.errCursor := rfl
@[simp] theorem raise_payloadTrunc_errSym : (raise .payloadTrunc s).errSym = s.errSym := rfl
@[simp] theorem raise_payloadTrunc_errDeclared : (raise .payloadTrunc s).errDeclared = s.errDeclared := rfl
@[simp] theorem raise_payloadTrunc_errObserved : (raise .payloadTrunc s).errObserved = s.errObserved := rfl
@[simp] theorem raise_bitsExceed_errCursor : (raise .bitsExceed s).errCursor = s.errCursor := rfl
@[simp] theorem raise_bitsExceed_errSym : (raise .bitsExceed s).errSym = s.errSym := rfl
@[simp] theorem raise_bitsExceed_errDeclared : (raise .bitsExceed s).errDeclared = s.errDeclared := rfl
@[simp] theorem raise_bitsExceed_errObserved : (raise .bitsExceed s).errObserved = s.errObserved := rfl
@[simp] theorem raise_deadEnd_errCursor : (raise .deadEnd s).errCursor = s.cursor := rfl
@[simp] theorem raise_deadEnd_errSym : (raise .deadEnd s).errSym = s.errSym := rfl
@[simp] theorem raise_deadEnd_errDeclared : (raise .deadEnd s).errDeclared = s.errDeclared := rfl
@[simp] theorem raise_deadEnd_errObserved : (raise .deadEnd s).errObserved = s.errObserved := rfl
@[simp] theorem raise_outOfBounds_errCursor : (raise .outOfBounds s).errCursor = s.cursor := rfl
@[simp] theorem raise_outOfBounds_errSym : (raise .outOfBounds s).errSym = s.errSym := rfl
@[simp] theorem raise_outOfBounds_errDeclared : (raise .outOfBounds s).errDeclared = s.errDeclared := rfl
@[simp] theorem raise_outOfBounds_errObserved : (raise .outOfBounds s).errObserved = s.errObserved := rfl
@[simp] theorem raise_syms_errCursor : (raise .syms s).errCursor = s.errCursor := rfl
@[simp] theorem raise_syms_errSym : (raise .syms s).errSym = s.errSym := rfl
@[simp] theorem raise_syms_errDeclared : (raise .syms s).errDeclared = s.errDeclared := rfl
@[simp] theorem raise_syms_errObserved : (raise .syms s).errObserved = s.errObserved := rfl
@[simp] theorem raise_out_errCursor : (raise .out s).errCursor = s.errCursor := rfl
@[simp] theorem raise_out_errSym : (raise .out s).errSym = s.errSym := rfl
@[simp] theorem raise_out_errDeclared : (raise .out s).errDeclared = s.errDeclared := rfl
@[simp] theorem raise_out_errObserved : (raise .out s).errObserved = s.errObserved := rfl
@[simp] theorem raise_countMismatch_errCursor (b : Byte) (d o : Word32) :
    (raise (.countMismatch b d o) s).errCursor = s.errCursor := rfl
@[simp] theorem raise_countMismatch_errSym (b : Byte) (d o : Word32) : (raise (.countMismatch b d o) s).errSym = b := rfl
@[simp] theorem raise_countMismatch_errDeclared (b : Byte) (d o : Word32) : (raise (.countMismatch b d o) s).errDeclared = d := rfl
@[simp] theorem raise_countMismatch_errObserved (b : Byte) (d o : Word32) : (raise (.countMismatch b d o) s).errObserved = o := rfl

/-! The start of a run. -/

@[simp] theorem startRun_cfg : (startRun v s).cfg = s.cfg := rfl
@[simp] theorem startRun_phase : (startRun v s).phase = .ftHdr := rfl
@[simp] theorem startRun_validateEn : (startRun v s).validateEn = v := rfl
@[simp] theorem startRun_errCode : (startRun v s).errCode = 0 := rfl
@[simp] theorem startRun_errSub : (startRun v s).errSub = 0 := rfl
@[simp] theorem startRun_inLen : (startRun v s).inLen = s.inLen := rfl
@[simp] theorem startRun_outLen : (startRun v s).outLen = 0 := rfl
@[simp] theorem startRun_errSym : (startRun v s).errSym = 0 := rfl
@[simp] theorem startRun_errDeclared : (startRun v s).errDeclared = 0 := rfl
@[simp] theorem startRun_errObserved : (startRun v s).errObserved = 0 := rfl
@[simp] theorem startRun_errCursor : (startRun v s).errCursor = 0 := rfl
@[simp] theorem startRun_hdrTotalLen : (startRun v s).hdrTotalLen = 0 := rfl
@[simp] theorem startRun_hdrReserved : (startRun v s).hdrReserved = 0 := rfl
@[simp] theorem startRun_symCount : (startRun v s).symCount = 0 := rfl
@[simp] theorem startRun_packedBits : (startRun v s).packedBits = 0 := rfl
@[simp] theorem startRun_packedBytes : (startRun v s).packedBytes = 0 := rfl
@[simp] theorem startRun_unpackedBytes : (startRun v s).unpackedBytes = 0 := rfl
@[simp] theorem startRun_idx : (startRun v s).idx = s.idx := rfl
@[simp] theorem startRun_cursor : (startRun v s).cursor = s.cursor := rfl
@[simp] theorem startRun_walk : (startRun v s).walk = s.walk := rfl
@[simp] theorem startRun_root : (startRun v s).root = s.root := rfl
@[simp] theorem startRun_payloadBase : (startRun v s).payloadBase = s.payloadBase := rfl
@[simp] theorem startRun_hsize : (startRun v s).hsize = s.hsize := rfl
@[simp] theorem startRun_nnodes : (startRun v s).nnodes = s.nnodes := rfl
@[simp] theorem startRun_ft : (startRun v s).ft = s.ft := rfl
@[simp] theorem startRun_node : (startRun v s).node = s.node := rfl
@[simp] theorem startRun_heap : (startRun v s).heap = s.heap := rfl
@[simp] theorem startRun_obs : (startRun v s).obs = s.obs := rfl
@[simp] theorem startRun_inBuf : (startRun v s).inBuf = s.inBuf := rfl
@[simp] theorem startRun_outBuf : (startRun v s).outBuf = s.outBuf := rfl
@[simp] theorem startRun_inputs : (startRun v s).inputs = s.inputs := rfl
@[simp] theorem startRun_epoch : (startRun v s).epoch = s.epoch + 1 := rfl
@[simp] theorem startRun_reads : (startRun v s).reads = s.reads := rfl
@[simp] theorem startRun_hostSaw : (startRun v s).hostSaw = s.hostSaw := rfl
@[simp] theorem startRun_pqPort : (startRun v s).pqPort = s.pqPort := rfl
@[simp] theorem startRun_pqAns : (startRun v s).pqAns = s.pqAns := rfl

/-! The reset event. -/

@[simp] theorem resetEvent_cfg : (resetEvent s).cfg = s.cfg := rfl
@[simp] theorem resetEvent_phase : (resetEvent s).phase = .idle := rfl
@[simp] theorem resetEvent_validateEn : (resetEvent s).validateEn = false := rfl
@[simp] theorem resetEvent_errCode : (resetEvent s).errCode = 0 := rfl
@[simp] theorem resetEvent_errSub : (resetEvent s).errSub = 0 := rfl
@[simp] theorem resetEvent_inLen : (resetEvent s).inLen = 0 := rfl
@[simp] theorem resetEvent_outLen : (resetEvent s).outLen = 0 := rfl
@[simp] theorem resetEvent_errSym : (resetEvent s).errSym = 0 := rfl
@[simp] theorem resetEvent_errDeclared : (resetEvent s).errDeclared = 0 := rfl
@[simp] theorem resetEvent_errObserved : (resetEvent s).errObserved = 0 := rfl
@[simp] theorem resetEvent_errCursor : (resetEvent s).errCursor = 0 := rfl
@[simp] theorem resetEvent_hdrTotalLen : (resetEvent s).hdrTotalLen = 0 := rfl
@[simp] theorem resetEvent_hdrReserved : (resetEvent s).hdrReserved = 0 := rfl
@[simp] theorem resetEvent_symCount : (resetEvent s).symCount = 0 := rfl
@[simp] theorem resetEvent_packedBits : (resetEvent s).packedBits = 0 := rfl
@[simp] theorem resetEvent_packedBytes : (resetEvent s).packedBytes = 0 := rfl
@[simp] theorem resetEvent_unpackedBytes : (resetEvent s).unpackedBytes = 0 := rfl
@[simp] theorem resetEvent_idx : (resetEvent s).idx = 0 := rfl
@[simp] theorem resetEvent_cursor : (resetEvent s).cursor = 0 := rfl
@[simp] theorem resetEvent_walk : (resetEvent s).walk = none := rfl
@[simp] theorem resetEvent_root : (resetEvent s).root = none := rfl
@[simp] theorem resetEvent_payloadBase : (resetEvent s).payloadBase = 0 := rfl
@[simp] theorem resetEvent_hsize : (resetEvent s).hsize = 0 := rfl
@[simp] theorem resetEvent_nnodes : (resetEvent s).nnodes = 0 := rfl
@[simp] theorem resetEvent_ft : (resetEvent s).ft = [] := rfl
@[simp] theorem resetEvent_node : (resetEvent s).node = [] := rfl
@[simp] theorem resetEvent_heap : (resetEvent s).heap = [] := rfl
@[simp] theorem resetEvent_obs : (resetEvent s).obs = [] := rfl
@[simp] theorem resetEvent_inBuf : (resetEvent s).inBuf = [] := rfl
@[simp] theorem resetEvent_outBuf : (resetEvent s).outBuf = [] := rfl
@[simp] theorem resetEvent_inputs : (resetEvent s).inputs = s.inputs := rfl
@[simp] theorem resetEvent_epoch : (resetEvent s).epoch = s.epoch + 1 := rfl
@[simp] theorem resetEvent_reads : (resetEvent s).reads = s.reads := rfl
@[simp] theorem resetEvent_hostSaw : (resetEvent s).hostSaw = s.hostSaw := rfl
@[simp] theorem resetEvent_pqPort : (resetEvent s).pqPort = none := rfl
@[simp] theorem resetEvent_pqAns : (resetEvent s).pqAns = none := rfl

/-! A host read. -/

@[simp] theorem hostReturns_cfg : (hostReturns s x).cfg = s.cfg := rfl
@[simp] theorem hostReturns_phase : (hostReturns s x).phase = s.phase := rfl
@[simp] theorem hostReturns_validateEn : (hostReturns s x).validateEn = s.validateEn := rfl
@[simp] theorem hostReturns_errCode : (hostReturns s x).errCode = s.errCode := rfl
@[simp] theorem hostReturns_errSub : (hostReturns s x).errSub = s.errSub := rfl
@[simp] theorem hostReturns_inLen : (hostReturns s x).inLen = s.inLen := rfl
@[simp] theorem hostReturns_outLen : (hostReturns s x).outLen = s.outLen := rfl
@[simp] theorem hostReturns_errSym : (hostReturns s x).errSym = s.errSym := rfl
@[simp] theorem hostReturns_errDeclared : (hostReturns s x).errDeclared = s.errDeclared := rfl
@[simp] theorem hostReturns_errObserved : (hostReturns s x).errObserved = s.errObserved := rfl
@[simp] theorem hostReturns_errCursor : (hostReturns s x).errCursor = s.errCursor := rfl
@[simp] theorem hostReturns_hdrTotalLen : (hostReturns s x).hdrTotalLen = s.hdrTotalLen := rfl
@[simp] theorem hostReturns_hdrReserved : (hostReturns s x).hdrReserved = s.hdrReserved := rfl
@[simp] theorem hostReturns_symCount : (hostReturns s x).symCount = s.symCount := rfl
@[simp] theorem hostReturns_packedBits : (hostReturns s x).packedBits = s.packedBits := rfl
@[simp] theorem hostReturns_packedBytes : (hostReturns s x).packedBytes = s.packedBytes := rfl
@[simp] theorem hostReturns_unpackedBytes : (hostReturns s x).unpackedBytes = s.unpackedBytes := rfl
@[simp] theorem hostReturns_idx : (hostReturns s x).idx = s.idx := rfl
@[simp] theorem hostReturns_cursor : (hostReturns s x).cursor = s.cursor := rfl
@[simp] theorem hostReturns_walk : (hostReturns s x).walk = s.walk := rfl
@[simp] theorem hostReturns_root : (hostReturns s x).root = s.root := rfl
@[simp] theorem hostReturns_payloadBase : (hostReturns s x).payloadBase = s.payloadBase := rfl
@[simp] theorem hostReturns_hsize : (hostReturns s x).hsize = s.hsize := rfl
@[simp] theorem hostReturns_nnodes : (hostReturns s x).nnodes = s.nnodes := rfl
@[simp] theorem hostReturns_ft : (hostReturns s x).ft = s.ft := rfl
@[simp] theorem hostReturns_node : (hostReturns s x).node = s.node := rfl
@[simp] theorem hostReturns_heap : (hostReturns s x).heap = s.heap := rfl
@[simp] theorem hostReturns_obs : (hostReturns s x).obs = s.obs := rfl
@[simp] theorem hostReturns_inBuf : (hostReturns s x).inBuf = s.inBuf := rfl
@[simp] theorem hostReturns_outBuf : (hostReturns s x).outBuf = s.outBuf := rfl
@[simp] theorem hostReturns_inputs : (hostReturns s x).inputs = s.inputs := rfl
@[simp] theorem hostReturns_epoch : (hostReturns s x).epoch = s.epoch := rfl
@[simp] theorem hostReturns_reads : (hostReturns s x).reads = s.reads + 1 := rfl
@[simp] theorem hostReturns_hostSaw : (hostReturns s x).hostSaw = some x := rfl
@[simp] theorem hostReturns_pqPort : (hostReturns s x).pqPort = s.pqPort := rfl
@[simp] theorem hostReturns_pqAns : (hostReturns s x).pqAns = s.pqAns := rfl

variable (y : Byte) (c : Word32)

/-! A write of one tally. -/

@[simp] theorem writeObs_cfg : (writeObs s y c).cfg = s.cfg := rfl
@[simp] theorem writeObs_phase : (writeObs s y c).phase = s.phase := rfl
@[simp] theorem writeObs_validateEn : (writeObs s y c).validateEn = s.validateEn := rfl
@[simp] theorem writeObs_errCode : (writeObs s y c).errCode = s.errCode := rfl
@[simp] theorem writeObs_errSub : (writeObs s y c).errSub = s.errSub := rfl
@[simp] theorem writeObs_inLen : (writeObs s y c).inLen = s.inLen := rfl
@[simp] theorem writeObs_outLen : (writeObs s y c).outLen = s.outLen := rfl
@[simp] theorem writeObs_errSym : (writeObs s y c).errSym = s.errSym := rfl
@[simp] theorem writeObs_errDeclared : (writeObs s y c).errDeclared = s.errDeclared := rfl
@[simp] theorem writeObs_errObserved : (writeObs s y c).errObserved = s.errObserved := rfl
@[simp] theorem writeObs_errCursor : (writeObs s y c).errCursor = s.errCursor := rfl
@[simp] theorem writeObs_hdrTotalLen : (writeObs s y c).hdrTotalLen = s.hdrTotalLen := rfl
@[simp] theorem writeObs_hdrReserved : (writeObs s y c).hdrReserved = s.hdrReserved := rfl
@[simp] theorem writeObs_symCount : (writeObs s y c).symCount = s.symCount := rfl
@[simp] theorem writeObs_packedBits : (writeObs s y c).packedBits = s.packedBits := rfl
@[simp] theorem writeObs_packedBytes : (writeObs s y c).packedBytes = s.packedBytes := rfl
@[simp] theorem writeObs_unpackedBytes : (writeObs s y c).unpackedBytes = s.unpackedBytes := rfl
@[simp] theorem writeObs_idx : (writeObs s y c).idx = s.idx := rfl
@[simp] theorem writeObs_cursor : (writeObs s y c).cursor = s.cursor := rfl
@[simp] theorem writeObs_walk : (writeObs s y c).walk = s.walk := rfl
@[simp] theorem writeObs_root : (writeObs s y c).root = s.root := rfl
@[simp] theorem writeObs_payloadBase : (writeObs s y c).payloadBase = s.payloadBase := rfl
@[simp] theorem writeObs_hsize : (writeObs s y c).hsize = s.hsize := rfl
@[simp] theorem writeObs_nnodes : (writeObs s y c).nnodes = s.nnodes := rfl
@[simp] theorem writeObs_ft : (writeObs s y c).ft = s.ft := rfl
@[simp] theorem writeObs_node : (writeObs s y c).node = s.node := rfl
@[simp] theorem writeObs_heap : (writeObs s y c).heap = s.heap := rfl
@[simp] theorem writeObs_obs : (writeObs s y c).obs = Store.write s.obs y.toNat c := rfl
@[simp] theorem writeObs_inBuf : (writeObs s y c).inBuf = s.inBuf := rfl
@[simp] theorem writeObs_outBuf : (writeObs s y c).outBuf = s.outBuf := rfl
@[simp] theorem writeObs_inputs : (writeObs s y c).inputs = s.inputs := rfl
@[simp] theorem writeObs_epoch : (writeObs s y c).epoch = s.epoch := rfl
@[simp] theorem writeObs_reads : (writeObs s y c).reads = s.reads := rfl
@[simp] theorem writeObs_hostSaw : (writeObs s y c).hostSaw = s.hostSaw := rfl
@[simp] theorem writeObs_pqPort : (writeObs s y c).pqPort = s.pqPort := rfl
@[simp] theorem writeObs_pqAns : (writeObs s y c).pqAns = s.pqAns := rfl

/-! The end of `FT.ENT`. -/

@[simp] theorem ftEntNext_cfg : (ftEntNext s).cfg = s.cfg := rfl
@[simp] theorem ftEntNext_phase : (ftEntNext s).phase = if s.idx + 1 = s.symCount then .tbInit else .ftEnt := rfl
@[simp] theorem ftEntNext_validateEn : (ftEntNext s).validateEn = s.validateEn := rfl
@[simp] theorem ftEntNext_errCode : (ftEntNext s).errCode = s.errCode := rfl
@[simp] theorem ftEntNext_errSub : (ftEntNext s).errSub = s.errSub := rfl
@[simp] theorem ftEntNext_inLen : (ftEntNext s).inLen = s.inLen := rfl
@[simp] theorem ftEntNext_outLen : (ftEntNext s).outLen = s.outLen := rfl
@[simp] theorem ftEntNext_errSym : (ftEntNext s).errSym = s.errSym := rfl
@[simp] theorem ftEntNext_errDeclared : (ftEntNext s).errDeclared = s.errDeclared := rfl
@[simp] theorem ftEntNext_errObserved : (ftEntNext s).errObserved = s.errObserved := rfl
@[simp] theorem ftEntNext_errCursor : (ftEntNext s).errCursor = s.errCursor := rfl
@[simp] theorem ftEntNext_hdrTotalLen : (ftEntNext s).hdrTotalLen = s.hdrTotalLen := rfl
@[simp] theorem ftEntNext_hdrReserved : (ftEntNext s).hdrReserved = s.hdrReserved := rfl
@[simp] theorem ftEntNext_symCount : (ftEntNext s).symCount = s.symCount := rfl
@[simp] theorem ftEntNext_packedBits : (ftEntNext s).packedBits = s.packedBits := rfl
@[simp] theorem ftEntNext_packedBytes : (ftEntNext s).packedBytes = s.packedBytes := rfl
@[simp] theorem ftEntNext_unpackedBytes : (ftEntNext s).unpackedBytes = s.unpackedBytes := rfl
@[simp] theorem ftEntNext_idx : (ftEntNext s).idx = s.idx + 1 := rfl
@[simp] theorem ftEntNext_cursor : (ftEntNext s).cursor = s.cursor := rfl
@[simp] theorem ftEntNext_walk : (ftEntNext s).walk = s.walk := rfl
@[simp] theorem ftEntNext_root : (ftEntNext s).root = s.root := rfl
@[simp] theorem ftEntNext_payloadBase : (ftEntNext s).payloadBase = s.payloadBase := rfl
@[simp] theorem ftEntNext_hsize : (ftEntNext s).hsize = s.hsize := rfl
@[simp] theorem ftEntNext_nnodes : (ftEntNext s).nnodes = s.nnodes := rfl
@[simp] theorem ftEntNext_ft : (ftEntNext s).ft = s.ft := rfl
@[simp] theorem ftEntNext_node : (ftEntNext s).node = s.node := rfl
@[simp] theorem ftEntNext_heap : (ftEntNext s).heap = s.heap := rfl
@[simp] theorem ftEntNext_obs : (ftEntNext s).obs = s.obs := rfl
@[simp] theorem ftEntNext_inBuf : (ftEntNext s).inBuf = s.inBuf := rfl
@[simp] theorem ftEntNext_outBuf : (ftEntNext s).outBuf = s.outBuf := rfl
@[simp] theorem ftEntNext_inputs : (ftEntNext s).inputs = s.inputs := rfl
@[simp] theorem ftEntNext_epoch : (ftEntNext s).epoch = s.epoch := rfl
@[simp] theorem ftEntNext_reads : (ftEntNext s).reads = s.reads := rfl
@[simp] theorem ftEntNext_hostSaw : (ftEntNext s).hostSaw = s.hostSaw := rfl
@[simp] theorem ftEntNext_pqPort : (ftEntNext s).pqPort = s.pqPort := rfl
@[simp] theorem ftEntNext_pqAns : (ftEntNext s).pqAns = s.pqAns := rfl

/-! The end of `TB.LEAF`. -/

@[simp] theorem tbLeafNext_cfg : (tbLeafNext s).cfg = s.cfg := rfl
@[simp] theorem tbLeafNext_phase : (tbLeafNext s).phase =
    if s.idx + 1 < s.symCount then .tbLeaf else if 1 < s.hsize then .tbMerge else .tbRoot := rfl
@[simp] theorem tbLeafNext_validateEn : (tbLeafNext s).validateEn = s.validateEn := rfl
@[simp] theorem tbLeafNext_errCode : (tbLeafNext s).errCode = s.errCode := rfl
@[simp] theorem tbLeafNext_errSub : (tbLeafNext s).errSub = s.errSub := rfl
@[simp] theorem tbLeafNext_inLen : (tbLeafNext s).inLen = s.inLen := rfl
@[simp] theorem tbLeafNext_outLen : (tbLeafNext s).outLen = s.outLen := rfl
@[simp] theorem tbLeafNext_errSym : (tbLeafNext s).errSym = s.errSym := rfl
@[simp] theorem tbLeafNext_errDeclared : (tbLeafNext s).errDeclared = s.errDeclared := rfl
@[simp] theorem tbLeafNext_errObserved : (tbLeafNext s).errObserved = s.errObserved := rfl
@[simp] theorem tbLeafNext_errCursor : (tbLeafNext s).errCursor = s.errCursor := rfl
@[simp] theorem tbLeafNext_hdrTotalLen : (tbLeafNext s).hdrTotalLen = s.hdrTotalLen := rfl
@[simp] theorem tbLeafNext_hdrReserved : (tbLeafNext s).hdrReserved = s.hdrReserved := rfl
@[simp] theorem tbLeafNext_symCount : (tbLeafNext s).symCount = s.symCount := rfl
@[simp] theorem tbLeafNext_packedBits : (tbLeafNext s).packedBits = s.packedBits := rfl
@[simp] theorem tbLeafNext_packedBytes : (tbLeafNext s).packedBytes = s.packedBytes := rfl
@[simp] theorem tbLeafNext_unpackedBytes : (tbLeafNext s).unpackedBytes = s.unpackedBytes := rfl
@[simp] theorem tbLeafNext_idx : (tbLeafNext s).idx = s.idx + 1 := rfl
@[simp] theorem tbLeafNext_cursor : (tbLeafNext s).cursor = s.cursor := rfl
@[simp] theorem tbLeafNext_walk : (tbLeafNext s).walk = s.walk := rfl
@[simp] theorem tbLeafNext_root : (tbLeafNext s).root = s.root := rfl
@[simp] theorem tbLeafNext_payloadBase : (tbLeafNext s).payloadBase = s.payloadBase := rfl
@[simp] theorem tbLeafNext_hsize : (tbLeafNext s).hsize = s.hsize := rfl
@[simp] theorem tbLeafNext_nnodes : (tbLeafNext s).nnodes = s.nnodes := rfl
@[simp] theorem tbLeafNext_ft : (tbLeafNext s).ft = s.ft := rfl
@[simp] theorem tbLeafNext_node : (tbLeafNext s).node = s.node := rfl
@[simp] theorem tbLeafNext_heap : (tbLeafNext s).heap = s.heap := rfl
@[simp] theorem tbLeafNext_obs : (tbLeafNext s).obs = s.obs := rfl
@[simp] theorem tbLeafNext_inBuf : (tbLeafNext s).inBuf = s.inBuf := rfl
@[simp] theorem tbLeafNext_outBuf : (tbLeafNext s).outBuf = s.outBuf := rfl
@[simp] theorem tbLeafNext_inputs : (tbLeafNext s).inputs = s.inputs := rfl
@[simp] theorem tbLeafNext_epoch : (tbLeafNext s).epoch = s.epoch := rfl
@[simp] theorem tbLeafNext_reads : (tbLeafNext s).reads = s.reads := rfl
@[simp] theorem tbLeafNext_hostSaw : (tbLeafNext s).hostSaw = s.hostSaw := rfl
@[simp] theorem tbLeafNext_pqPort : (tbLeafNext s).pqPort = s.pqPort := rfl
@[simp] theorem tbLeafNext_pqAns : (tbLeafNext s).pqAns = s.pqAns := rfl

/-! The end of `TB.MERGE`. -/

@[simp] theorem tbMergeNext_cfg : (tbMergeNext s).cfg = s.cfg := rfl
@[simp] theorem tbMergeNext_phase : (tbMergeNext s).phase = if 1 < s.hsize then .tbMerge else .tbRoot := rfl
@[simp] theorem tbMergeNext_validateEn : (tbMergeNext s).validateEn = s.validateEn := rfl
@[simp] theorem tbMergeNext_errCode : (tbMergeNext s).errCode = s.errCode := rfl
@[simp] theorem tbMergeNext_errSub : (tbMergeNext s).errSub = s.errSub := rfl
@[simp] theorem tbMergeNext_inLen : (tbMergeNext s).inLen = s.inLen := rfl
@[simp] theorem tbMergeNext_outLen : (tbMergeNext s).outLen = s.outLen := rfl
@[simp] theorem tbMergeNext_errSym : (tbMergeNext s).errSym = s.errSym := rfl
@[simp] theorem tbMergeNext_errDeclared : (tbMergeNext s).errDeclared = s.errDeclared := rfl
@[simp] theorem tbMergeNext_errObserved : (tbMergeNext s).errObserved = s.errObserved := rfl
@[simp] theorem tbMergeNext_errCursor : (tbMergeNext s).errCursor = s.errCursor := rfl
@[simp] theorem tbMergeNext_hdrTotalLen : (tbMergeNext s).hdrTotalLen = s.hdrTotalLen := rfl
@[simp] theorem tbMergeNext_hdrReserved : (tbMergeNext s).hdrReserved = s.hdrReserved := rfl
@[simp] theorem tbMergeNext_symCount : (tbMergeNext s).symCount = s.symCount := rfl
@[simp] theorem tbMergeNext_packedBits : (tbMergeNext s).packedBits = s.packedBits := rfl
@[simp] theorem tbMergeNext_packedBytes : (tbMergeNext s).packedBytes = s.packedBytes := rfl
@[simp] theorem tbMergeNext_unpackedBytes : (tbMergeNext s).unpackedBytes = s.unpackedBytes := rfl
@[simp] theorem tbMergeNext_idx : (tbMergeNext s).idx = s.idx := rfl
@[simp] theorem tbMergeNext_cursor : (tbMergeNext s).cursor = s.cursor := rfl
@[simp] theorem tbMergeNext_walk : (tbMergeNext s).walk = s.walk := rfl
@[simp] theorem tbMergeNext_root : (tbMergeNext s).root = s.root := rfl
@[simp] theorem tbMergeNext_payloadBase : (tbMergeNext s).payloadBase = s.payloadBase := rfl
@[simp] theorem tbMergeNext_hsize : (tbMergeNext s).hsize = s.hsize := rfl
@[simp] theorem tbMergeNext_nnodes : (tbMergeNext s).nnodes = s.nnodes := rfl
@[simp] theorem tbMergeNext_ft : (tbMergeNext s).ft = s.ft := rfl
@[simp] theorem tbMergeNext_node : (tbMergeNext s).node = s.node := rfl
@[simp] theorem tbMergeNext_heap : (tbMergeNext s).heap = s.heap := rfl
@[simp] theorem tbMergeNext_obs : (tbMergeNext s).obs = s.obs := rfl
@[simp] theorem tbMergeNext_inBuf : (tbMergeNext s).inBuf = s.inBuf := rfl
@[simp] theorem tbMergeNext_outBuf : (tbMergeNext s).outBuf = s.outBuf := rfl
@[simp] theorem tbMergeNext_inputs : (tbMergeNext s).inputs = s.inputs := rfl
@[simp] theorem tbMergeNext_epoch : (tbMergeNext s).epoch = s.epoch := rfl
@[simp] theorem tbMergeNext_reads : (tbMergeNext s).reads = s.reads := rfl
@[simp] theorem tbMergeNext_hostSaw : (tbMergeNext s).hostSaw = s.hostSaw := rfl
@[simp] theorem tbMergeNext_pqPort : (tbMergeNext s).pqPort = s.pqPort := rfl
@[simp] theorem tbMergeNext_pqAns : (tbMergeNext s).pqAns = s.pqAns := rfl

/-! The end of `VL.CMP`. -/

@[simp] theorem vlCmpNext_cfg : (vlCmpNext s).cfg = s.cfg := rfl
@[simp] theorem vlCmpNext_phase : (vlCmpNext s).phase = if s.idx + 1 = s.symCount then .haltDone else .vlCmp := rfl
@[simp] theorem vlCmpNext_validateEn : (vlCmpNext s).validateEn = s.validateEn := rfl
@[simp] theorem vlCmpNext_errCode : (vlCmpNext s).errCode = s.errCode := rfl
@[simp] theorem vlCmpNext_errSub : (vlCmpNext s).errSub = s.errSub := rfl
@[simp] theorem vlCmpNext_inLen : (vlCmpNext s).inLen = s.inLen := rfl
@[simp] theorem vlCmpNext_outLen : (vlCmpNext s).outLen = s.outLen := rfl
@[simp] theorem vlCmpNext_errSym : (vlCmpNext s).errSym = s.errSym := rfl
@[simp] theorem vlCmpNext_errDeclared : (vlCmpNext s).errDeclared = s.errDeclared := rfl
@[simp] theorem vlCmpNext_errObserved : (vlCmpNext s).errObserved = s.errObserved := rfl
@[simp] theorem vlCmpNext_errCursor : (vlCmpNext s).errCursor = s.errCursor := rfl
@[simp] theorem vlCmpNext_hdrTotalLen : (vlCmpNext s).hdrTotalLen = s.hdrTotalLen := rfl
@[simp] theorem vlCmpNext_hdrReserved : (vlCmpNext s).hdrReserved = s.hdrReserved := rfl
@[simp] theorem vlCmpNext_symCount : (vlCmpNext s).symCount = s.symCount := rfl
@[simp] theorem vlCmpNext_packedBits : (vlCmpNext s).packedBits = s.packedBits := rfl
@[simp] theorem vlCmpNext_packedBytes : (vlCmpNext s).packedBytes = s.packedBytes := rfl
@[simp] theorem vlCmpNext_unpackedBytes : (vlCmpNext s).unpackedBytes = s.unpackedBytes := rfl
@[simp] theorem vlCmpNext_idx : (vlCmpNext s).idx = s.idx + 1 := rfl
@[simp] theorem vlCmpNext_cursor : (vlCmpNext s).cursor = s.cursor := rfl
@[simp] theorem vlCmpNext_walk : (vlCmpNext s).walk = s.walk := rfl
@[simp] theorem vlCmpNext_root : (vlCmpNext s).root = s.root := rfl
@[simp] theorem vlCmpNext_payloadBase : (vlCmpNext s).payloadBase = s.payloadBase := rfl
@[simp] theorem vlCmpNext_hsize : (vlCmpNext s).hsize = s.hsize := rfl
@[simp] theorem vlCmpNext_nnodes : (vlCmpNext s).nnodes = s.nnodes := rfl
@[simp] theorem vlCmpNext_ft : (vlCmpNext s).ft = s.ft := rfl
@[simp] theorem vlCmpNext_node : (vlCmpNext s).node = s.node := rfl
@[simp] theorem vlCmpNext_heap : (vlCmpNext s).heap = s.heap := rfl
@[simp] theorem vlCmpNext_obs : (vlCmpNext s).obs = s.obs := rfl
@[simp] theorem vlCmpNext_inBuf : (vlCmpNext s).inBuf = s.inBuf := rfl
@[simp] theorem vlCmpNext_outBuf : (vlCmpNext s).outBuf = s.outBuf := rfl
@[simp] theorem vlCmpNext_inputs : (vlCmpNext s).inputs = s.inputs := rfl
@[simp] theorem vlCmpNext_epoch : (vlCmpNext s).epoch = s.epoch := rfl
@[simp] theorem vlCmpNext_reads : (vlCmpNext s).reads = s.reads := rfl
@[simp] theorem vlCmpNext_hostSaw : (vlCmpNext s).hostSaw = s.hostSaw := rfl
@[simp] theorem vlCmpNext_pqPort : (vlCmpNext s).pqPort = s.pqPort := rfl
@[simp] theorem vlCmpNext_pqAns : (vlCmpNext s).pqAns = s.pqAns := rfl

end Sys2Proof.Machine
end

