-- ==== Sys2Proof/Laws/Ops.lean ====
section
/-! SUPPORT. For each shared operation, one lemma that says all it can do when it answers, and the small lemmas of reading. -/

namespace Sys2Proof.Machine

theorem finish_next {r : Except Fault State} {t : State} : finish r = .next t ↔ r = .ok t := by
  cases r <;> simp [finish]

@[simp] theorem finish_ok (t : State) : finish (.ok t) = .next t := rfl
@[simp] theorem finish_error (f : Fault) : finish (.error f) = .fault f := rfl

/-- An operation that answers through `finish` is never refused. -/
theorem finish_not_refused (r : Except Fault State) (why : Refusal) : finish r ≠ .refused why := by
  cases r <;> simp [finish]

@[simp] theorem except_ok_bind {α β : Type} (a : α) (f : α → Except Fault β) : (Except.ok a >>= f) = f a := rfl
@[simp] theorem except_error_bind {α β : Type} (e : Fault) (f : α → Except Fault β) :
    (Except.error e >>= f) = .error e := rfl

/-- A sequence answers exactly when its first part answers and the rest answers from there. -/
theorem except_bind_ok {α β : Type} {x : Except Fault α} {f : α → Except Fault β} {b : β} :
    (x >>= f) = .ok b ↔ ∃ a, x = .ok a ∧ f a = .ok b := by
  cases x <;> simp

theorem readFt_ok {s : State} {i : Nat} {e : FtEntry} :
    readFt s i = .ok e ↔ i < s.symCount.toNat ∧ Store.read s.ft i = some e := by
  unfold readFt
  by_cases h : i < s.symCount.toNat <;> simp [h]
  cases Store.read s.ft i <;> simp

theorem readNode_ok {s : State} {k : Nat} {n : TreeNode} :
    readNode s k = .ok n ↔ k < s.nnodes ∧ Store.read s.node k = some n := by
  unfold readNode
  by_cases h : k < s.nnodes <;> simp [h]
  cases Store.read s.node k <;> simp

theorem readNodeRef_ok {s : State} {r : NodeRef} {n : TreeNode} :
    readNodeRef s r = .ok n ↔ ∃ k, r = some k ∧ k < s.nnodes ∧ Store.read s.node k = some n := by
  cases r <;> simp [readNodeRef, readNode_ok]

theorem readOut_ok {s : State} {a : Nat} {b : Byte} :
    readOut s a = .ok b ↔ a < s.outLen.toNat ∧ Store.read s.outBuf a = some b := by
  unfold readOut
  by_cases h : a < s.outLen.toNat <;> simp [h]
  cases Store.read s.outBuf a <;> simp

theorem readObs_ok {s : State} {x : Byte} {v : Word32} : readObs s x = .ok v ↔ Store.read s.obs x.toNat = some v := by
  unfold readObs
  cases Store.read s.obs x.toNat <;> simp

theorem writeFt_ok {s t : State} {i : Nat} {e : FtEntry} :
    writeFt s i e = .ok t ↔ i < s.cfg.maxSyms ∧ t = { s with ft := Store.write s.ft i e } := by
  unfold writeFt
  split <;> simp_all [eq_comm]

theorem writeNode_ok {s t : State} {k : Nat} {n : TreeNode} :
    writeNode s k n = .ok t ↔ k < 2 * s.cfg.maxSyms - 1 ∧ t = { s with node := Store.write s.node k n } := by
  unfold writeNode
  split
  · simp_all [eq_comm]
  · simp; omega

theorem writeOut_ok {s t : State} {a : Nat} {b : Byte} :
    writeOut s a b = .ok t ↔ a < s.cfg.outCap ∧ t = { s with outBuf := Store.write s.outBuf a b } := by
  unfold writeOut
  split <;> simp_all [eq_comm]

theorem memRead1_ok {s : State} {a : Nat} {b : Byte} :
    memRead1 s a = .ok b ↔ a + 1 ≤ s.inLen.toNat ∧ b = inByte s a := by
  unfold memRead1
  split <;> simp_all [eq_comm]

theorem memRead4_ok {s : State} {a : Nat} {w : Word32} :
    memRead4 s a = .ok w ↔ a + 4 ≤ s.inLen.toNat ∧ w = inWord s a := by
  unfold memRead4
  split <;> simp_all [eq_comm]

/-- A 1-byte read inside `IN_LEN` answers the byte. -/
theorem memRead1_eq {s : State} {a : Nat} (h : a + 1 ≤ s.inLen.toNat) : memRead1 s a = .ok (inByte s a) := by
  simp [memRead1, h]

/-- A 4-byte read inside `IN_LEN` answers the word. -/
theorem memRead4_eq {s : State} {a : Nat} (h : a + 4 ≤ s.inLen.toNat) : memRead4 s a = .ok (inWord s a) := by
  simp [memRead4, h]

/-- A byte of `IN` depends only on the parameters, what is placed, and the epoch. -/
theorem inByte_congr {s t : State} (hc : t.cfg = s.cfg) (hb : t.inBuf = s.inBuf) (he : t.epoch = s.epoch) :
    inByte t = inByte s := by
  funext a
  unfold inByte
  rw [hc, hb, he]

/-- `Emit` answers in one of two ways: the trap entry of `CapacityError(OUT)` when the output is full, or the byte stands at
`OUT[OUT_LEN]`, `OUT_LEN` is one more, and the operation goes on (rule R184). -/
theorem emitThen_ok {x : Byte} {s t : State} {k : State → State} :
    emitThen x s k = .ok t ↔
      (s.outLen.toNat = s.cfg.outCap ∧ t = raise .out s) ∨
      (s.outLen.toNat < s.cfg.outCap ∧
        t = k { s with outBuf := Store.write s.outBuf s.outLen.toNat x, outLen := s.outLen + 1 }) := by
  unfold emitThen
  by_cases h : s.outLen.toNat = s.cfg.outCap
  · simp [h, eq_comm]
  · simp only [h, if_false, except_bind_ok, writeOut_ok]
    constructor
    · rintro ⟨a, ⟨hlt, rfl⟩, ht⟩
      right
      exact ⟨hlt, (Except.ok.inj ht).symm⟩
    · rintro (⟨hf, -⟩ | ⟨hlt, rfl⟩)
      · exact hf.elim
      · exact ⟨_, ⟨hlt, rfl⟩, rfl⟩

end Sys2Proof.Machine
end

