-- ==== Sys2Proof/Laws/Heap.lean ====
section
/-! SUPPORT. The Priority Queue's sub-operations, each said once: they answer on a filled heap, keep the nodes in the heap (plus
the pushed one, less the popped one), and keep the heap order (rules R123, R124, R126). -/

namespace Sys2Proof.Machine

/-- The first `n` positions of heap array `h` hold existing nodes. -/
def FilledTo (s : State) (n : Nat) (h : Store Nat) : Prop :=
  ∀ j, j < n → ∃ k nd, Store.read h j = some k ∧ k < s.nnodes ∧ Store.read s.node k = some nd

/-- The nodes in the first `n` positions of heap array `h`. -/
def arrayNodes (n : Nat) (h : Store Nat) : List Nat := (List.range n).filterMap (Store.read h)

theorem arrayFreq_eq_posFreq (s : State) : arrayFreq s.node s.heap = posFreq s := rfl

theorem arrayNodes_eq_heapNodes (s : State) : arrayNodes s.hsize s.heap = heapNodes s := rfl

variable {s : State} {n i j : Nat} {h : Store Nat}

theorem freqOf_eq {k : Nat} {nd : TreeNode} (hk : k < s.nnodes) (hr : Store.read s.node k = some nd) :
    freqOf s k = .ok (nodeFreq s.node k) := by
  simp [freqOf, readNode, nodeFreq, hk, hr]

theorem FilledTo.heapKey_eq (hf : FilledTo s n h) (hj : j < n) : heapKey s h j = .ok (arrayFreq s.node h j) := by
  obtain ⟨k, nd, hr, hk, hn⟩ := hf j hj
  simp [heapKey, heapAt, arrayFreq, hr, freqOf_eq hk hn]

theorem FilledTo.mono {m : Nat} (hf : FilledTo s n h) (hm : m ≤ n) : FilledTo s m h := fun j hj => hf j (by omega)

/-! ### Swapping two positions -/

theorem heapAt_ok {k : Nat} : heapAt h j = .ok k ↔ Store.read h j = some k := by
  unfold heapAt
  cases Store.read h j <;> simp

/-- The heap array with positions `i` and `j` exchanged. -/
def swapped (h h' : Store Nat) (i j : Nat) : Prop :=
  ∀ x, Store.read h' x = if x = j then Store.read h i else if x = i then Store.read h j else Store.read h x

theorem FilledTo.heapSwap_ok (hf : FilledTo s n h) (hi : i < n) (hj : j < n) :
    ∃ h', heapSwap h i j = .ok h' ∧ swapped h h' i j := by
  obtain ⟨ki, _, hri, -, -⟩ := hf i hi
  obtain ⟨kj, _, hrj, -, -⟩ := hf j hj
  refine ⟨_, by simp [heapSwap, heapAt, hri, hrj]; rfl, fun x => ?_⟩
  rw [store_read_write, store_read_write]
  by_cases hx : x = j <;> by_cases hy : x = i <;> simp [hx, hy, hri, hrj]

theorem swapped.filled {h' : Store Nat} (hs : swapped h h' i j) (hf : FilledTo s n h) (hi : i < n) (hj : j < n) :
    FilledTo s n h' := by
  intro x hx
  rw [hs x]
  split
  · exact hf i hi
  · split
    · exact hf j hj
    · exact hf x hx

theorem swapped.freq {h' : Store Nat} (hs : swapped h h' i j) (x : Nat) :
    arrayFreq s.node h' x = if x = j then arrayFreq s.node h i else if x = i then arrayFreq s.node h j else arrayFreq s.node h x := by
  simp only [arrayFreq, hs x]
  by_cases h1 : x = j
  · simp [h1]
  · by_cases h2 : x = i
    · subst h2; simp [h1]
    · simp [h1, h2]

/-- Exchanging two positions of a range only reorders it. -/
theorem range_map_swap (hi : i < n) (hj : j < n) :
    ((List.range n).map fun x => if x = j then i else if x = i then j else x).Perm (List.range n) := by
  refine (List.perm_ext_iff_of_nodup ?_ List.nodup_range).2 fun x => ?_
  · refine List.Nodup.map_on (fun x _ y _ hxy => ?_) List.nodup_range
    split at hxy <;> split at hxy <;> (try split at hxy) <;> (try split at hxy) <;> omega
  · simp only [List.mem_map, List.mem_range]
    constructor
    · rintro ⟨y, hy, rfl⟩
      split
      · exact hi
      · split <;> omega
    · intro hx
      refine ⟨if x = j then i else if x = i then j else x, ?_, ?_⟩
      · split
        · exact hi
        · split <;> omega
      · split
        · next e => subst e; split <;> simp_all
        · split
          · next e => subst e; simp
          · simp_all

theorem swapped.nodes {h' : Store Nat} (hs : swapped h h' i j) (hi : i < n) (hj : j < n) :
    (arrayNodes n h').Perm (arrayNodes n h) := by
  have e : Store.read h' = Store.read h ∘ fun x => if x = j then i else if x = i then j else x := by
    funext x
    rw [hs x]
    simp only [Function.comp]
    split
    · rfl
    · split <;> rfl
  rw [arrayNodes, e, ← List.filterMap_map]
  exact (range_map_swap hi hj).filterMap _

theorem swapped.outside {h' : Store Nat} (hs : swapped h h' i j) (hi : i < n) (hj : j < n) {x : Nat} (hx : n ≤ x) :
    Store.read h' x = Store.read h x := by
  rw [hs x, if_neg (by omega), if_neg (by omega)]

/-! ### Sift-up -/

/-- Heap order everywhere but at the edge above position `j`, and the parent of `j` is no greater than the children of `j`. -/
structure UpTo (s : State) (n : Nat) (h : Store Nat) (j : Nat) : Prop where
  others : ∀ x, 1 ≤ x → x < n → x ≠ j → arrayFreq s.node h (heapParent x) ≤ arrayFreq s.node h x
  across : ∀ x, 1 ≤ x → x < n → heapParent x = j → 1 ≤ j → arrayFreq s.node h (heapParent j) ≤ arrayFreq s.node h x

/-- What a sift leaves: it answers, the array is filled, holds the same nodes, and is unchanged beyond the heap. -/
structure Sifted (s : State) (n : Nat) (h h' : Store Nat) : Prop where
  filled : FilledTo s n h'
  nodes : (arrayNodes n h').Perm (arrayNodes n h)
  outside : ∀ x, n ≤ x → Store.read h' x = Store.read h x

theorem Sifted.refl (hf : FilledTo s n h) : Sifted s n h h := ⟨hf, List.Perm.refl _, fun _ _ => rfl⟩

theorem Sifted.after_swap {h₁ h₂ : Store Nat} (hs : swapped h h₁ i j) (hi : i < n) (hj : j < n) (ht : Sifted s n h₁ h₂) :
    Sifted s n h h₂ :=
  ⟨ht.filled, ht.nodes.trans (hs.nodes hi hj), fun x hx => (ht.outside x hx).trans (hs.outside hi hj hx)⟩

theorem siftUp_ok (fuel : Nat) (hf : FilledTo s n h) (hj : j < n) :
    ∃ h', siftUp s fuel j h = .ok h' ∧ Sifted s n h h' := by
  induction fuel generalizing j h with
  | zero => exact ⟨h, rfl, .refl hf⟩
  | succ fuel ih =>
    unfold siftUp
    by_cases j0 : j = 0
    · exact ⟨h, by simp [j0], .refl hf⟩
    have hp : heapParent j < n := by unfold heapParent; omega
    rw [if_neg j0, hf.heapKey_eq hp, hf.heapKey_eq hj]
    simp only [except_ok_bind]
    split
    · obtain ⟨h₁, e₁, hs⟩ := hf.heapSwap_ok hp hj
      obtain ⟨h₂, e₂, ht⟩ := ih (hs.filled hf hp hj) hp
      exact ⟨h₂, by simp [e₁, e₂], ht.after_swap hs hp hj⟩
    · exact ⟨h, rfl, .refl hf⟩

theorem siftUp_ordered (fuel : Nat) (hfuel : j ≤ fuel) (hf : FilledTo s n h) (hj : j < n) (ho : UpTo s n h j)
    {h' : Store Nat} (he : siftUp s fuel j h = .ok h') :
    ∀ x, 1 ≤ x → x < n → arrayFreq s.node h' (heapParent x) ≤ arrayFreq s.node h' x := by
  induction fuel generalizing j h with
  | zero =>
    obtain rfl : h = h' := Except.ok.inj he
    intro x hx hxn
    exact ho.others x hx hxn (by omega)
  | succ fuel ih =>
    unfold siftUp at he
    by_cases j0 : j = 0
    · rw [if_pos j0] at he
      obtain rfl := Except.ok.inj he
      exact fun x hx hxn => ho.others x hx hxn (by omega)
    have hpj : heapParent j < j := by unfold heapParent; omega
    have hp : heapParent j < n := by omega
    rw [if_neg j0, hf.heapKey_eq hp, hf.heapKey_eq hj] at he
    simp only [except_ok_bind] at he
    split at he
    · next hlt =>
      obtain ⟨h₁, e₁, hs⟩ := hf.heapSwap_ok hp hj
      rw [e₁, except_ok_bind] at he
      refine ih (by omega) (hs.filled hf hp hj) hp ⟨?_, ?_⟩ he
      · intro x hx hxn hne
        simp only [hs.freq]
        have a := ho.others x hx hxn
        have b := ho.across x hx hxn
        have c := ho.others (heapParent j)
        have pne : heapParent x ≠ x := by unfold heapParent; omega
        by_cases x1 : x = j
        · subst x1
          simpa [if_neg pne] using BitVec.le_of_lt hlt
        · rw [if_neg x1, if_neg hne]
          by_cases x2 : heapParent x = j
          · rw [if_pos x2]; exact b x2 (by omega)
          · rw [if_neg x2]
            by_cases x3 : heapParent x = heapParent j
            · rw [if_pos x3]
              exact BitVec.le_trans (BitVec.le_of_lt hlt) (by rw [← x3]; exact a x1)
            · rw [if_neg x3]; exact a x1
      · intro x hx hxn hpx hpp
        have pq : heapParent (heapParent j) < heapParent j := by unfold heapParent at *; omega
        have px : heapParent x < x := by unfold heapParent; omega
        simp only [hs.freq]
        rw [if_neg (by omega), if_neg (by omega)]
        have c := ho.others (heapParent j) hpp (by omega) (by omega)
        by_cases x1 : x = j
        · rw [if_pos x1]; exact c
        · rw [if_neg x1, if_neg (by omega)]
          exact BitVec.le_trans c (by rw [← hpx]; exact ho.others x hx hxn x1)
    · next hge =>
      obtain rfl := Except.ok.inj he
      intro x hx hxn
      by_cases x1 : x = j
      · subst x1; exact BitVec.not_lt.mp hge
      · exact ho.others x hx hxn x1

/-! ### Sift-down -/

/-- Heap order everywhere but at the edges below position `j`, and the parent of `j` is no greater than the children of `j`. -/
structure DownFrom (s : State) (n : Nat) (h : Store Nat) (j : Nat) : Prop where
  others : ∀ x, 1 ≤ x → x < n → heapParent x ≠ j → arrayFreq s.node h (heapParent x) ≤ arrayFreq s.node h x
  across : ∀ x, 1 ≤ x → x < n → heapParent x = j → 1 ≤ j → arrayFreq s.node h (heapParent j) ≤ arrayFreq s.node h x

theorem movesDown_le {c : Config} {a b : Word64} (hm : movesDown c a b = true) : a ≤ b := by
  unfold movesDown at hm
  cases hs : c.siftStop <;> simp [hs] at hm
  · exact BitVec.le_of_lt hm
  · exact hm

theorem stays_le {c : Config} {a b : Word64} (hm : movesDown c a b = false) : b ≤ a := by
  unfold movesDown at hm
  cases hs : c.siftStop <;> simp [hs] at hm
  · exact hm
  · exact BitVec.le_of_lt hm

/-- The chosen child is a child, and no child is smaller. -/
theorem chosenChild_ok (hf : FilledTo s n h) (hl : 2 * j + 1 < n) :
    ∃ c, chosenChild s n j h = .ok c ∧ c < n ∧ heapParent c = j ∧ 1 ≤ c ∧
      ∀ x, 1 ≤ x → x < n → heapParent x = j → arrayFreq s.node h c ≤ arrayFreq s.node h x := by
  unfold chosenChild
  by_cases hr : 2 * j + 2 < n
  · rw [if_pos hr, hf.heapKey_eq hl, hf.heapKey_eq hr]
    simp only [except_ok_bind]
    refine ⟨_, rfl, ?_, ?_, ?_, ?_⟩
    · split <;> omega
    · unfold heapParent; split <;> omega
    · split <;> omega
    · intro x hx hxn hpx
      have hx' : x = 2 * j + 1 ∨ x = 2 * j + 2 := by unfold heapParent at hpx; omega
      unfold takesRight
      cases ht : s.cfg.tieChild <;> simp only
      · by_cases hlt : arrayFreq s.node h (2 * j + 2) < arrayFreq s.node h (2 * j + 1)
        · simp only [hlt, decide_true, if_true]
          rcases hx' with rfl | rfl
          · exact BitVec.le_of_lt hlt
          · exact BitVec.le_refl _
        · simp only [hlt, decide_false, Bool.false_eq_true, if_false]
          rcases hx' with rfl | rfl
          · exact BitVec.le_refl _
          · exact BitVec.not_lt.mp hlt
      · by_cases hlt : arrayFreq s.node h (2 * j + 2) ≤ arrayFreq s.node h (2 * j + 1)
        · simp only [hlt, decide_true, if_true]
          rcases hx' with rfl | rfl
          · exact hlt
          · exact BitVec.le_refl _
        · simp only [hlt, decide_false, Bool.false_eq_true, if_false]
          rcases hx' with rfl | rfl
          · exact BitVec.le_refl _
          · exact BitVec.le_of_lt (BitVec.not_le.mp hlt)
  · rw [if_neg hr]
    refine ⟨_, rfl, hl, by unfold heapParent; omega, by omega, fun x hx hxn hpx => ?_⟩
    obtain rfl : x = 2 * j + 1 := by unfold heapParent at hpx; omega
    exact BitVec.le_refl _

theorem siftDown_ok (fuel : Nat) (hf : FilledTo s n h) (hj : j < n) :
    ∃ h', siftDown s n fuel j h = .ok h' ∧ Sifted s n h h' := by
  induction fuel generalizing j h with
  | zero => exact ⟨h, rfl, .refl hf⟩
  | succ fuel ih =>
    unfold siftDown
    by_cases hl : n ≤ 2 * j + 1
    · exact ⟨h, by simp [hl], .refl hf⟩
    obtain ⟨c, ec, hc, -, -, -⟩ := chosenChild_ok hf (not_le.1 hl)
    rw [if_neg hl, ec]
    simp only [except_ok_bind]
    rw [hf.heapKey_eq hc, hf.heapKey_eq hj]
    simp only [except_ok_bind]
    split
    · obtain ⟨h₁, e₁, hs⟩ := hf.heapSwap_ok hc hj
      obtain ⟨h₂, e₂, ht⟩ := ih (hs.filled hf hc hj) hc
      exact ⟨h₂, by simp [e₁, e₂], ht.after_swap hs hc hj⟩
    · exact ⟨h, rfl, .refl hf⟩

theorem siftDown_ordered (fuel : Nat) (hfuel : n ≤ fuel + j) (hf : FilledTo s n h) (hj : j < n) (ho : DownFrom s n h j)
    {h' : Store Nat} (he : siftDown s n fuel j h = .ok h') :
    ∀ x, 1 ≤ x → x < n → arrayFreq s.node h' (heapParent x) ≤ arrayFreq s.node h' x := by
  induction fuel generalizing j h with
  | zero => omega
  | succ fuel ih =>
    unfold siftDown at he
    by_cases hl : n ≤ 2 * j + 1
    · rw [if_pos hl] at he
      obtain rfl := Except.ok.inj he
      exact fun x hx hxn => ho.others x hx hxn (by unfold heapParent; omega)
    obtain ⟨c, ec, hc, hpc, hc1, hmin⟩ := chosenChild_ok hf (not_le.1 hl)
    rw [if_neg hl, ec] at he
    simp only [except_ok_bind] at he
    rw [hf.heapKey_eq hc, hf.heapKey_eq hj] at he
    simp only [except_ok_bind] at he
    have hjc : j < c := by unfold heapParent at hpc; omega
    split at he
    · next hm =>
      have hle := movesDown_le hm
      obtain ⟨h₁, e₁, hs⟩ := hf.heapSwap_ok hc hj
      rw [e₁, except_ok_bind] at he
      refine ih (by omega) (hs.filled hf hc hj) hc ⟨?_, ?_⟩ he
      · intro x hx hxn hne
        simp only [hs.freq]
        have pne : heapParent x ≠ x := by unfold heapParent; omega
        by_cases x1 : x = j
        · subst x1
          have pj : heapParent x < x := by unfold heapParent; omega
          rw [if_neg pne, if_neg (by omega), if_pos rfl]
          exact ho.across c hc1 hc hpc hx
        · rw [if_neg x1, if_neg hne]
          by_cases x2 : heapParent x = j
          · rw [if_pos x2]
            by_cases x3 : x = c
            · rw [if_pos x3]; exact hle
            · rw [if_neg x3]; exact hmin x hx hxn x2
          · rw [if_neg x2]
            have := ho.others x hx hxn x2
            by_cases x3 : x = c
            · exact absurd (x3 ▸ hpc) x2
            · rw [if_neg x3]; exact this
      · intro x hx hxn hpx _
        have xc : c < x := by unfold heapParent at hpx; omega
        simp only [hs.freq]
        rw [if_pos hpc, if_neg (by omega), if_neg (by omega)]
        rw [← hpx]; exact ho.others x hx hxn (by omega)
    · next hm =>
      obtain rfl := Except.ok.inj he
      intro x hx hxn
      by_cases x1 : heapParent x = j
      · rw [x1]
        exact BitVec.le_trans (stays_le (by simpa using hm)) (hmin x hx hxn x1)
      · exact ho.others x hx hxn x1

/-! ### Where the sift loops leave each node -/

theorem ancestor_succ (j i : Nat) : ancestor j (i + 1) = ancestor (heapParent j) i := by
  induction i with
  | zero => rfl
  | succ i ih => rw [ancestor, ih]; rfl

theorem ancestor_le (j i : Nat) : ancestor j i ≤ j := by
  induction i with
  | zero => exact le_rfl
  | succ i ih =>
    have : heapParent (ancestor j i) ≤ ancestor j i := by unfold heapParent; omega
    exact le_trans this ih

theorem ancestor_succ_lt {j i : Nat} (h : ancestor j i ≠ 0) : ancestor j (i + 1) < j :=
  lt_of_lt_of_le (by rw [ancestor]; unfold heapParent; omega) (ancestor_le j i)

/-- The loop of `PQ.PUSH` from position `j`, where node `k` stands: the chain of parents of rule R123. -/
theorem siftUp_raised {k : Nat} (fuel : Nat) (hfuel : j ≤ fuel) (hf : FilledTo s n h) (hj : j < n)
    (hk : Store.read h j = some k) : ∃ h' m, siftUp s fuel j h = .ok h' ∧ Raised s.node h j k h' m := by
  have hkf : arrayFreq s.node h j = nodeFreq s.node k := by simp [arrayFreq, hk]
  have still : ancestor j 0 = 0 ∨ arrayFreq s.node h (ancestor j 1) ≤ nodeFreq s.node k → Raised s.node h j k h 0 := fun hs =>
    ⟨fun i hi => by omega, hs, hk, fun i hi => by omega, fun _ _ => rfl⟩
  induction fuel generalizing j h with
  | zero => exact ⟨h, 0, rfl, still (.inl (show j = 0 by omega))⟩
  | succ fuel ih =>
    unfold siftUp
    by_cases j0 : j = 0
    · exact ⟨h, 0, by simp [j0], still (.inl j0)⟩
    have hp : heapParent j < j := by unfold heapParent; omega
    rw [if_neg j0, hf.heapKey_eq (by omega : heapParent j < n), hf.heapKey_eq hj, hkf]
    simp only [except_ok_bind]
    by_cases hlt : nodeFreq s.node k < arrayFreq s.node h (heapParent j)
    swap
    · exact ⟨h, 0, by simp [hlt], still (.inr (BitVec.not_lt.1 hlt))⟩
    obtain ⟨h₁, e₁, hs⟩ := hf.heapSwap_ok (by omega : heapParent j < n) hj
    have hk₁ : Store.read h₁ (heapParent j) = some k := by rw [hs, if_neg (by omega), if_pos rfl, hk]
    obtain ⟨h', m, e', hr⟩ := ih (by omega) (hs.filled hf (by omega) hj) (by omega) hk₁ (by simp [arrayFreq, hk₁])
      (fun hst => ⟨fun i hi => by omega, hst, hk₁, fun i hi => by omega, fun _ _ => rfl⟩)
    have low : ∀ {x}, x < heapParent j → Store.read h₁ x = Store.read h x := fun {x} hx => by
      rw [hs, if_neg (by omega), if_neg (by omega)]
    have lowF : ∀ {x}, x < heapParent j → arrayFreq s.node h₁ x = arrayFreq s.node h x := fun {x} hx => by
      simp only [arrayFreq, low hx]
    refine ⟨h', m + 1, by simp [hlt, e₁, e'], ?_, ?_, ?_, ?_, ?_⟩
    · rintro (_ | i) hi
      · exact ⟨j0, hlt⟩
      · obtain ⟨a, b⟩ := hr.climbs i (by omega)
        rw [ancestor_succ, ancestor_succ]
        exact ⟨a, by rwa [lowF (ancestor_succ_lt a)] at b⟩
    · rw [ancestor_succ, ancestor_succ]
      by_cases hz : ancestor (heapParent j) m = 0
      · exact .inl hz
      · exact hr.stops.imp_right fun b => by rwa [lowF (ancestor_succ_lt hz)] at b
    · rw [ancestor_succ]; exact hr.placed
    · rintro (_ | i) hi
      · rw [show ancestor j 0 = j from rfl, ancestor_succ, show ancestor (heapParent j) 0 = heapParent j from rfl,
          hr.others j fun i _ => by have := ancestor_le (heapParent j) i; omega, hs, if_pos rfl]
      · rw [ancestor_succ, ancestor_succ, hr.moved i (by omega), low (ancestor_succ_lt (hr.climbs i (by omega)).1)]
    · intro x hx
      have hxj : x ≠ j := hx 0 (by omega)
      rw [hr.others x fun i hi => by rw [← ancestor_succ]; exact hx (i + 1) (by omega), hs, if_neg hxj,
        if_neg (by simpa [ancestor] using hx 1 (by omega))]

theorem descendant_succ (j i : Nat) : descendant s.node h n j (i + 1) = descendant s.node h n (smallerChild s.node h n j) i := by
  induction i with
  | zero => rfl
  | succ i ih => rw [descendant, ih]; rfl

theorem lt_smallerChild (j : Nat) : j < smallerChild s.node h n j := by unfold smallerChild; split <;> omega

theorem le_descendant (j i : Nat) : j ≤ descendant s.node h n j i := by
  induction i with
  | zero => exact le_rfl
  | succ i ih => exact le_trans ih (le_of_lt (lt_smallerChild _))

/-- Below position `c`, the chain of chosen children depends only on the keys of greater positions. -/
theorem descendant_congr {h₁ : Store Nat} {c : Nat} (hc : ∀ x, c < x → arrayFreq s.node h₁ x = arrayFreq s.node h x) (i : Nat) :
    descendant s.node h₁ n c i = descendant s.node h n c i := by
  induction i with
  | zero => rfl
  | succ i ih =>
    have := le_descendant (s := s) (h := h) (n := n) c i
    simp only [descendant, ih, smallerChild]
    rw [hc _ (by omega), hc _ (by omega)]

/-- The loop of `PQ.POP` from position `j`, where node `k` stands: the chain of chosen children of rule R124. -/
theorem siftDown_lowered {k : Nat} (hd : s.cfg.tieChild = .left) (hd' : s.cfg.siftStop = .strict) (fuel : Nat)
    (hfuel : n ≤ fuel + j) (hf : FilledTo s n h) (hj : j < n) (hk : Store.read h j = some k) :
    ∃ h' m, siftDown s n fuel j h = .ok h' ∧ Lowered s.node h n j k h' m := by
  have hkf : arrayFreq s.node h j = nodeFreq s.node k := by simp [arrayFreq, hk]
  have still : n ≤ 2 * j + 1 ∨ nodeFreq s.node k ≤ arrayFreq s.node h (smallerChild s.node h n j) → Lowered s.node h n j k h 0 := fun hs =>
    ⟨fun i hi => by omega, hs, hk, fun i hi => by omega, fun _ _ => rfl⟩
  induction fuel generalizing j h with
  | zero => omega
  | succ fuel ih =>
    unfold siftDown
    by_cases hl : n ≤ 2 * j + 1
    · exact ⟨h, 0, by simp [hl], still (.inl hl)⟩
    have hcj := lt_smallerChild (s := s) (h := h) (n := n) j
    have hcn : smallerChild s.node h n j < n := by unfold smallerChild; split <;> omega
    have hcc : chosenChild s n j h = .ok (smallerChild s.node h n j) := by
      unfold chosenChild smallerChild
      by_cases hr : 2 * j + 2 < n
      · rw [if_pos hr, hf.heapKey_eq (by omega), hf.heapKey_eq hr]
        simp [takesRight, hd, hr]
      · simp [hr]
    rw [if_neg hl, hcc]
    simp only [except_ok_bind]
    rw [hf.heapKey_eq hcn, hf.heapKey_eq hj, hkf]
    simp only [except_ok_bind, movesDown, hd', decide_eq_true_eq]
    by_cases hlt : arrayFreq s.node h (smallerChild s.node h n j) < nodeFreq s.node k
    swap
    · exact ⟨h, 0, by simp [hlt], still (.inr (BitVec.not_lt.1 hlt))⟩
    obtain ⟨h₁, e₁, hs⟩ := hf.heapSwap_ok hcn hj
    have hk₁ : Store.read h₁ (smallerChild s.node h n j) = some k := by rw [hs, if_neg (by omega), if_pos rfl, hk]
    obtain ⟨h', m, e', hr⟩ := ih (by omega) (hs.filled hf hcn hj) hcn hk₁ (by simp [arrayFreq, hk₁])
      (fun hst => ⟨fun i hi => by omega, hst, hk₁, fun i hi => by omega, fun _ _ => rfl⟩)
    have high : ∀ x, smallerChild s.node h n j < x → Store.read h₁ x = Store.read h x := fun x hx => by
      rw [hs, if_neg (by omega), if_neg (by omega)]
    have highF : ∀ x, smallerChild s.node h n j < x → arrayFreq s.node h₁ x = arrayFreq s.node h x := fun x hx => by
      simp only [arrayFreq, high x hx]
    have chain := descendant_congr (n := n) highF
    have above : ∀ i, smallerChild s.node h n j < descendant s.node h n (smallerChild s.node h n j) (i + 1) := fun i =>
      lt_of_le_of_lt (le_descendant _ i) (lt_smallerChild _)
    refine ⟨h', m + 1, by simp [hlt, e₁, e'], ?_, ?_, ?_, ?_, ?_⟩
    · rintro (_ | i) hi
      · exact ⟨by simpa [descendant] using hl, hlt⟩
      · have := hr.descends i (by omega)
        rw [chain, chain, highF _ (above i)] at this
        rw [descendant_succ, descendant_succ]; exact this
    · have := hr.stops
      rw [chain, chain, highF _ (above m)] at this
      rw [descendant_succ, descendant_succ]; exact this
    · have := hr.placed
      rw [chain] at this
      rw [descendant_succ]; exact this
    · rintro (_ | i) hi
      · rw [show descendant s.node h n j 0 = j from rfl, descendant_succ,
          show descendant s.node h n (smallerChild s.node h n j) 0 = smallerChild s.node h n j from rfl, hr.others j fun i _ => by
            have := le_descendant (s := s) (h := h₁) (n := n) (smallerChild s.node h n j) i; omega, hs, if_pos rfl]
      · have := hr.moved i (by omega)
        rw [chain, chain, high _ (above i)] at this
        rw [descendant_succ, descendant_succ]; exact this
    · intro x hx
      rw [hr.others x fun i hi => by rw [chain, ← descendant_succ]; exact hx (i + 1) (by omega), hs,
        if_neg (by simpa [descendant] using hx 0 (by omega)), if_neg (by simpa [descendant] using hx 1 (by omega))]

/-! ### Push and pop -/

theorem arrayNodes_succ {k : Nat} (hr : Store.read h n = some k) : arrayNodes (n + 1) h = arrayNodes n h ++ [k] := by
  simp [arrayNodes, List.range_succ, List.filterMap_append, hr]

theorem arrayNodes_congr {h' : Store Nat} (he : ∀ x, x < n → Store.read h' x = Store.read h x) :
    arrayNodes n h' = arrayNodes n h := by
  unfold arrayNodes
  exact List.filterMap_congr fun x hx => he x (List.mem_range.1 hx)

/-- A swap that answers exchanges two positions. -/
theorem heapSwap_swapped {h' : Store Nat} (he : heapSwap h i j = .ok h') : swapped h h' i j := by
  obtain ⟨ki, ei, he⟩ := except_bind_ok.1 he
  obtain ⟨kj, ej, he⟩ := except_bind_ok.1 he
  obtain rfl := Except.ok.inj he
  have hi := heapAt_ok.1 ei
  have hj := heapAt_ok.1 ej
  intro x
  rw [store_read_write, store_read_write]
  by_cases hx : x = j <;> by_cases hy : x = i <;> simp [hx, hy, hi, hj]

/-- A sift-up that answers touches no position from `n` on, in any state. -/
theorem siftUp_outside {fuel : Nat} {h' : Store Nat} (he : siftUp s fuel j h = .ok h') (hj : j < n) {x : Nat} (hx : n ≤ x) :
    Store.read h' x = Store.read h x := by
  induction fuel generalizing j h with
  | zero => cases he; rfl
  | succ fuel ih =>
    have hp : heapParent j < n := by unfold heapParent; omega
    unfold siftUp at he
    split at he
    · cases he; rfl
    · obtain ⟨fp, -, he⟩ := except_bind_ok.1 he
      obtain ⟨fj, -, he⟩ := except_bind_ok.1 he
      split at he
      · obtain ⟨h₁, hs, he⟩ := except_bind_ok.1 he
        exact (ih he hp).trans ((heapSwap_swapped hs).outside hp hj hx)
      · cases he; rfl

/-- The child a sift-down chooses is inside the heap. -/
theorem chosenChild_lt {c : Nat} (he : chosenChild s n j h = .ok c) (hl : 2 * j + 1 < n) : c < n := by
  unfold chosenChild at he
  split at he
  · obtain ⟨fl, -, he⟩ := except_bind_ok.1 he
    obtain ⟨fr, -, he⟩ := except_bind_ok.1 he
    obtain rfl := Except.ok.inj he
    split <;> omega
  · obtain rfl := Except.ok.inj he
    exact hl

/-- A sift-down that answers touches no position from `n` on, in any state. -/
theorem siftDown_outside {fuel : Nat} {h' : Store Nat} (he : siftDown s n fuel j h = .ok h') (hj : j < n) {x : Nat}
    (hx : n ≤ x) : Store.read h' x = Store.read h x := by
  induction fuel generalizing j h with
  | zero => cases he; rfl
  | succ fuel ih =>
    unfold siftDown at he
    split at he
    · cases he; rfl
    · next hl =>
      obtain ⟨c, hc, he⟩ := except_bind_ok.1 he
      obtain ⟨fc, -, he⟩ := except_bind_ok.1 he
      obtain ⟨fj, -, he⟩ := except_bind_ok.1 he
      have hcn := chosenChild_lt hc (not_le.1 hl)
      split at he
      · obtain ⟨h₁, hs, he⟩ := except_bind_ok.1 he
        exact (ih he hcn).trans ((heapSwap_swapped hs).outside hcn hj hx)
      · cases he; rfl

/-- What `PQ.PUSH` can do when it answers: only `HEAP` and `HSIZE` change, and of `HEAP` no position above the appended one. -/
theorem pqPush_frame {k : Nat} {t : State} (he : pqPush k s = .ok t) :
    k < s.nnodes ∧ inHeap s k = false ∧ s.hsize < s.cfg.maxSyms ∧ t = { s with heap := t.heap, hsize := s.hsize + 1 } ∧
      ∀ x, s.hsize < x → Store.read t.heap x = Store.read s.heap x := by
  unfold pqPush at he
  split at he
  · cases he
  · next h1 =>
    split at he
    · cases he
    · next h2 =>
      obtain ⟨h', hs, e⟩ := except_bind_ok.1 he
      obtain rfl := Except.ok.inj e
      push Not at h1
      refine ⟨h1.1, by simpa using h1.2, not_le.1 h2, rfl, fun x hx => ?_⟩
      exact (siftUp_outside hs (Nat.lt_succ_self _) hx).trans (store_read_write_other _ _ (by omega))

/-- `PQ.PUSH` of an existing node that is not in the heap, with room (rule R123): it answers, the nodes in the heap are the old
ones and `k`, and the heap stays filled and ordered. -/
theorem pqPush_spec {k : Nat} {nd : TreeNode} (hf : HeapFilled s) (ho : HeapOrdered s) (hk : k < s.nnodes)
    (hn : Store.read s.node k = some nd) (hnew : inHeap s k = false) (hroom : s.hsize < s.cfg.maxSyms) :
    ∃ h', pqPush k s = .ok { s with heap := h', hsize := s.hsize + 1 } ∧
      FilledTo s (s.hsize + 1) h' ∧ (arrayNodes (s.hsize + 1) h').Perm (k :: heapNodes s) ∧
      ∀ x, 1 ≤ x → x < s.hsize + 1 → arrayFreq s.node h' (heapParent x) ≤ arrayFreq s.node h' x := by
  have hf0 : FilledTo s (s.hsize + 1) (Store.write s.heap s.hsize k) := by
    intro j hj
    by_cases e : j = s.hsize
    · subst e; exact ⟨k, nd, store_read_write_same _ _ _, hk, hn⟩
    · rw [store_read_write_other _ _ e]; exact hf j (by omega)
  have hfreq : ∀ x, x ≠ s.hsize → arrayFreq s.node (Store.write s.heap s.hsize k) x = posFreq s x := by
    intro x hx
    simp only [arrayFreq, store_read_write_other _ _ hx]
    rfl
  obtain ⟨h', e, hs⟩ := siftUp_ok s.hsize hf0 (Nat.lt_succ_self _)
  refine ⟨h', ?_, hs.filled, ?_, ?_⟩
  · simp [pqPush, not_le.2 hk, hnew, not_le.2 hroom, e]
  · refine hs.nodes.trans ?_
    rw [arrayNodes_succ (store_read_write_same _ _ _),
      arrayNodes_congr fun x hx => store_read_write_other s.heap k (by omega : x ≠ s.hsize)]
    exact List.perm_append_comm
  · refine siftUp_ordered s.hsize le_rfl hf0 (Nat.lt_succ_self _) ⟨?_, ?_⟩ e
    · intro x hx hxn hne
      have : heapParent x ≠ s.hsize := by unfold heapParent; omega
      rw [hfreq x hne, hfreq _ this]
      exact ho x hx (by omega)
    · intro x hx hxn hpx _
      unfold heapParent at hpx; omega

/-- What `PQ.POP` can do when it answers: it returns `HEAP[0]`, only `HEAP` and `HSIZE` change, and of `HEAP` no position from
the old last one on. -/
theorem pqPop_frame {m : Nat} {t : State} (he : pqPop s = .ok (m, t)) :
    s.hsize ≠ 0 ∧ Store.read s.heap 0 = some m ∧ t = { s with heap := t.heap, hsize := s.hsize - 1 } ∧
      ∀ x, s.hsize ≤ x + 1 → Store.read t.heap x = Store.read s.heap x := by
  unfold pqPop at he
  split at he
  · cases he
  · next h0 =>
    obtain ⟨m', em, he⟩ := except_bind_ok.1 he
    have hm := heapAt_ok.1 em
    dsimp only at he
    split at he
    · cases he
      exact ⟨h0, hm, rfl, fun _ _ => rfl⟩
    · next n0 =>
      obtain ⟨last, -, he⟩ := except_bind_ok.1 he
      obtain ⟨h', hs, he⟩ := except_bind_ok.1 he
      cases he
      refine ⟨h0, hm, rfl, fun x hx => ?_⟩
      exact (siftDown_outside hs (by omega) (by omega)).trans (store_read_write_other _ _ (by omega))

/-- `PQ.POP` of a heap that is not empty (rule R124): it answers the node at the root, the rest stays in the heap, and the heap
stays filled and ordered. -/
theorem pqPop_spec (hf : HeapFilled s) (ho : HeapOrdered s) (h0 : s.hsize ≠ 0) :
    ∃ m h', pqPop s = .ok (m, { s with heap := h', hsize := s.hsize - 1 }) ∧
      Store.read s.heap 0 = some m ∧ FilledTo s (s.hsize - 1) h' ∧ (m :: arrayNodes (s.hsize - 1) h').Perm (heapNodes s) ∧
      ∀ x, 1 ≤ x → x < s.hsize - 1 → arrayFreq s.node h' (heapParent x) ≤ arrayFreq s.node h' x := by
  obtain ⟨n, hn⟩ : ∃ n, s.hsize = n + 1 := ⟨s.hsize - 1, by omega⟩
  obtain ⟨m, nd0, hm, hmk, hmn⟩ := hf 0 (by omega)
  simp only [hn, Nat.add_sub_cancel]
  rw [← arrayNodes_eq_heapNodes, hn]
  by_cases n0 : n = 0
  · subst n0
    refine ⟨m, s.heap, ?_, hm, fun j hj => by omega, ?_, fun x hx hxn => by omega⟩
    · simp [pqPop, hn, heapAt, hm]
    · simp [arrayNodes, List.range_succ, hm]
  · obtain ⟨last, ndl, hl, hlk, hln⟩ := hf n (by omega)
    have hf0 : FilledTo s n (Store.write s.heap 0 last) := by
      intro j hj
      by_cases e : j = 0
      · subst e; exact ⟨last, ndl, store_read_write_same _ _ _, hlk, hln⟩
      · rw [store_read_write_other _ _ e]; exact hf j (by omega)
    have hfreq : ∀ x, x ≠ 0 → arrayFreq s.node (Store.write s.heap 0 last) x = posFreq s x := by
      intro x hx
      simp only [arrayFreq, store_read_write_other _ _ hx]
      rfl
    obtain ⟨h', e, hs⟩ := siftDown_ok n hf0 (by omega : 0 < n)
    refine ⟨m, h', ?_, hm, hs.filled, ?_, ?_⟩
    · simp [pqPop, hn, heapAt, hm, hl, n0, e]
    · refine ((hs.nodes.cons m)).trans ?_
      obtain ⟨p, rfl⟩ : ∃ p, n = p + 1 := ⟨n - 1, by omega⟩
      have e1 : arrayNodes (p + 1) (Store.write s.heap 0 last) =
          last :: (List.range' 1 p).filterMap (Store.read s.heap) := by
        rw [arrayNodes, List.range_eq_range', List.range'_succ, List.filterMap_cons_some (store_read_write_same _ _ _)]
        refine congrArg _ (List.filterMap_congr fun x hx => store_read_write_other _ _ ?_)
        have := List.mem_range'_1.1 hx; omega
      have e2 : arrayNodes (p + 1) s.heap = m :: (List.range' 1 p).filterMap (Store.read s.heap) := by
        rw [arrayNodes, List.range_eq_range', List.range'_succ, List.filterMap_cons_some hm]
      rw [e1, arrayNodes_succ hl, e2]
      exact (List.Perm.swap last m _).trans
        (by simpa using (List.perm_append_comm (l₁ := [last]) (l₂ := m :: (List.range' 1 p).filterMap (Store.read s.heap))))
    · refine siftDown_ordered n (by omega) hf0 (by omega) ⟨?_, fun x _ _ _ h => by omega⟩ e
      intro x hx hxn hpx
      rw [hfreq x (by omega), hfreq _ hpx]
      exact ho x hx (by omega)

/-- `PQ.PUSH` of an existing node that is not in the heap, with room: where it leaves every node (rule R123). -/
theorem pqPush_pushed {k : Nat} {nd : TreeNode} (hf : HeapFilled s) (hk : k < s.nnodes)
    (hn : Store.read s.node k = some nd) (hnew : inHeap s k = false) (hroom : s.hsize < s.cfg.maxSyms) :
    ∃ h', pqPush k s = .ok { s with heap := h', hsize := s.hsize + 1 } ∧ Pushed s.node s.heap s.hsize k h' := by
  have hf0 : FilledTo s (s.hsize + 1) (Store.write s.heap s.hsize k) := by
    intro j hj
    by_cases e : j = s.hsize
    · subst e; exact ⟨k, nd, store_read_write_same _ _ _, hk, hn⟩
    · rw [store_read_write_other _ _ e]; exact hf j (by omega)
  obtain ⟨h', m, e, hr⟩ := siftUp_raised s.hsize le_rfl hf0 (Nat.lt_succ_self _) (store_read_write_same _ _ _)
  have hfreq : ∀ x, x ≠ s.hsize → arrayFreq s.node (Store.write s.heap s.hsize k) x = arrayFreq s.node s.heap x := by
    intro x hx
    simp only [arrayFreq, store_read_write_other _ _ hx]
  refine ⟨h', by simp [pqPush, not_le.2 hk, hnew, not_le.2 hroom, e], m, ?_, ?_, hr.placed, ?_, ?_⟩
  · intro i hi
    obtain ⟨a, b⟩ := hr.climbs i hi
    exact ⟨a, by rwa [hfreq _ (ne_of_lt (ancestor_succ_lt a))] at b⟩
  · by_cases hz : ancestor s.hsize m = 0
    · exact .inl hz
    · exact hr.stops.imp_right fun b => by rwa [hfreq _ (ne_of_lt (ancestor_succ_lt hz))] at b
  · intro i hi
    rw [hr.moved i hi, store_read_write_other _ _ (ne_of_lt (ancestor_succ_lt (hr.climbs i hi).1))]
  · intro x hx
    rw [hr.others x hx, store_read_write_other _ _ (by simpa [ancestor] using hx 0 (Nat.zero_le _))]

/-- `PQ.POP` of a heap that is not empty: where it leaves every node, under the decided policies (rule R124). -/
theorem pqPop_popped (hd : s.cfg.tieChild = .left) (hd' : s.cfg.siftStop = .strict) (hf : HeapFilled s) (hn : s.hsize = n + 1) :
    ∃ m h', pqPop s = .ok (m, { s with heap := h', hsize := n }) ∧ Store.read s.heap 0 = some m ∧ Popped s.node s.heap n h' := by
  obtain ⟨m, nd0, hm, -, -⟩ := hf 0 (by omega)
  by_cases n0 : n = 0
  · subst n0
    exact ⟨m, s.heap, by simp [pqPop, hn, heapAt, hm], hm, by simp [Popped]⟩
  obtain ⟨last, ndl, hl, hlk, hln⟩ := hf n (by omega)
  have hf0 : FilledTo s n (Store.write s.heap 0 last) := by
    intro j hj
    by_cases e : j = 0
    · subst e; exact ⟨last, ndl, store_read_write_same _ _ _, hlk, hln⟩
    · rw [store_read_write_other _ _ e]; exact hf j (by omega)
  obtain ⟨h', i, e, hr⟩ := siftDown_lowered (n := n) hd hd' n (Nat.le_add_right n 0) hf0 (by omega) (store_read_write_same _ _ _)
  have read : ∀ x, 0 < x → Store.read (Store.write s.heap 0 last) x = Store.read s.heap x := fun x hx =>
    store_read_write_other _ _ (by omega)
  have freq : ∀ x, 0 < x → arrayFreq s.node (Store.write s.heap 0 last) x = arrayFreq s.node s.heap x := fun x hx => by
    simp only [arrayFreq, read x hx]
  have chain : ∀ i, descendant s.node (Store.write s.heap 0 last) n 0 i = descendant s.node s.heap n 0 i := descendant_congr freq
  have pos : ∀ i, 0 < descendant s.node s.heap n 0 (i + 1) := fun i => lt_of_le_of_lt (le_descendant 0 i) (lt_smallerChild _)
  refine ⟨m, h', by simp [pqPop, hn, heapAt, hm, hl, n0, e], hm, ?_⟩
  rw [Popped, if_neg n0]
  refine ⟨last, i, hl, ?_, ?_, ?_, ?_, ?_⟩
  · intro x hx
    have := hr.descends x hx
    rwa [chain, chain, freq _ (pos x)] at this
  · have := hr.stops
    rwa [chain, chain, freq _ (pos i)] at this
  · rw [← chain]; exact hr.placed
  · intro x hx
    have := hr.moved x hx
    rwa [chain, chain, read _ (pos x)] at this
  · intro x hx
    have h0 := hx 0 (Nat.zero_le _)
    rw [hr.others x fun y hy => by rw [chain]; exact hx y hy, read x (by simpa [descendant, Nat.pos_iff_ne_zero] using h0)]

end Sys2Proof.Machine
end

