-- ==== Sys2Proof/Laws/Exec.lean ====
section
/-! SUPPORT. For each operation, one lemma that says every state it can answer (rules R141 to R203); what an operation keeps is
read off from it. -/

namespace Sys2Proof.Machine

variable {s t : State}

theorem freqOf_ok {k : Nat} {f : Word64} (h : freqOf s k = .ok f) : f = nodeFreq s.node k := by
  obtain ⟨n, hn, e⟩ := except_bind_ok.1 h
  obtain ⟨-, hr⟩ := readNode_ok.1 hn
  simp only [nodeFreq, hr]
  exact (Except.ok.inj e).symm

theorem execFtHdr_next (h : execFtHdr s = .next t) :
    (s.inLen.toNat < 12 ∧ t = raise .hdrTrunc s) ∨
    (12 ≤ s.inLen.toNat ∧
      t = ftHdrChecks { s with hdrTotalLen := inWord s 0, hdrReserved := inWord s 4, symCount := inWord s 8 }) := by
  replace h := finish_next.1 h
  split at h
  · next hl => exact .inl ⟨hl, (Except.ok.inj h).symm⟩
  · next hl =>
    rw [memRead4_eq (by omega), memRead4_eq (by omega), memRead4_eq (by omega)] at h
    exact .inr ⟨not_lt.1 hl, (Except.ok.inj h).symm⟩

/-- The three ways the checks of `FT.HDR` end. -/
theorem ftHdrChecks_cases (s : State) :
    ftHdrChecks s = raise .entTrunc s ∨ ftHdrChecks s = raise .syms s ∨
    (entriesEnd s ≤ s.inLen.toNat ∧ s.symCount.toNat ≤ s.cfg.maxSyms ∧
      ftHdrChecks s = { s with idx := 0, phase := if s.symCount = 0 then .tbInit else .ftEnt }) := by
  unfold ftHdrChecks
  split
  · exact .inl rfl
  · split
    · exact .inr (.inl rfl)
    · exact .inr (.inr ⟨by omega, by omega, rfl⟩)

theorem execFtEnt_next (h : execFtEnt s = .next t) :
    s.idx.toNat < s.symCount.toNat ∧ s.idx.toNat < s.cfg.maxSyms ∧
    t = ftEntNext { s with
      ft := Store.write s.ft s.idx.toNat
        { count := inWord s (entryAddr s.idx.toNat), sym := inByte s (entryAddr s.idx.toNat + 4) } } := by
  replace h := finish_next.1 h
  split at h
  · cases h
  · next hi =>
    obtain ⟨c, hc, h⟩ := except_bind_ok.1 h
    obtain ⟨x, hx, h⟩ := except_bind_ok.1 h
    obtain ⟨s1, hs, h⟩ := except_bind_ok.1 h
    obtain ⟨-, rfl⟩ := memRead4_ok.1 hc
    obtain ⟨-, rfl⟩ := memRead1_ok.1 hx
    obtain ⟨hm, rfl⟩ := writeFt_ok.1 hs
    exact ⟨not_le.1 hi, hm, (Except.ok.inj h).symm⟩

/-- `NODE[k] <- n; NNODES <- k + 1; PQ.PUSH(k)`: what it writes when it answers. -/
theorem addNode_next {k : Nat} {n : TreeNode} (h : addNode s k n = .ok t) :
    k < 2 * s.cfg.maxSyms - 1 ∧ s.hsize < s.cfg.maxSyms ∧
    t = { s with node := Store.write s.node k n, nnodes := k + 1, heap := t.heap, hsize := s.hsize + 1 } ∧
    ∀ x, s.hsize < x → Store.read t.heap x = Store.read s.heap x := by
  obtain ⟨s1, hs, h⟩ := except_bind_ok.1 h
  obtain ⟨hk, rfl⟩ := writeNode_ok.1 hs
  obtain ⟨-, -, hr, e, ho⟩ := pqPush_frame h
  exact ⟨hk, hr, e, ho⟩

theorem execTbLeaf_next (h : execTbLeaf s = .next t) :
    s.idx.toNat < s.symCount.toNat ∧ s.nnodes = s.idx.toNat ∧ ∃ e h',
      Store.read s.ft s.idx.toNat = some e ∧ s.idx.toNat < 2 * s.cfg.maxSyms - 1 ∧ s.hsize < s.cfg.maxSyms ∧
      (∀ x, s.hsize < x → Store.read h' x = Store.read s.heap x) ∧
      t = tbLeafNext { s with
        node := Store.write s.node s.idx.toNat (leafOf e), nnodes := s.idx.toNat + 1, heap := h', hsize := s.hsize + 1 } := by
  replace h := finish_next.1 h
  split at h
  · cases h
  · next hc =>
    push Not at hc
    obtain ⟨e, he, h⟩ := except_bind_ok.1 h
    obtain ⟨s1, hs, h⟩ := except_bind_ok.1 h
    obtain ⟨hk, hr, e1, ho⟩ := addNode_next hs
    refine ⟨hc.1, hc.2, e, s1.heap, (readFt_ok.1 he).2, hk, hr, ho, ?_⟩
    rw [← e1]; exact (Except.ok.inj h).symm

theorem execTbMerge_next (h : execTbMerge s = .next t) :
    2 ≤ s.hsize ∧ ∃ a b h', Store.read s.heap 0 = some a ∧ s.nnodes < 2 * s.cfg.maxSyms - 1 ∧
      (∀ x, s.hsize ≤ x + 1 → Store.read h' x = Store.read s.heap x) ∧
      t = tbMergeNext { s with
        node := Store.write s.node s.nnodes (joinOf a b (nodeFreq s.node a) (nodeFreq s.node b)), nnodes := s.nnodes + 1, heap := h',
        hsize := s.hsize - 1 } := by
  replace h := finish_next.1 h
  split at h
  · cases h
  · next hc =>
    obtain ⟨⟨a, s1⟩, h1, h⟩ := except_bind_ok.1 h
    obtain ⟨⟨b, s2⟩, h2, h⟩ := except_bind_ok.1 h
    obtain ⟨fa, ha, h⟩ := except_bind_ok.1 h
    obtain ⟨fb, hb, h⟩ := except_bind_ok.1 h
    obtain ⟨s3, h3, hend⟩ := except_bind_ok.1 h
    obtain ⟨-, hr, e1, o1⟩ := pqPop_frame h1
    obtain ⟨-, -, e2, o2⟩ := pqPop_frame h2
    obtain ⟨hk, -, e3, o3⟩ := addNode_next h3
    have z1 : s1.hsize = s.hsize - 1 := by rw [e1]
    have z2 : s2.hsize = s1.hsize - 1 := by rw [e2]
    have ea := freqOf_ok ha
    have eb := freqOf_ok hb
    have hn : nodeFreq s2.node = nodeFreq s.node := by rw [e2, e1]
    rw [hn] at ea eb
    subst ea eb
    refine ⟨not_lt.1 hc, a, b, s3.heap, hr, ?_, fun x hx => ?_, ?_⟩
    · rw [e2, e1] at hk; exact hk
    · exact (o3 x (by omega)).trans ((o2 x (by omega)).trans (o1 x hx))
    · rw [← Except.ok.inj hend, e3, e2, e1]
      simp only [tbMergeNext, show s.hsize - 1 - 1 + 1 = s.hsize - 1 by omega]

theorem execTbRoot_next (h : execTbRoot s = .next t) :
    s.hsize = 1 ∧ ∃ r, Store.read s.heap 0 = some r ∧ t = { s with hsize := 0, root := some r, phase := .bsHdr } := by
  replace h := finish_next.1 h
  split at h
  · cases h
  · next hc =>
    have h1 : s.hsize = 1 := not_not.1 hc
    obtain ⟨⟨r, s1⟩, hp, h⟩ := except_bind_ok.1 h
    unfold pqPop at hp
    simp only [h1] at hp
    obtain ⟨m, hm, hp⟩ := except_bind_ok.1 hp
    cases hp
    exact ⟨h1, r, heapAt_ok.1 hm, (Except.ok.inj h).symm⟩

theorem execBsHdr_next (h : execBsHdr s = .next t) :
    (s.inLen.toNat < entriesEnd s + 12 ∧ t = raise .bodyTrunc s) ∨
    (entriesEnd s + 12 ≤ s.inLen.toNat ∧ ∃ u, u = { s with
        packedBits := inWord s (entriesEnd s), packedBytes := inWord s (entriesEnd s + 4),
        unpackedBytes := inWord s (entriesEnd s + 8), payloadBase := BitVec.ofNat 64 (entriesEnd s + 12) } ∧
      (t = raise .payloadTrunc u ∨ t = raise .bitsExceed u ∨
        (u.payloadBase.toNat + u.packedBytes.toNat ≤ s.inLen.toNat ∧ u.packedBits.toNat ≤ 8 * u.packedBytes.toNat ∧
          ∃ r n, s.root = some r ∧ r < s.nnodes ∧ Store.read s.node r = some n ∧
            t = { u with cursor := 0, walk := s.root, idx := 0, phase := if n.leaf then .bsRun1 else .bsBit }))) := by
  replace h := finish_next.1 h
  split at h
  · next hl => exact .inl ⟨hl, (Except.ok.inj h).symm⟩
  · next hl =>
    rw [memRead4_eq (by omega), memRead4_eq (by omega), memRead4_eq (by omega)] at h
    simp only [except_ok_bind] at h
    refine .inr ⟨not_lt.1 hl, _, rfl, ?_⟩
    unfold bsHdrChecks at h
    split at h
    · exact .inl (Except.ok.inj h).symm
    · next h1 =>
      split at h
      · exact .inr (.inl (Except.ok.inj h).symm)
      · next h2 =>
        obtain ⟨n, hn, h⟩ := except_bind_ok.1 h
        obtain ⟨r, hr, hrn, hrd⟩ := readNodeRef_ok.1 hn
        exact .inr (.inr ⟨not_lt.1 h1, not_lt.1 h2, r, n, hr, hrn, hrd, (Except.ok.inj h).symm⟩)

theorem execBsBit_next (h : execBsBit s = .next t) :
    ∃ w nd, s.walk = some w ∧ w < s.nnodes ∧ Store.read s.node w = some nd ∧ nd.leaf = false ∧
      ((s.cursor = s.packedBits ∧ t = { s with phase := afterDecode s }) ∨
        (s.cursor ≠ s.packedBits ∧ payloadAddr s < s.inLen.toNat ∧ ∃ nxt,
          nxt = (if bitOfByte (inByte s (payloadAddr s)) s.cursor.toNat then nd.right else nd.left) ∧
          ((nxt = none ∧ t = raise .deadEnd { s with cursor := s.cursor + 1 }) ∨
            ∃ k c, nxt = some k ∧ k < s.nnodes ∧ Store.read s.node k = some c ∧
              ((c.leaf = true ∧ s.outLen.toNat = s.cfg.outCap ∧
                  t = raise .out { s with cursor := s.cursor + 1, walk := some k }) ∨
                (c.leaf = true ∧ s.outLen.toNat < s.cfg.outCap ∧
                  t = { s with
                    cursor := s.cursor + 1, walk := s.root, outBuf := Store.write s.outBuf s.outLen.toNat c.sym,
                    outLen := s.outLen + 1, phase := .bsBit }) ∨
                (c.leaf = false ∧ s.cursor + 1 = s.packedBits ∧
                  t = raise .outOfBounds { s with cursor := s.cursor + 1, walk := some k }) ∨
                (c.leaf = false ∧ s.cursor + 1 ≠ s.packedBits ∧
                  t = { s with cursor := s.cursor + 1, walk := some k, phase := .bsBit }))))) := by
  replace h := finish_next.1 h
  obtain ⟨nd, hnd, h⟩ := except_bind_ok.1 h
  obtain ⟨w, hw, hwn, hwr⟩ := readNodeRef_ok.1 hnd
  split at h
  · cases h
  · next hl =>
    refine ⟨w, nd, hw, hwn, hwr, by simpa using hl, ?_⟩
    split at h
    · next hc => exact .inl ⟨hc, (Except.ok.inj h).symm⟩
    · next hc =>
      obtain ⟨bit, hb, h⟩ := except_bind_ok.1 h
      obtain ⟨b, hr, hb⟩ := except_bind_ok.1 hb
      obtain ⟨hin, rfl⟩ := memRead1_ok.1 hr
      obtain rfl := Except.ok.inj hb
      refine .inr ⟨hc, hin, _, rfl, ?_⟩
      unfold bsBitArrive at h
      split at h
      · next hn => exact .inl ⟨hn, (Except.ok.inj h).symm⟩
      · next k hn =>
        refine .inr ?_
        dsimp only at h
        obtain ⟨c, hk, h⟩ := except_bind_ok.1 h
        obtain ⟨hkn, hkr⟩ := readNode_ok.1 hk
        refine ⟨k, c, hn, hkn, hkr, ?_⟩
        split at h
        · next hleaf =>
          rcases emitThen_ok.1 h with ⟨hf, rfl⟩ | ⟨hf, rfl⟩
          · exact .inl ⟨hleaf, hf, rfl⟩
          · exact .inr (.inl ⟨hleaf, hf, rfl⟩)
        · next hleaf =>
          refine .inr (.inr ?_)
          split at h
          · next he => exact .inl ⟨by simpa using hleaf, he, (Except.ok.inj h).symm⟩
          · next he => exact .inr ⟨by simpa using hleaf, he, (Except.ok.inj h).symm⟩

theorem execBsRun1_next (h : execBsRun1 s = .next t) :
    ∃ r nd e, s.root = some r ∧ r < s.nnodes ∧ Store.read s.node r = some nd ∧ nd.leaf = true ∧ Store.read s.ft 0 = some e ∧
      ((s.idx = e.count ∧ t = { s with phase := afterDecode s }) ∨
        (s.idx ≠ e.count ∧ s.outLen.toNat = s.cfg.outCap ∧ t = raise .out s) ∨
        (s.idx ≠ e.count ∧ s.outLen.toNat < s.cfg.outCap ∧
          t = { s with
            outBuf := Store.write s.outBuf s.outLen.toNat nd.sym, outLen := s.outLen + 1, idx := s.idx + 1,
            phase := .bsRun1 })) := by
  replace h := finish_next.1 h
  obtain ⟨nd, hnd, h⟩ := except_bind_ok.1 h
  obtain ⟨r, hr, hrn, hrd⟩ := readNodeRef_ok.1 hnd
  split at h
  · cases h
  · next hl =>
    obtain ⟨e, he, h⟩ := except_bind_ok.1 h
    refine ⟨r, nd, e, hr, hrn, hrd, by simpa using hl, (readFt_ok.1 he).2, ?_⟩
    split at h
    · next hc => exact .inl ⟨hc, (Except.ok.inj h).symm⟩
    · next hc =>
      rcases emitThen_ok.1 h with ⟨hf, rfl⟩ | ⟨hf, rfl⟩
      · exact .inr (.inl ⟨hc, hf, rfl⟩)
      · exact .inr (.inr ⟨hc, hf, rfl⟩)

theorem execVlTally_next (h : execVlTally s = .next t) :
    s.idx.toNat < s.outLen.toNat ∧ ∃ x v, Store.read s.outBuf s.idx.toNat = some x ∧ Store.read s.obs x.toNat = some v ∧
      t = vlTallyNext (writeObs s x (v + 1)) := by
  replace h := finish_next.1 h
  split at h
  · cases h
  · next hi =>
    obtain ⟨x, hx, h⟩ := except_bind_ok.1 h
    obtain ⟨v, hv, h⟩ := except_bind_ok.1 h
    exact ⟨not_le.1 hi, x, v, (readOut_ok.1 hx).2, readObs_ok.1 hv, (Except.ok.inj h).symm⟩

theorem execVlCmp_next (h : execVlCmp s = .next t) :
    s.idx.toNat < s.symCount.toNat ∧ ∃ e v, Store.read s.ft s.idx.toNat = some e ∧ Store.read s.obs e.sym.toNat = some v ∧
      ((v ≠ e.count ∧ t = raise (.countMismatch e.sym e.count v) s) ∨ (v = e.count ∧ t = vlCmpNext s)) := by
  replace h := finish_next.1 h
  split at h
  · cases h
  · next hi =>
    obtain ⟨e, he, h⟩ := except_bind_ok.1 h
    obtain ⟨v, hv, h⟩ := except_bind_ok.1 h
    refine ⟨not_le.1 hi, e, v, (readFt_ok.1 he).2, readObs_ok.1 hv, ?_⟩
    split at h
    · next hc => exact .inl ⟨hc, (Except.ok.inj h).symm⟩
    · next hc => exact .inr ⟨not_not.1 hc, (Except.ok.inj h).symm⟩

theorem execPqPush_next {k : Nat} (h : execPqPush k s = .next t) :
    k < s.nnodes ∧ inHeap s k = false ∧ s.hsize < s.cfg.maxSyms ∧
      ∃ h', (∀ x, s.hsize < x → Store.read h' x = Store.read s.heap x) ∧
        t = { s with heap := h', hsize := s.hsize + 1, pqAns := none } := by
  replace h := finish_next.1 h
  obtain ⟨s1, hs, h⟩ := except_bind_ok.1 h
  obtain ⟨h1, h2, h3, e, ho⟩ := pqPush_frame hs
  refine ⟨h1, h2, h3, s1.heap, ho, ?_⟩
  rw [← Except.ok.inj h, e]

theorem execPqPop_next (h : execPqPop s = .next t) :
    s.hsize ≠ 0 ∧ ∃ m h', Store.read s.heap 0 = some m ∧
      (∀ x, s.hsize ≤ x + 1 → Store.read h' x = Store.read s.heap x) ∧
      t = { s with heap := h', hsize := s.hsize - 1, pqAns := some m } := by
  replace h := finish_next.1 h
  obtain ⟨⟨m, s1⟩, hs, h⟩ := except_bind_ok.1 h
  obtain ⟨h1, h2, e, ho⟩ := pqPop_frame hs
  refine ⟨h1, m, s1.heap, h2, ho, ?_⟩
  rw [← Except.ok.inj h, e]

end Sys2Proof.Machine
end

