-- ==== Sys2Proof/Laws/Storage.lean ====
section
/-! SUPPORT. Every operation that writes a file or buffer keeps its canonical form and the bound of its indices; reset's memory
has them. -/

namespace Sys2Proof.Machine

variable {α : Type} {s t : State} {n : Nat} {h h' : Store Nat}

/-- A store in canonical form with every index below `n`. -/
def Bounded (n : Nat) (m : Store α) : Prop := Store.wf m ∧ ∀ p ∈ m, p.1 < n

theorem bounded_nil : Bounded n ([] : Store α) := ⟨store_wf_nil, fun _ h => absurd h List.not_mem_nil⟩

theorem Bounded.write {m : Store α} (hm : Bounded n m) {a : Nat} (ha : a < n) (v : α) : Bounded n (Store.write m a v) :=
  ⟨store_wf_write hm.1 a v, fun p hp => (store_mem_write hp).elim (fun e => e ▸ ha) (hm.2 p)⟩

/-- What a read returns stands below the bound. -/
theorem Bounded.lt_of_read {m : Store α} (hm : Bounded n m) {a : Nat} {v : α} (h : Store.read m a = some v) : a < n :=
  hm.2 _ (store_read_mem h)

theorem Bounded.heapSwap {i j : Nat} (hh : Bounded n h) (he : heapSwap h i j = .ok h') : Bounded n h' := by
  obtain ⟨ki, hi, he⟩ := except_bind_ok.1 he
  obtain ⟨kj, hj, he⟩ := except_bind_ok.1 he
  rw [← Except.ok.inj he]
  exact (hh.write (hh.lt_of_read (heapAt_ok.1 hi)) _).write (hh.lt_of_read (heapAt_ok.1 hj)) _

theorem Bounded.siftUp {fuel j : Nat} (hh : Bounded n h) (he : siftUp s fuel j h = .ok h') : Bounded n h' := by
  induction fuel generalizing j h with
  | zero => exact Except.ok.inj he ▸ hh
  | succ fuel ih =>
    unfold Machine.siftUp at he
    split at he
    · exact Except.ok.inj he ▸ hh
    · obtain ⟨fp, -, he⟩ := except_bind_ok.1 he
      obtain ⟨fj, -, he⟩ := except_bind_ok.1 he
      split at he
      · obtain ⟨g, hg, he⟩ := except_bind_ok.1 he
        exact ih (hh.heapSwap hg) he
      · exact Except.ok.inj he ▸ hh

theorem Bounded.siftDown {m fuel j : Nat} (hh : Bounded n h) (he : siftDown s m fuel j h = .ok h') : Bounded n h' := by
  induction fuel generalizing j h with
  | zero => exact Except.ok.inj he ▸ hh
  | succ fuel ih =>
    unfold Machine.siftDown at he
    split at he
    · exact Except.ok.inj he ▸ hh
    · obtain ⟨c, -, he⟩ := except_bind_ok.1 he
      obtain ⟨fc, -, he⟩ := except_bind_ok.1 he
      obtain ⟨fj, -, he⟩ := except_bind_ok.1 he
      split at he
      · obtain ⟨g, hg, he⟩ := except_bind_ok.1 he
        exact ih (hh.heapSwap hg) he
      · exact Except.ok.inj he ▸ hh

theorem Bounded.pqPush {k : Nat} (hh : Bounded s.cfg.maxSyms s.heap) (he : pqPush k s = .ok t) :
    Bounded s.cfg.maxSyms t.heap := by
  unfold Machine.pqPush at he
  split at he
  · cases he
  · split at he
    · cases he
    · next hr =>
      obtain ⟨g, hg, he⟩ := except_bind_ok.1 he
      rw [← Except.ok.inj he]
      exact (hh.write (not_le.1 hr) k).siftUp hg

theorem Bounded.pqPop {m : Nat} (hh : Bounded n s.heap) (he : pqPop s = .ok (m, t)) : Bounded n t.heap := by
  unfold Machine.pqPop at he
  split at he
  · cases he
  · obtain ⟨r, hr, he⟩ := except_bind_ok.1 he
    dsimp only at he
    split at he
    · cases he; exact hh
    · obtain ⟨last, -, he⟩ := except_bind_ok.1 he
      obtain ⟨g, hg, he⟩ := except_bind_ok.1 he
      cases he
      exact (hh.write (hh.lt_of_read (heapAt_ok.1 hr)) last).siftDown hg

/-- A store to `OUT` keeps the buffer's form. -/
theorem Bounded.writeOut {a : Nat} {v : Byte} (hh : Bounded s.cfg.outCap s.outBuf) (he : writeOut s a v = .ok t) :
    Bounded s.cfg.outCap t.outBuf := by
  obtain ⟨ha, rfl⟩ := writeOut_ok.1 he
  exact hh.write ha v

/-- A write of the host to `IN` keeps the buffer's form. -/
theorem Bounded.hostWriteIn {a : Nat} {b : Byte} (hh : Bounded s.cfg.inCap s.inBuf) (he : hostWriteIn a b s = .next t) :
    Bounded s.cfg.inCap t.inBuf := by
  unfold Machine.hostWriteIn at he
  split at he
  · cases he
  · split at he
    · next ha => cases he; exact hh.write ha b
    · cases he

/-- The 256 tallies of `VL.INIT` are in canonical form. -/
theorem bounded_zeroTallies : Bounded 256 zeroTallies := by
  constructor
  · show ((zeroTallies).map Prod.fst).Pairwise (· < ·)
    simpa [zeroTallies, List.map_map, Function.comp_def] using List.pairwise_lt_range
  · intro p hp
    obtain ⟨i, hi, rfl⟩ := List.mem_map.1 hp
    exact List.mem_range.1 hi

/-- The memory after reset is canonical. -/
theorem reset_memory_wf : Memory.wf State.reset.inBuf ∧ Memory.wf State.reset.outBuf := ⟨store_wf_nil, store_wf_nil⟩

end Sys2Proof.Machine
end

