-- ==== Sys2Proof/Laws/Invariant.lean ====
section
/-! SUPPORT. The parts of the invariant depend only on the data of the block, so a step that leaves those data alone keeps them:
one congruence lemma for each part. -/

namespace Sys2Proof.Machine

variable {s t : State}

/-- The two states have the same tree, table and output. -/
structure SameTree (s t : State) : Prop where
  cfg : t.cfg = s.cfg
  symCount : t.symCount = s.symCount
  hsize : t.hsize = s.hsize
  nnodes : t.nnodes = s.nnodes
  root : t.root = s.root
  ft : t.ft = s.ft
  node : t.node = s.node
  heap : t.heap = s.heap
  outLen : t.outLen = s.outLen
  outBuf : t.outBuf = s.outBuf

theorem SameTree.countSum (e : SameTree s t) : countSum t = countSum s := by
  have : countOf t = countOf s := by funext i; simp [countOf, e.ft]
  funext m
  simp [Machine.countSum, this]

theorem SameTree.childNodes (e : SameTree s t) : childNodes t = childNodes s := by
  simp [Machine.childNodes, e.nnodes, e.node]

theorem SameTree.heapNodes (e : SameTree s t) : heapNodes t = heapNodes s := by
  simp [Machine.heapNodes, e.hsize, e.heap]

theorem SameTree.occurrences (e : SameTree s t) : occurrences t = occurrences s := by
  funext x m
  simp [Machine.occurrences, e.outBuf]

theorem TableRead.congr {m : Nat} (h : TableRead s m) (e : SameTree s t) : TableRead t m :=
  ⟨by rw [e.cfg, e.symCount]; exact h.fits, fun i hi => by rw [e.ft]; exact h.listed i hi⟩

theorem Arena.congr {m : Nat} {roots : List Nat} (h : Arena s m roots) (e : SameTree s t) : Arena t m roots := by
  refine ⟨fun k hk => ?_, fun k hk hn => ?_, ?_, ?_⟩
  · obtain ⟨f, h1, h2⟩ := h.leaf k hk
    exact ⟨f, by rw [e.ft]; exact h1, by rw [e.node]; exact h2⟩
  · obtain ⟨a, b, h1, h2, h3, h4⟩ := h.inner k hk (e.nnodes ▸ hn)
    exact ⟨a, b, h1, h2, by rw [e.node]; exact h3, by rw [e.node]; exact h4⟩
  · rw [e.childNodes, e.nnodes]; exact h.forest
  · rw [e.countSum, e.node]; exact h.weight

theorem Building.congr {m : Nat} (h : Building s m) (e : SameTree s t) : Building t m := by
  refine ⟨fun j hj => ?_, fun j h1 hj => ?_, ?_, ?_⟩
  · obtain ⟨k, n, h1, h2, h3⟩ := h.filled j (e.hsize ▸ hj)
    exact ⟨k, n, by rw [e.heap]; exact h1, by rw [e.nnodes]; exact h2, by rw [e.node]; exact h3⟩
  · simp only [posFreq, e.node, e.heap]
    exact h.ordered j h1 (e.hsize ▸ hj)
  · rw [e.nnodes, e.hsize]; exact h.balance
  · rw [e.heapNodes]; exact h.arena.congr e

theorem TreeBuilt.congr (h : TreeBuilt s) (e : SameTree s t) : TreeBuilt t :=
  ⟨by rw [e.symCount]; exact h.some1, by rw [e.hsize]; exact h.emptied, by rw [e.nnodes, e.symCount]; exact h.size,
    by rw [e.root, e.nnodes]; exact h.rootIs, by rw [e.symCount, e.nnodes]; exact h.arena.congr e⟩

theorem Emitted.congr (h : Emitted s) (e : SameTree s t) : Emitted t := by
  intro j hj
  obtain ⟨i, f, h1, h2, h3⟩ := h j (e.outLen ▸ hj)
  exact ⟨i, f, by rw [e.symCount]; exact h1, by rw [e.ft]; exact h2, by rw [e.outBuf]; exact h3⟩

theorem Matches.congr {m : Nat} (h : Matches s m) (e : SameTree s t) : Matches t m := by
  intro i hi
  obtain ⟨f, h1, h2⟩ := h i hi
  exact ⟨f, by rw [e.ft]; exact h1, by rw [e.occurrences, e.outLen]; exact h2⟩

theorem Tallied.congr {m : Nat} (h : Tallied s m) (e : SameTree s t) (ho : t.obs = s.obs) : Tallied t m := by
  intro x
  obtain ⟨v, h1, h2⟩ := h x
  exact ⟨v, by rw [ho]; exact h1, by rw [e.occurrences]; exact h2⟩

theorem Decoded.congr (h : Decoded s) (e : SameTree s t) (hc : t.cursor = s.cursor) (hp : t.packedBits = s.packedBits) :
    Decoded t := by
  refine ⟨by rw [e.symCount]; exact h.table.congr e, h.tree.congr e, h.emitted.congr e, ?_, ?_⟩
  · rw [e.symCount, hc, hp]; exact h.general
  · have : countOf t = countOf s := by funext i; simp [countOf, e.ft]
    rw [e.symCount, hc, e.outLen, this]; exact h.single

/-- The two states record the same error. -/
structure SameError (s t : State) : Prop where
  errCode : t.errCode = s.errCode
  errSub : t.errSub = s.errSub
  errSym : t.errSym = s.errSym
  errDeclared : t.errDeclared = s.errDeclared
  errObserved : t.errObserved = s.errObserved
  errCursor : t.errCursor = s.errCursor

theorem NoError.congr (h : NoError s) (f : SameError s t) : NoError t := by
  unfold NoError
  rw [f.errCode, f.errSub, f.errSym, f.errDeclared, f.errObserved, f.errCursor]
  exact h

theorem NoMismatch.congr (h : NoMismatch s) (f : SameError s t) : NoMismatch t := by
  unfold NoMismatch
  rw [f.errSym, f.errDeclared, f.errObserved]
  exact h

theorem ErrorRecord.congr (h : ErrorRecord s) (e : SameTree s t) (f : SameError s t) (hv : t.validateEn = s.validateEn)
    (hc : t.cursor = s.cursor) (hp : t.packedBits = s.packedBits) : ErrorRecord t := by
  cases h with
  | format h1 h2 h3 h4 h5 h6 =>
    exact .format (f.errCode.trans h1) (by rw [f.errSub]; exact h2) (by rw [f.errSub]; exact h3) (h4.congr f)
      (f.errCursor.trans h5) (e.outLen.trans h6)
  | midCode h1 h2 h3 h4 h5 h6 =>
    exact .midCode (f.errCode.trans h1) (f.errSub.trans h2) (h3.congr f) (by rw [f.errCursor, hc]; exact h4)
      (by rw [hc, hp]; exact h5) (h6.congr e)
  | mismatch h1 h2 h3 h4 h5 i g h6 h7 h8 h9 h10 h11 h12 =>
    exact .mismatch (f.errCode.trans h1) (f.errSub.trans h2) (f.errCursor.trans h3) (hv.trans h4) (h5.congr e hc hp) i g
      (by rw [e.symCount]; exact h6) (by rw [e.ft]; exact h7) (f.errSym.trans h8) (f.errDeclared.trans h9)
      (by rw [f.errObserved, e.occurrences, e.outLen]; exact h10) (by rw [f.errObserved, f.errDeclared]; exact h11)
      (h12.congr e)
  | tooManySymbols h1 h2 h3 h4 h5 h6 =>
    exact .tooManySymbols (f.errCode.trans h1) (f.errSub.trans h2) (h3.congr f) (f.errCursor.trans h4)
      (by rw [e.cfg, e.symCount]; exact h5) (e.outLen.trans h6)
  | outputFull h1 h2 h3 h4 h5 h6 =>
    exact .outputFull (f.errCode.trans h1) (f.errSub.trans h2) (h3.congr f) (f.errCursor.trans h4)
      (by rw [e.outLen, e.cfg]; exact h5) (h6.congr e)

/-- What holds at each phase depends only on the data of the block; on `IN_LEN` only while the block is BUSY. -/
theorem PhaseInv.congr (h : PhaseInv s) (hph : t.phase = s.phase) (e : SameTree s t) (f : SameError s t)
    (hv : t.validateEn = s.validateEn) (hi : t.idx = s.idx) (hc : t.cursor = s.cursor) (hw : t.walk = s.walk)
    (hp : t.packedBits = s.packedBits) (hy : t.packedBytes = s.packedBytes) (hb : t.payloadBase = s.payloadBase)
    (ho : t.obs = s.obs) (hl : t.inLen = s.inLen ∨ busy s = false) : PhaseInv t := by
  have inside : busy s = true → TableInside s → TableInside t := fun hbs hin => by
    unfold TableInside entriesEnd
    rw [e.symCount, hl.resolve_right (by simp [hbs])]
    exact hin
  have countEq : countOf t = countOf s := by funext i; simp [countOf, e.ft]
  unfold PhaseInv at h ⊢
  rw [hph]
  cases hs : s.phase <;> simp only [hs] at h ⊢
  · exact h.congr f
  · exact ⟨h.1.congr f, e.outLen.trans h.2⟩
  · obtain ⟨h1, h2, h3, h4, h5⟩ := h
    rw [hi, e.symCount]
    exact ⟨h1.congr f, e.outLen.trans h2, inside (by simp [busy, hs, runState]) h3, h4.congr e, h5⟩
  · obtain ⟨h1, h2, h3, h4⟩ := h
    rw [e.symCount]
    exact ⟨h1.congr f, e.outLen.trans h2, inside (by simp [busy, hs, runState]) h3, h4.congr e⟩
  · obtain ⟨h1, h2, h3, h4, h5, h6, h7⟩ := h
    rw [hi, e.symCount, e.nnodes]
    exact ⟨h1.congr f, e.outLen.trans h2, inside (by simp [busy, hs, runState]) h3, h4.congr e, h5, h6, h7.congr e⟩
  · obtain ⟨h1, h2, h3, h4, h5, h6⟩ := h
    rw [e.symCount, e.hsize]
    exact ⟨h1.congr f, e.outLen.trans h2, inside (by simp [busy, hs, runState]) h3, h4.congr e, h5, h6.congr e⟩
  · obtain ⟨h1, h2, h3, h4, h5, h6⟩ := h
    rw [e.symCount, e.hsize]
    exact ⟨h1.congr f, e.outLen.trans h2, inside (by simp [busy, hs, runState]) h3, h4.congr e, h5, h6.congr e⟩
  · obtain ⟨h1, h2, h3, h4, h5⟩ := h
    rw [e.symCount]
    exact ⟨h1.congr f, e.outLen.trans h2, inside (by simp [busy, hs, runState]) h3, h4.congr e, h5.congr e⟩
  · obtain ⟨h1, h2, h3, h4, h5, h6, h7, h8, h9, h10⟩ := h
    have hlen := hl.resolve_right (by simp [busy, hs, runState])
    rw [e.symCount, hw, hc, hp, e.root, e.nnodes, e.outLen]
    refine ⟨h1.congr f, h2.congr e, h3.congr e, ⟨?_, ?_, ?_⟩, h5.congr e, h6, h7, h8, h9, h10⟩
    · unfold entriesEnd; rw [hb, e.symCount]; exact h4.base
    · rw [hb, hy, hlen]; exact h4.bytes
    · rw [hp, hy]; exact h4.bits
  · obtain ⟨h1, h2, h3, h4, h5, h6, h7, h8⟩ := h
    rw [e.symCount, hc, e.outLen, hi, countEq]
    exact ⟨h1.congr f, h2.congr e, h3.congr e, h4.congr e, h5, h6, h7, h8⟩
  · exact ⟨h.1.congr f, h.2.1.congr e hc hp, hv.trans h.2.2⟩
  · obtain ⟨h1, h2, h3, h4, h5⟩ := h
    rw [hi, e.outLen]
    exact ⟨h1.congr f, h2.congr e hc hp, hv.trans h3, h4, h5.congr e ho⟩
  · obtain ⟨h1, h2, h3, h4, h5, h6⟩ := h
    rw [hi, e.outLen, e.symCount]
    exact ⟨h1.congr f, h2.congr e hc hp, hv.trans h3, h4, h5.congr e ho, h6.congr e⟩
  · obtain ⟨h1, h2, h3⟩ := h
    rw [hv, e.symCount]
    exact ⟨h1.congr f, h2.congr e hc hp, fun q => (h3 q).congr e⟩
  · exact h.congr e f hv hc hp

end Sys2Proof.Machine
end

