-- ==== Sys2Proof/Laws/PerInstr.lean ====
section
/-! SUPPORT. What is proved of every operation as syntax, one lemma per constructor: its code stands in the format the opcode
table gives it (rule R90). -/

namespace Sys2Proof.Laws.CodeFormat

/-- The code of an operation is in its row's format. -/
def Statement (i : Instr) : Prop := (encode i).format = i.format

theorem go (validate : Bool) : Statement (.go validate) := rfl
theorem idle : Statement .idle := rfl
theorem ftHdr : Statement .ftHdr := rfl
theorem ftEnt : Statement .ftEnt := rfl
theorem tbInit : Statement .tbInit := rfl
theorem tbLeaf : Statement .tbLeaf := rfl
theorem tbMerge : Statement .tbMerge := rfl
theorem tbRoot : Statement .tbRoot := rfl
theorem bsHdr : Statement .bsHdr := rfl
theorem bsBit : Statement .bsBit := rfl
theorem bsRun1 : Statement .bsRun1 := rfl
theorem vlInit : Statement .vlInit := rfl
theorem vlTally : Statement .vlTally := rfl
theorem vlCmp : Statement .vlCmp := rfl
theorem haltDone : Statement .haltDone := rfl
theorem haltErr : Statement .haltErr := rfl
theorem pqSize : Statement .pqSize := rfl
theorem pqPush (k : Nat) : Statement (.pqPush k) := rfl
theorem pqPop : Statement .pqPop := rfl

end Sys2Proof.Laws.CodeFormat
end

