-- ==== Sys2Proof/Tests/Slice0.lean ====
section
/-! SUPPORT. Tests. Expected values come from the spec's worked examples, cited at each test. -/

namespace Sys2Proof.Tests

open Sys2Proof Sys2Proof.Machine

/-! Small states. -/

/-- A small block. -/
def small : Config where
  maxSyms := 4
  inCap := 64
  outCap := 2
  byteOrder := .little
  tieChild := .left
  siftStop := .strict

def base : State := State.resetWith small

/-- The host has placed these bytes and their number. -/
def placed (bytes : List Nat) (s : State) : State :=
  { s with
    inBuf := bytes.zipIdx.map fun p => (p.2, BitVec.ofNat 8 p.1)
    inLen := BitVec.ofNat 64 bytes.length }

/-- The image of rules R141 and R181: three entries A:2, B:1, C:1, six payload bits `010011`. -/
def abac : List Nat :=
  [0x31, 0, 0, 0, 0, 0, 0, 0, 3, 0, 0, 0] ++
  [2, 0, 0, 0, 0x41, 0, 0, 0] ++ [1, 0, 0, 0, 0x42, 0, 0, 0] ++ [1, 0, 0, 0, 0x43, 0, 0, 0] ++
  [6, 0, 0, 0, 1, 0, 0, 0, 4, 0, 0, 0] ++ [0x4C]

/-- The table of rule R142. -/
def abcTable : Store FtEntry := [(0, ⟨2, 0x41⟩), (1, ⟨1, 0x42⟩), (2, ⟨1, 0x43⟩)]

/-- The tree of rule R163. -/
def abcNodes : Store TreeNode :=
  [(0, ⟨true, 2, 0x41, none, none⟩), (1, ⟨true, 1, 0x42, none, none⟩), (2, ⟨true, 1, 0x43, none, none⟩),
   (3, ⟨false, 2, 0, some 1, some 2⟩), (4, ⟨false, 4, 0, some 0, some 3⟩)]

/-- The state of rule R182's example as the walk starts. -/
def walking : State :=
  { placed abac base with
    phase := .bsBit, symCount := 3, packedBits := 6, packedBytes := 1, payloadBase := 48, walk := some 4, root := some 4,
    nnodes := 5, node := abcNodes, ft := abcTable }

/-- A single leaf of count 3, as in rule R183's example. -/
def single : State :=
  { base with
    phase := .bsRun1, symCount := 1, root := some 0, nnodes := 1, node := [(0, ⟨true, 3, 0x58, none, none⟩)],
    ft := [(0, ⟨3, 0x58⟩)], cfg := { small with outCap := 3 } }

/-- Leaves with the given frequencies, and a heap of the given nodes. -/
def heapOf (freqs : List Nat) (nodes : List Nat) : State :=
  { base with
    cfg := { small with maxSyms := 8 }
    nnodes := freqs.length
    node := freqs.zipIdx.map fun p => (p.2, ⟨true, BitVec.ofNat 64 p.1, 0, none, none⟩)
    hsize := nodes.length
    heap := nodes.zipIdx.map fun p => (p.2, p.1) }

/-- The outcome is a next state of which the check holds. -/
def nextIs (o : Host.Outcome State Fault Refusal) (check : State → Bool) : Bool :=
  match o with
  | .next t => check t
  | .fault _ => false
  | .refused _ => false

/-- The heap of a state, in position order. -/
def heapList (s : State) : List (Option Nat) := (List.range s.hsize).map (Store.read s.heap)

/-! Well-formedness: the operand of `PQ.PUSH` is a node index, `0 .. 2*MAX_SYMS - 2` (rules R8, R100). -/

theorem test_wellFormed_last_node : Instr.wellFormed Config.ofReset (.pqPush 510) = true := by decide
theorem test_illFormed_node : Instr.wellFormed Config.ofReset (.pqPush 511) = false := by decide
theorem test_wellFormed_others : Instr.wellFormed small .bsBit = true ∧ Instr.wellFormed small (.go true) = true := by decide

/-! Decoding: the words of rules R98 to R100, written out bit by bit. -/

theorem test_decode_go : decodeTableWord 32 0b00000000000000000000000000000001 = some (.go false) := by decide
theorem test_decode_go_validate : decodeTableWord 32 0b11111111111111111111111111111111 = some (.go true) := by decide
theorem test_decode_no_command : decodeTableWord 32 0b11111111111111111111111111111110 = none := by decide
theorem test_decode_idle : decodeTableWord 4 0b0000 = some .idle := by decide
theorem test_decode_ftHdr : decodeTableWord 4 0b0001 = some .ftHdr := by decide
theorem test_decode_ftEnt : decodeTableWord 4 0b0010 = some .ftEnt := by decide
theorem test_decode_tbInit : decodeTableWord 4 0b0011 = some .tbInit := by decide
theorem test_decode_tbLeaf : decodeTableWord 4 0b0100 = some .tbLeaf := by decide
theorem test_decode_tbMerge : decodeTableWord 4 0b0101 = some .tbMerge := by decide
theorem test_decode_tbRoot : decodeTableWord 4 0b0110 = some .tbRoot := by decide
theorem test_decode_bsHdr : decodeTableWord 4 0b0111 = some .bsHdr := by decide
theorem test_decode_bsBit : decodeTableWord 4 0b1000 = some .bsBit := by decide
theorem test_decode_bsRun1 : decodeTableWord 4 0b1001 = some .bsRun1 := by decide
theorem test_decode_vlInit : decodeTableWord 4 0b1010 = some .vlInit := by decide
theorem test_decode_vlTally : decodeTableWord 4 0b1011 = some .vlTally := by decide
theorem test_decode_vlCmp : decodeTableWord 4 0b1100 = some .vlCmp := by decide
theorem test_decode_haltDone : decodeTableWord 4 0b1101 = some .haltDone := by decide
theorem test_decode_haltErr : decodeTableWord 4 0b1110 = some .haltErr := by decide
theorem test_decode_reserved_phase : decodeTableWord 4 0b1111 = none := by decide
theorem test_decode_pqSize : decodeTableWord 2 0b00 = some .pqSize := by decide
theorem test_decode_pqPush : decodeTableWord 2 0b01 = some (.pqPush 0) := by decide
theorem test_decode_pqPop : decodeTableWord 2 0b10 = some .pqPop := by decide
theorem test_decode_reserved_request : decodeTableWord 2 0b11 = none := by decide

/-- R9: the parameters of `State.reset` take the decided policies. -/
theorem test_reset_policies : Config.ofReset.Decided := by decide

/-! One step each. -/

/-- R216, example: `CTRL` = 3 while IDLE. -/
theorem test_go : nextIs (hostAct (.writeReg 0 3) { base with outLen := 7, errCode := 3 }) (fun t =>
    t.validateEn && t.phase == .ftHdr && t.outLen == 0 && t.errCode == 0) = true := by decide

/-- R141, example. -/
theorem test_ftHdr : nextIs (exec .ftHdr { placed abac base with phase := .ftHdr }) (fun t =>
    t.hdrTotalLen == 49 && t.hdrReserved == 0 && t.symCount == 3 && t.phase == .ftEnt) = true := by decide

/-- R141, corner case: `IN_LEN` = 12 and `SYM_COUNT` = 0 is no error of the reader. -/
theorem test_ftHdr_zero : nextIs (exec .ftHdr (placed [0, 0, 0, 0, 0, 0, 0, 0, 0, 0, 0, 0] base)) (fun t =>
    t.errCode == 0 && t.phase == .tbInit) = true := by decide

/-- R142, example, the last entry. -/
theorem test_ftEnt : nextIs (exec .ftEnt { placed abac base with symCount := 3, idx := 2 }) (fun t =>
    Store.read t.ft 2 == some ⟨1, 0x43⟩ && t.idx == 3 && t.phase == .tbInit) = true := by decide

/-- R161, the error: `FormatError(ZERO_SYMS)`. -/
theorem test_tbInit_zero : nextIs (exec .tbInit { base with symCount := 0 }) (fun t =>
    t.errCode == 1 && t.errSub == 3 && t.phase == .haltErr) = true := by decide

/-- R162, example, `IDX` = 2: heap `[1, 0, 2]`. -/
theorem test_tbLeaf : nextIs (exec .tbLeaf { base with
      symCount := 3, idx := 2, nnodes := 2, ft := abcTable, node := abcNodes.take 2, hsize := 2, heap := [(0, 1), (1, 0)] })
    (fun t => heapList t == [some 1, some 0, some 2] && t.nnodes == 3 && t.phase == .tbMerge) = true := by decide

/-- R163, example, the first merge: node 3 over 1 and 2, heap `[0, 3]`. -/
theorem test_tbMerge : nextIs (exec .tbMerge { base with
      nnodes := 3, node := abcNodes.take 3, hsize := 3, heap := [(0, 1), (1, 0), (2, 2)] })
    (fun t => Store.read t.node 3 == some ⟨false, 2, 0, some 1, some 2⟩ && heapList t == [some 0, some 3] &&
      t.phase == .tbMerge) = true := by decide

/-- R164, example. -/
theorem test_tbRoot : nextIs (exec .tbRoot { base with nnodes := 5, node := abcNodes, hsize := 1, heap := [(0, 4)] }) (fun t =>
    t.root == some 4 && t.hsize == 0 && t.phase == .bsHdr) = true := by decide

/-- R181, example. -/
theorem test_bsHdr : nextIs (exec .bsHdr { placed abac base with symCount := 3, root := some 4, nnodes := 5, node := abcNodes })
    (fun t => t.packedBits == 6 && t.packedBytes == 1 && t.unpackedBytes == 4 && t.payloadBase == 48 &&
      t.walk == some 4 && t.phase == .bsBit) = true := by decide

/-- R182, example, the first bit: 'A' is emitted. -/
theorem test_bsBit_emits : nextIs (exec .bsBit walking) (fun t =>
    Store.read t.outBuf 0 == some 0x41 && t.outLen == 1 && t.cursor == 1 && t.walk == some 4) = true := by decide

/-- R182, example, the second bit: to node 3. -/
theorem test_bsBit_moves : nextIs (exec .bsBit { walking with cursor := 1 }) (fun t =>
    t.walk == some 3 && t.cursor == 2 && t.outLen == 0 && t.phase == .bsBit) = true := by decide

/-- R183, example, the first symbol. -/
theorem test_bsRun1_emits : nextIs (exec .bsRun1 single) (fun t =>
    Store.read t.outBuf 0 == some 0x58 && t.idx == 1 && t.cursor == 0 && t.phase == .bsRun1) = true := by decide

/-- R183, example, the fourth execution ends the decode. -/
theorem test_bsRun1_ends : nextIs (exec .bsRun1 { single with idx := 3, outLen := 3 }) (fun t =>
    t.outLen == 3 && t.phase == .haltDone) = true := by decide

/-- R201, example: `OUT_LEN` = 4. -/
theorem test_vlInit : nextIs (exec .vlInit { base with outLen := 4 }) (fun t =>
    Store.read t.obs 255 == some 0 && t.phase == .vlTally) = true := by decide +kernel

/-- R202, example "ABAC", the last byte. -/
theorem test_vlTally : nextIs (exec .vlTally { base with
      outLen := 4, idx := 3, outBuf := [(0, 0x41), (1, 0x42), (2, 0x41), (3, 0x43)], obs := [(0x41, 2), (0x42, 1), (0x43, 0)] })
    (fun t => Store.read t.obs 0x43 == some 1 && t.idx == 0 && t.phase == .vlCmp) = true := by decide

/-- R203, example "AAAA": declared 2, observed 4. -/
theorem test_vlCmp_mismatch : nextIs (exec .vlCmp { base with
      symCount := 3, ft := abcTable, obs := [(0x41, 4), (0x42, 0), (0x43, 0)] })
    (fun t => t.errCode == 3 && t.errSym == 0x41 && t.errDeclared == 2 && t.errObserved == 4) = true := by decide

/-- R203, example "ABAC", the last entry. -/
theorem test_vlCmp_done : nextIs (exec .vlCmp { base with
      symCount := 3, idx := 2, ft := abcTable, obs := [(0x41, 2), (0x42, 1), (0x43, 1)] })
    (fun t => t.errCode == 0 && t.phase == .haltDone) = true := by decide

/-- R122, the example's count. -/
theorem test_pqSize : nextIs (exec .pqSize (heapOf [3, 5] [0, 1])) (fun t => t.pqAns == some 2) = true := by decide

/-- R123, example: frequencies `[3, 5, 8]`, push 1, then `[1, 3, 8, 5]`. -/
theorem test_pqPush : nextIs (exec (.pqPush 3) (heapOf [3, 5, 8, 1] [0, 1, 2])) (fun t =>
    heapList t == [some 3, some 0, some 2, some 1]) = true := by decide

/-- R124, example: nodes `[3, 1, 5, 0, 4, 2]` with frequencies `[1, 3, 1, 5, 3, 8]`. -/
theorem test_pqPop : nextIs (exec .pqPop (heapOf [5, 3, 8, 1, 3, 1] [3, 1, 5, 0, 4, 2])) (fun t =>
    t.pqAns == some 3 && heapList t == [some 5, some 1, some 2, some 0, some 4]) = true := by decide

/-- R219 to R221: a resting block stays. -/
theorem test_rests : nextIs (step { base with phase := .haltDone }) (fun t => t == { base with phase := .haltDone }) = true := by
  decide

/-- R23: a read of `STATUS` after a mismatch with `VAL` = 1: bits 15, 14:11 = 1, 10:8 = 3, 7:4 = 14, 1:0 = 3. -/
theorem test_status : hostReadReg { base with phase := .haltErr, validateEn := true, errCode := 3, errSub := 1 } 1 =
    0b1000101111100011 := by decide

/-! Witnesses: for each statement with hypotheses, and each of its clauses, a state and operands that meet all of them. -/

/-- The outcome of a check is a next state. -/
theorem next_of {o : Host.Outcome State Fault Refusal} {check : State → Bool} (h : nextIs o check = true) :
    ∃ t, o = .next t ∧ check t = true := by
  cases o with
  | next t => exact ⟨t, rfl, h⟩
  | fault f => cases h
  | refused r => cases h

/-- `k` steps end in a state of which the check holds. -/
def endsIn (k : Nat) (s : State) (check : State → Bool) : Bool :=
  match stepN k s with
  | some t => check t
  | none => false

theorem run_of {k : Nat} {s : State} {check : State → Bool} (h : endsIn k s check = true) :
    ∃ t, stepN k s = some t ∧ check t = true := by
  unfold endsIn at h
  split at h
  · exact ⟨_, ‹_›, h⟩
  · cases h

/-- A check that every occupied heap position holds an existing node. -/
def filled (s : State) : Bool :=
  (List.range s.hsize).all fun j => (Store.read s.heap j).any fun k => decide (k < s.nnodes) && (Store.read s.node k).isSome

theorem filled_of {s : State} (h : filled s = true) : HeapFilled s := by
  intro j hj
  have := List.all_eq_true.mp h j (List.mem_range.mpr hj)
  obtain ⟨k, hk, hb⟩ := Option.any_eq_true _ _ |>.mp this
  simp only [Bool.and_eq_true, decide_eq_true_eq, Option.isSome_iff_exists] at hb
  obtain ⟨h1, n, h2⟩ := hb
  exact ⟨k, n, hk, h1, h2⟩

theorem witness_CommandWordsDecode : 0xFFFFFFFD#32 &&& 1#32 = 1#32 ∧ 0xFFFFFFFE#32 &&& 1#32 = 0#32 := by decide

theorem witness_DecoderAndEncoderAgree : decode (.cmd 0xFFFFFFFD#32) = .ok (.go false) ∧ decode (.seq 14#4) = .ok .haltErr ∧
    decode (.pq 2#2 7) = .ok .pqPop ∧ decode (.pq 1#2 510) = .ok (.pqPush 510) := ⟨rfl, rfl, rfl, rfl⟩

/-- A block with each kind of next move. -/
def moving (inputs : List Input) (port : Option PqRequest) : State := { base with inputs := inputs, pqPort := port }

theorem witness_StepRunsDecodedOperation_phase :
    (moving [] none).inputs = [] ∧ (moving [] none).pqPort = none ∧
      decode (.seq (phaseCode (moving [] none).phase)) = .ok .idle := ⟨rfl, rfl, rfl⟩

theorem witness_StepRunsDecodedOperation_block :
    (moving [.block, .host .reset] none).inputs = .block :: [.host .reset] ∧
      (moving [.block, .host .reset] none).pqPort = none ∧
      decode (.seq (phaseCode (moving [.block, .host .reset] none).phase)) = .ok .idle := ⟨rfl, rfl, rfl⟩

theorem witness_StepRunsDecodedOperation_port :
    (moving [] (some (.push 3))).inputs = [] ∧ (moving [] (some (.push 3))).pqPort = some (.push 3) ∧
      decode (requestCode (.push 3)) = .ok (.pqPush 3) := ⟨rfl, rfl, rfl⟩

theorem witness_StepRunsDecodedOperation_blockPort :
    (moving [.block] (some .pop)).inputs = .block :: [] ∧ (moving [.block] (some .pop)).pqPort = some .pop ∧
      decode (requestCode .pop) = .ok .pqPop := ⟨rfl, rfl, rfl⟩

theorem witness_StepRunsDecodedOperation_host :
    (moving [.host (.writeReg 0 3)] none).inputs = .host (.writeReg 0 3) :: [] ∧
      decode (.cmd ((3 : Word64).setWidth 32)) = .ok (.go true) := ⟨rfl, rfl⟩

theorem witness_PlacedWordRuns :
    (decodeTableWord 32 1 = some (.go false) ∧ tableCode 32 1 = .cmd 1#32) ∧
    (decodeTableWord 4 14 = some .haltErr ∧ tableCode 4 14 = .seq 14#4) ∧
    (decodeTableWord 2 2 = some .pqPop ∧ tableCode 2 2 = .pq 2#2 0) := by decide

theorem witness_CommandWriteStartsRun :
    (2 : Word64).getLsbD 0 = false ∧
    ((1 : Word64).getLsbD 0 = true ∧ runState { base with phase := .vlCmp }.phase = .busy) ∧
    ((3 : Word64).getLsbD 0 = true ∧ runState base.phase ≠ .busy) := by decide

theorem witness_GoCompletes : runState { base with phase := .haltErr }.phase ≠ .busy ∧
    runState { base with phase := .ftHdr }.phase = .busy := by decide

theorem witness_RestingOperationsChangeNothing :
    base.inputs = [] ∧ base.pqPort = none ∧ (base.phase = .idle ∨ base.phase = .haltDone ∨ base.phase = .haltErr) := by decide

theorem witness_OnlyGoOrResetLeavesRest : ∃ t, base.pqPort = none ∧ base.phase = .idle ∧
    step { base with inputs := [.host (.writeReg 0 1)] } = .next t ∧ (t.phase == .ftHdr) = true := by
  obtain ⟨t, h, hc⟩ := next_of (o := step { base with inputs := [.host (.writeReg 0 1)] }) (check := fun t => t.phase == .ftHdr)
    (by decide)
  exact ⟨t, rfl, rfl, h, hc⟩

theorem witness_HostReadsAtRest :
    runState base.phase ≠ .busy ∧
    (∃ n v, n = 0 ∧ v = (0 : Word64)) ∧
    (∃ (n : Nat) (v : Word64), n = 13 ∧ v = base.unpackedBytes.setWidth 64) ∧
    (∃ (n : Nat) (v : Word64), 14 ≤ n ∧ v = 0) := ⟨by decide, ⟨_, _, rfl, rfl⟩, ⟨_, _, rfl, rfl⟩, ⟨14, _, by decide, rfl⟩⟩

theorem witness_HostReadsAtRest_buffers :
    runState { base with outLen := 1, outBuf := [(0, 0x41)], inBuf := [(63, 0x42)] }.phase ≠ .busy ∧
    (0 < ({ base with outLen := 1, outBuf := [(0, 0x41)] } : State).outLen.toNat ∧
      Store.read ({ base with outBuf := [(0, 0x41)] } : State).outBuf 0 = some 0x41) ∧
    (63 < base.cfg.inCap ∧ Store.read ({ base with inBuf := [(63, 0x42)] } : State).inBuf 63 = some 0x42) := by decide

theorem witness_StatusReadWhileBusy : runState { base with phase := .bsBit }.phase = .busy ∧ 14 ≤ 14 := by decide

theorem witness_HostWrites :
    (1 ≠ 0 ∧ 1 ≠ 2) ∧ (14 ≠ 0 ∧ 14 ≠ 2) ∧ runState base.phase ≠ .busy ∧ 63 < base.cfg.inCap ∧ base.cfg.inCap ≤ 64 ∧
    runState { base with phase := .vlCmp }.phase = .busy := by decide

theorem witness_WordByteOrder : 45 + 4 ≤ (placed abac base).inLen.toNat ∧ base.cfg.byteOrder = .little ∧
    ({ placed abac base with cfg := { small with byteOrder := .big } } : State).cfg.byteOrder = .big ∧
    45 + 4 ≤ ({ placed abac base with cfg := { small with byteOrder := .big } } : State).inLen.toNat := by decide

theorem witness_PayloadBitOrder :
    walking.payloadBase.toNat + (walking.cursor >>> 3).toNat < walking.inLen.toNat ∧
    walking.payloadBase.toNat + (walking.cursor >>> 3).toNat + 1 = walking.inLen.toNat := by decide

/-- A header that says `n` symbols, in an input of `len` bytes. -/
def header (n len : Nat) : State := { placed [0, 0, 0, 0, 0, 0, 0, 0, n, 0, 0, 0] base with inLen := BitVec.ofNat 64 len }

theorem witness_FtHdrEffect_hdrTrunc : (header 1 11).inLen.toNat < 12 := by decide
theorem witness_FtHdrEffect_entTrunc : 12 ≤ (header 1 19).inLen.toNat ∧
    (header 1 19).inLen.toNat < 12 + 8 * (inWord (header 1 19) 8).toNat := by decide
theorem witness_FtHdrEffect_syms : 12 + 8 * (inWord (header 5 52) 8).toNat ≤ (header 5 52).inLen.toNat ∧
    (header 5 52).cfg.maxSyms < (inWord (header 5 52) 8).toNat := by decide
theorem witness_FtHdrEffect_none : 12 + 8 * (inWord (header 0 12) 8).toNat ≤ (header 0 12).inLen.toNat ∧
    (inWord (header 0 12) 8).toNat ≤ (header 0 12).cfg.maxSyms ∧ inWord (header 0 12) 8 = 0 := by decide
theorem witness_FtHdrEffect_some : 12 + 8 * (inWord (header 4 44) 8).toNat ≤ (header 4 44).inLen.toNat ∧
    (inWord (header 4 44) 8).toNat ≤ (header 4 44).cfg.maxSyms ∧ inWord (header 4 44) 8 ≠ 0 := by decide

theorem witness_FtEntEffect : ∃ s : State, s = { placed abac base with symCount := 3, idx := 2 } ∧
    s.idx.toNat < s.symCount.toNat ∧ s.idx.toNat < s.cfg.maxSyms ∧ 12 + 8 * s.idx.toNat + 5 ≤ s.inLen.toNat :=
  ⟨_, rfl, by decide⟩

theorem witness_PqPushEffect : ∃ s : State, s = heapOf [3, 5, 8, 1] [0, 1, 2] ∧ HeapFilled s ∧ 3 < s.nnodes ∧
    (∃ n, Store.read s.node 3 = some n) ∧ (∀ j, j < s.hsize → Store.read s.heap j ≠ some 3) ∧ s.hsize < s.cfg.maxSyms :=
  ⟨_, rfl, filled_of (by decide), by decide, ⟨_, rfl⟩, by decide, by decide⟩

theorem witness_PqPopEffect : ∃ s : State, s = heapOf [5, 3, 8, 1, 3, 1] [3, 1, 5, 0, 4, 2] ∧ HeapFilled s ∧ 1 ≤ s.hsize ∧
    s.cfg.tieChild = .left ∧ s.cfg.siftStop = .strict := ⟨_, rfl, filled_of (by decide), by decide, rfl, rfl⟩

theorem witness_PqPopEffect_last : ∃ s : State, s = heapOf [5] [0] ∧ HeapFilled s ∧ 1 ≤ s.hsize ∧
    s.cfg.tieChild = .left ∧ s.cfg.siftStop = .strict := ⟨_, rfl, filled_of (by decide), by decide, rfl, rfl⟩

theorem witness_HeapInvariantKept_push : ∃ s t : State, s = heapOf [3, 5, 8, 1] [0, 1, 2] ∧ HeapFilled s ∧ HeapOrdered s ∧
    (heapNodes s).Nodup ∧ (∃ n, Store.read s.node 3 = some n) ∧ exec (.pqPush 3) s = .next t := by
  obtain ⟨t, h, -⟩ := next_of test_pqPush
  refine ⟨_, t, rfl, filled_of (by decide), ?_, by decide, ⟨_, rfl⟩, h⟩
  intro j h1 h2
  have h3 : j < 3 := h2
  revert h1
  revert j
  decide

theorem witness_HeapInvariantKept_pop : ∃ s t : State, s = heapOf [5, 3, 8, 1, 3, 1] [3, 1, 5, 0, 4, 2] ∧ HeapFilled s ∧
    HeapOrdered s ∧ (heapNodes s).Nodup ∧ exec .pqPop s = .next t := by
  obtain ⟨t, h, -⟩ := next_of test_pqPop
  refine ⟨_, t, rfl, filled_of (by decide), ?_, by decide, h⟩
  intro j h1 h2
  have h3 : j < 6 := h2
  revert h1
  revert j
  decide

theorem witness_PqRequestsStop :
    base.hsize = 0 ∧ (heapOf [3] []).nnodes ≤ 1 ∧
    (0 < (heapOf [3] [0]).hsize ∧ Store.read (heapOf [3] [0]).heap 0 = some 0) := by decide

theorem witness_PqRequestsStop_full : ∃ s : State, s = { heapOf [1, 1, 1, 1, 1] [0, 1, 2, 3] with cfg := small } ∧
    4 < s.nnodes ∧ (∀ j, j < s.hsize → Store.read s.heap j ≠ some 4) ∧ s.cfg.maxSyms ≤ s.hsize := ⟨_, rfl, by decide⟩

theorem witness_TbInitEffect : base.symCount = 0 ∧ ({ base with symCount := 1 } : State).symCount ≠ 0 := by decide

/-- The state of rule R162's example before its last leaf. -/
def lastLeaf : State :=
  { base with symCount := 3, idx := 2, nnodes := 2, ft := abcTable, node := abcNodes.take 2, hsize := 2, heap := [(0, 1), (1, 0)] }

theorem witness_TbLeafEffect : lastLeaf.idx.toNat < lastLeaf.symCount.toNat ∧
    lastLeaf.symCount.toNat ≤ lastLeaf.cfg.maxSyms ∧ lastLeaf.nnodes = lastLeaf.idx.toNat ∧
    Store.read lastLeaf.ft lastLeaf.idx.toNat = some ⟨1, 0x43⟩ ∧ HeapFilled lastLeaf ∧ lastLeaf.hsize < lastLeaf.cfg.maxSyms :=
  ⟨by decide, by decide, by decide, by decide, filled_of (by decide), by decide⟩

/-- The state of rule R163's example before its first merge. -/
def firstMerge : State := { base with nnodes := 3, node := abcNodes.take 3, hsize := 3, heap := [(0, 1), (1, 0), (2, 2)] }

theorem witness_TbMergeEffect : 2 ≤ firstMerge.hsize ∧ HeapFilled firstMerge ∧ firstMerge.hsize ≤ firstMerge.cfg.maxSyms ∧
    firstMerge.nnodes + 1 < 2 * firstMerge.cfg.maxSyms ∧ firstMerge.cfg.tieChild = .left ∧ firstMerge.cfg.siftStop = .strict :=
  ⟨by decide, filled_of (by decide), by decide, by decide, rfl, rfl⟩

theorem witness_TbRootEffect : ∃ s : State, s = { base with nnodes := 5, node := abcNodes, hsize := 1, heap := [(0, 4)] } ∧
    s.hsize = 1 ∧ Store.read s.heap 0 = some 4 := ⟨_, rfl, by decide⟩

/-- The image of rule R181's example before its body header is read, cut or padded to `len` bytes. -/
def body (len : Nat) : State :=
  { placed abac base with symCount := 3, root := some 4, nnodes := 5, node := abcNodes, inLen := BitVec.ofNat 64 len }

theorem witness_BsHdrEffect_bodyTrunc : (body 47).inLen.toNat < 12 + 8 * (body 47).symCount.toNat + 12 := by decide
theorem witness_BsHdrEffect_payloadTrunc : 36 + 12 ≤ (body 48).inLen.toNat ∧
    (body 48).inLen.toNat < 36 + 12 + (inWord (body 48) 40).toNat := by decide
theorem witness_BsHdrEffect_bitsExceed : ∃ s : State,
    s = { placed (abac.take 36 ++ [9, 0, 0, 0, 1, 0, 0, 0, 4, 0, 0, 0, 0x4C]) base with symCount := 3 } ∧
    36 + 12 + (inWord s 40).toNat ≤ s.inLen.toNat ∧ 8 * (inWord s 40).toNat < (inWord s 36).toNat := ⟨_, rfl, by decide⟩
theorem witness_BsHdrEffect_starts : 36 + 12 + (inWord (body 49) 40).toNat ≤ (body 49).inLen.toNat ∧
    (inWord (body 49) 36).toNat ≤ 8 * (inWord (body 49) 40).toNat ∧ (body 49).root = some 4 ∧ 4 < (body 49).nnodes ∧
    Store.read (body 49).node 4 = some ⟨false, 4, 0, some 0, some 3⟩ := by decide

/-- `BS.BIT` at node `w` of the example's tree, with bit `c` next and `n` bytes emitted. -/
def walkAt (w c n : Nat) : State :=
  { walking with walk := some w, cursor := BitVec.ofNat 32 c, outLen := BitVec.ofNat 32 n }

/-- The bit of rule R182 that `BS.BIT` reads in `s`. -/
def nextBit (s : State) : Bool :=
  bitOfByte (inByte s (s.payloadBase.toNat + s.cursor.toNat / 8)) s.cursor.toNat

theorem witness_BsBitEffect : (walkAt 4 6 0).walk = some 4 ∧ 4 < (walkAt 4 6 0).nnodes ∧
    Store.read (walkAt 4 6 0).node 4 = some ⟨false, 4, 0, some 0, some 3⟩ ∧ (walkAt 4 6 0).cursor = (walkAt 4 6 0).packedBits := by
  decide

/-- The bit 0 at position 0 leads from node 4 to leaf 0; `OUT_CAP` is 2. -/
theorem witness_BsBitEffect_leaf : (walkAt 4 0 1).cursor ≠ (walkAt 4 0 1).packedBits ∧
    (walkAt 4 0 1).payloadBase.toNat + (walkAt 4 0 1).cursor.toNat / 8 < (walkAt 4 0 1).inLen.toNat ∧
    nextBit (walkAt 4 0 1) = false ∧ 0 < (walkAt 4 0 1).nnodes ∧
    Store.read (walkAt 4 0 1).node 0 = some ⟨true, 2, 0x41, none, none⟩ ∧ (walkAt 4 0 1).outLen.toNat < (walkAt 4 0 1).cfg.outCap ∧
    (walkAt 4 0 2).outLen.toNat = (walkAt 4 0 2).cfg.outCap := by decide

/-- The bit 1 at position 1 leads from node 4 to node 3; with 2 valid bits it is the last. -/
theorem witness_BsBitEffect_inner : (walkAt 4 1 0).cursor ≠ (walkAt 4 1 0).packedBits ∧
    nextBit (walkAt 4 1 0) = true ∧ 3 < (walkAt 4 1 0).nnodes ∧
    Store.read (walkAt 4 1 0).node 3 = some ⟨false, 2, 0, some 1, some 2⟩ ∧
    (walkAt 4 1 0).cursor + 1 ≠ (walkAt 4 1 0).packedBits ∧
    (walkAt 4 1 0).cursor + 1 = ({ walkAt 4 1 0 with packedBits := 2 } : State).packedBits := by decide

/-- A node without a left child, which no run reaches: the dead end. -/
theorem witness_BsBitEffect_deadEnd : ∃ s : State,
    s = { walking with node := [(0, ⟨false, 2, 0, none, some 1⟩)], walk := some 0, nnodes := 1 } ∧ s.walk = some 0 ∧ 0 < s.nnodes ∧
    Store.read s.node 0 = some ⟨false, 2, 0, none, some 1⟩ ∧ s.cursor ≠ s.packedBits ∧
    s.payloadBase.toNat + s.cursor.toNat / 8 < s.inLen.toNat ∧ (if nextBit s then some 1 else none) = none := ⟨_, rfl, by decide⟩

theorem witness_BsRun1Effect : single.root = some 0 ∧ 0 < single.nnodes ∧
    Store.read single.node 0 = some ⟨true, 3, 0x58, none, none⟩ ∧ 0 < single.symCount.toNat ∧
    Store.read single.ft 0 = some ⟨3, 0x58⟩ ∧ single.idx ≠ 3 ∧ single.outLen.toNat < single.cfg.outCap ∧
    ({ single with idx := 3 } : State).idx = 3 ∧ ({ single with outLen := 3 } : State).outLen.toNat = single.cfg.outCap := by decide

theorem witness_VlTallyEffect : ∃ s : State,
    s = { base with outLen := 2, idx := 1, outBuf := [(0, 0x41), (1, 0xFF)], obs := [(0xFF, 0)] } ∧
    s.idx.toNat < s.outLen.toNat ∧ Store.read s.outBuf s.idx.toNat = some 0xFF ∧ Store.read s.obs (0xFF : Byte).toNat = some 0 ∧
    (0 : Word32).toNat ≤ s.idx.toNat ∧
    s.idx.toNat + 1 = s.outLen.toNat ∧ s.idx.toNat + 1 ≠ ({ s with outLen := 3 } : State).outLen.toNat := by
  exact ⟨_, rfl, by decide⟩

theorem witness_VlCmpEffect : ∃ s : State,
    s = { base with symCount := 3, idx := 2, ft := abcTable, obs := [(0x43, 1)] } ∧ s.idx.toNat < s.symCount.toNat ∧
    Store.read s.ft s.idx.toNat = some ⟨1, 0x43⟩ ∧ Store.read s.obs (0x43 : Byte).toNat = some 1 ∧
    Store.read ({ s with obs := [(0x43, 2)] } : State).obs (0x43 : Byte).toNat = some 2 ∧ (2 : Word32) ≠ 1 := ⟨_, rfl, by decide⟩

theorem witness_FalsePreconditionsStop :
    base.symCount.toNat ≤ base.idx.toNat ∧ ({ base with nnodes := 1 } : State).nnodes ≠ base.idx.toNat ∧ base.hsize < 2 ∧
    base.hsize ≠ 1 ∧ base.outLen.toNat ≤ base.idx.toNat := by decide

theorem witness_FalsePreconditionsStop_leaf : (walkAt 0 0 0).walk = some 0 ∧ 0 < (walkAt 0 0 0).nnodes ∧
    Store.read (walkAt 0 0 0).node 0 = some ⟨true, 2, 0x41, none, none⟩ := by decide

theorem witness_FalsePreconditionsStop_inner : walking.root = some 4 ∧ 4 < walking.nnodes ∧
    Store.read walking.node 4 = some ⟨false, 4, 0, some 0, some 3⟩ := by decide

/-- The premise of every clause of `SuccessorTable`, and of the frame statements. -/
theorem witness_SuccessorTable :
    (∃ s t, exec .ftHdr s = .next t) ∧ (∃ s t, exec .ftEnt s = .next t) ∧ (∃ s t, exec .tbInit s = .next t) ∧
    (∃ s t, exec .tbLeaf s = .next t) ∧ (∃ s t, exec .tbMerge s = .next t) ∧ (∃ s t, exec .tbRoot s = .next t) ∧
    (∃ s t, exec .bsHdr s = .next t) ∧ (∃ s t, exec .bsBit s = .next t) ∧ (∃ s t, exec .bsRun1 s = .next t) ∧
    (∃ s t, exec .vlInit s = .next t) ∧ (∃ s t, exec .vlTally s = .next t) ∧ (∃ s t, exec .vlCmp s = .next t) := by
  have key : ∀ {i s check}, nextIs (exec i s) check = true → ∃ s t, exec i s = .next t := fun h =>
    have ⟨t, ht, _⟩ := next_of h
    ⟨_, t, ht⟩
  exact ⟨key test_ftHdr, key test_ftEnt, key test_tbInit_zero, key test_tbLeaf, key test_tbMerge, key test_tbRoot,
    key test_bsHdr, key test_bsBit_emits, key test_bsRun1_emits, key test_vlInit, key test_vlTally, key test_vlCmp_done⟩

theorem witness_BytesStored : ∃ t, exec .bsBit walking = .next t ∧ Instr.bsBit ≠ .go true :=
  have ⟨t, h, _⟩ := next_of test_bsBit_emits
  ⟨t, h, by decide⟩

theorem witness_FileWriters : ∃ t, exec .bsBit walking = .next t ∧ Instr.bsBit ≠ .ftEnt ∧ Instr.bsBit ≠ .tbLeaf :=
  have ⟨t, h, _⟩ := next_of test_bsBit_emits
  ⟨t, h, by decide, by decide⟩

/-- At the old last position of a heap of six, and one above the position a push appends to. -/
theorem witness_FileWriters_heap : (∃ s t, exec .pqPop s = .next t ∧ s.hsize ≤ 5 + 1) ∧
    (∃ s t, exec (.pqPush 3) s = .next t ∧ s.hsize < 4) :=
  have ⟨t, h, _⟩ := next_of test_pqPop
  have ⟨u, h', _⟩ := next_of test_pqPush
  ⟨⟨_, t, h, by decide⟩, ⟨_, u, h', by decide⟩⟩

/-- A tally beside the one that is counted. -/
theorem witness_FileWriters_obs : ∃ s t, exec .vlTally s = .next t ∧
    ∀ x, Store.read s.outBuf s.idx.toNat = some x → 0x42 ≠ x.toNat :=
  have ⟨t, h, _⟩ := next_of test_vlTally
  ⟨_, t, h, fun x hx => by
    have e : some (0x43 : Byte) = some x := hx
    obtain rfl := Option.some.inj e
    decide⟩

theorem witness_RegisterWriters : ∃ t, exec .bsBit walking = .next t ∧ Instr.bsBit ≠ .bsHdr ∧ Instr.bsBit ≠ .tbRoot :=
  have ⟨t, h, _⟩ := next_of test_bsBit_emits
  ⟨t, h, by decide, by decide⟩

theorem witness_ErrorRegisterWriters : ∃ s t, exec .vlCmp s = .next t ∧ (∀ validate, Instr.vlCmp ≠ .go validate) :=
  have ⟨t, h, _⟩ := next_of test_vlCmp_mismatch
  ⟨_, t, h, by decide⟩

/-- Storage in its form, for small states. -/
theorem storage_walking : StorageForm walking where
  inWf := by decide
  outWf := by decide
  ftWf := by decide
  nodeWf := by decide
  heapWf := by decide
  obsWf := by decide
  inSize := by decide
  outSize := by decide
  ftSize := by decide
  nodeSize := by decide
  heapSize := by decide
  obsSize := by decide

theorem witness_StorageFormKept : ∃ t, StorageForm walking ∧ step walking = .next t :=
  have ⟨t, h, _⟩ := next_of (o := step walking) (check := fun t => t.outLen == 1) (by decide)
  ⟨t, storage_walking, h⟩

theorem witness_ParametersFixed : ∃ t, step walking = .next t :=
  have ⟨t, h, _⟩ := next_of (o := step walking) (check := fun t => t.outLen == 1) (by decide)
  ⟨t, h⟩

/-- The tree of rule R163 is built as rule R165 says. -/
theorem treeBuilt_walking : TreeBuilt walking where
  some1 := by decide
  emptied := rfl
  size := by decide
  rootIs := by decide
  arena :=
    { leaf := by
        intro k hk
        have h3 : k < 3 := hk
        rcases (by omega : k = 0 ∨ k = 1 ∨ k = 2) with rfl | rfl | rfl
        · exact ⟨⟨2, 0x41⟩, by decide, by decide⟩
        · exact ⟨⟨1, 0x42⟩, by decide, by decide⟩
        · exact ⟨⟨1, 0x43⟩, by decide, by decide⟩
      inner := by
        intro k h1 h2
        have h3 : 3 ≤ k := h1
        have h4 : k < 5 := h2
        rcases (by omega : k = 3 ∨ k = 4) with rfl | rfl
        · exact ⟨1, 2, by decide, by decide, by decide, by decide⟩
        · exact ⟨0, 3, by decide, by decide, by decide, by decide⟩
      forest := by decide
      weight := by decide }

theorem table_walking : TableRead walking walking.symCount.toNat where
  fits := by decide
  listed := by
    intro i hi
    have h3 : i < 3 := hi
    rcases (by omega : i = 0 ∨ i = 1 ∨ i = 2) with rfl | rfl | rfl
    · exact ⟨⟨2, 0x41⟩, by decide⟩
    · exact ⟨⟨1, 0x42⟩, by decide⟩
    · exact ⟨⟨1, 0x43⟩, by decide⟩

/-- The state of rule R182's example meets the invariant. -/
theorem inv_walking : Inv walking where
  storage := storage_walking
  port := rfl
  outFits := by decide
  phase := ⟨by unfold NoError; decide, table_walking, treeBuilt_walking, ⟨by decide, by decide, by decide⟩,
    fun j hj => absurd hj (by have : walking.outLen.toNat = 0 := rfl; omega), by decide, ⟨4, rfl, by decide, by decide⟩,
    by decide, by decide, by decide⟩

theorem witness_InvariantKept : ∃ t, Inv walking ∧ step walking = .next t :=
  have ⟨t, h, _⟩ := next_of (o := step walking) (check := fun t => t.outLen == 1) (by decide)
  ⟨t, inv_walking, h⟩

theorem witness_NoInternalFault : Inv walking ∧ walking.inputs = [] := ⟨inv_walking, rfl⟩

theorem witness_NoInternalFault_block : ∃ s : State, s = { base with inputs := [.block, .host .reset] } ∧ Inv s ∧
    s.inputs = .block :: [.host .reset] :=
  ⟨_, rfl, ⟨⟨by decide, by decide, by decide, by decide, by decide, by decide, by decide, by decide, by decide, by decide,
    by decide, by decide⟩, rfl, by decide, (by unfold NoError; decide : NoError { base with inputs := [.block, .host .reset] })⟩,
    rfl⟩

theorem witness_ErrorsDoNotNest : ∃ s t : State, s = { base with phase := .haltErr, errCode := 1, errSub := 6 } ∧ Inv s ∧
    s.errCode ≠ 0 ∧ step s = .next t :=
  ⟨_, _, rfl, ⟨⟨by decide, by decide, by decide, by decide, by decide, by decide, by decide, by decide, by decide, by decide,
    by decide, by decide⟩, rfl, by decide,
    .format (by decide) (by decide) (by decide) (by unfold NoMismatch; decide) (by decide) (by decide)⟩, by decide, rfl⟩

/-! Runs. The two images are as small as the walk and the single leaf allow. -/

/-- Two entries, A:1 and B:0, and the one payload bit 1; the payload byte and the last word are parameters. -/
def twoSymbols (payload unpacked : Nat) : List Nat :=
  [0, 0, 0, 0, 0, 0, 0, 0, 2, 0, 0, 0] ++ [1, 0, 0, 0, 0x41, 0, 0, 0] ++ [0, 0, 0, 0, 0x42, 0, 0, 0] ++
  [1, 0, 0, 0, 1, 0, 0, 0, unpacked, 0, 0, 0] ++ [payload]

/-- One entry, X:1, and no payload. -/
def oneSymbol : List Nat :=
  [0, 0, 0, 0, 0, 0, 0, 0, 1, 0, 0, 0] ++ [1, 0, 0, 0, 0x58, 0, 0, 0] ++ [0, 0, 0, 0, 0, 0, 0, 0, 1, 0, 0, 0]

theorem witness_EveryRunEnds : Alone base ∧ runState base.phase ≠ .busy := by
  unfold Alone
  decide

theorem witness_RunOutcome_error : Alone base ∧ runState base.phase ≠ .busy ∧
    ∃ t, stepN 1 (startRun false base) = some t ∧ (t.phase == .haltErr) = true :=
  ⟨witness_EveryRunEnds.1, witness_EveryRunEnds.2, run_of (by decide)⟩

theorem witness_RunOutcome_done : Alone (placed (twoSymbols 0x80 1) base) ∧ runState base.phase ≠ .busy ∧
    ∃ t, stepN 15 (startRun true (placed (twoSymbols 0x80 1) base)) = some t ∧ (t.phase == .haltDone) = true :=
  ⟨⟨rfl, rfl⟩, by decide, run_of (by decide +kernel)⟩

theorem witness_BuildGuarantees : Alone (placed (twoSymbols 0x80 1) base) ∧ runState base.phase ≠ .busy ∧
    ∃ t, stepN 8 (startRun false (placed (twoSymbols 0x80 1) base)) = some t ∧ (t.phase == .bsHdr) = true :=
  ⟨⟨rfl, rfl⟩, by decide, run_of (by decide +kernel)⟩

theorem witness_TreeIsPrefixCode : TreeBuilt walking ∧ walking.root = some 4 := ⟨treeBuilt_walking, rfl⟩

theorem witness_TreeIsPrefixCode_paths : (3 < walking.nnodes ∧ followPath walking 4 [true] = some 3) ∧
    (2 < walking.symCount.toNat ∧ followPath walking 4 [true, true] = some 2 ∧ followPath walking 4 ([true, true] ++ []) ≠ none) ∧
    2 ≤ walking.symCount.toNat := by decide

theorem witness_OutputDecodesPayload : Alone (placed (twoSymbols 0x80 1) base) ∧ runState base.phase ≠ .busy ∧
    ∃ t, stepN 11 (startRun false (placed (twoSymbols 0x80 1) base)) = some t ∧
      (t.phase == .haltDone && decide (2 ≤ t.symCount.toNat)) = true :=
  ⟨⟨rfl, rfl⟩, by decide, run_of (by decide +kernel)⟩

theorem witness_SingleSymbolOutput : Alone (placed oneSymbol base) ∧ runState base.phase ≠ .busy ∧
    ∃ t, stepN 8 (startRun false (placed oneSymbol base)) = some t ∧ (t.phase == .haltDone && t.symCount == 1) = true :=
  ⟨⟨rfl, rfl⟩, by decide, run_of (by decide +kernel)⟩

/-- The same image over what an earlier run left. -/
def stale : State :=
  { placed oneSymbol base with
    phase := .haltErr, errCode := 2, errSub := 2, errCursor := 9, outLen := 1, outBuf := [(0, 0x99)], ft := abcTable,
    node := abcNodes, nnodes := 5, root := some 4, idx := 7 }

theorem witness_HistoryIndependent : Alone (placed oneSymbol base) ∧ Alone stale ∧ runState base.phase ≠ .busy ∧
    runState stale.phase ≠ .busy ∧ (placed oneSymbol base).cfg = stale.cfg ∧ (placed oneSymbol base).inLen = stale.inLen ∧
    ∀ a, a < (placed oneSymbol base).inLen.toNat →
      inByte (startRun true (placed oneSymbol base)) a = inByte (startRun true stale) a :=
  ⟨⟨rfl, rfl⟩, ⟨rfl, rfl⟩, by decide, by decide, rfl, rfl, by decide +kernel⟩

/-- The padding bits of the payload byte and the ignored word differ. -/
theorem witness_IgnoredBytesDoNotMatter : Alone (placed (twoSymbols 0x80 1) base) ∧ Alone (placed (twoSymbols 0xFF 7) base) ∧
    runState base.phase ≠ .busy ∧
    SameUsedImage (startRun true (placed (twoSymbols 0x80 1) base)) (startRun true (placed (twoSymbols 0xFF 7) base)) :=
  ⟨⟨rfl, rfl⟩, ⟨rfl, rfl⟩, by decide, rfl, rfl, by unfold UsedByte; decide +kernel, by decide +kernel⟩

theorem witness_ValidationLeavesOutput : Alone (placed oneSymbol base) ∧ runState (placed oneSymbol base).phase ≠ .busy :=
  ⟨⟨rfl, rfl⟩, by decide⟩

/-- What `ChangedBitsChangeOutput` asks of the end of a run over `twoSymbols`. -/
def twoSymbolEnd (t : State) : Bool :=
  t.phase == .haltDone && t.symCount == 2 && t.root == some 2 && t.nnodes == 3 && t.ft == [(0, ⟨1, 0x41⟩), (1, ⟨0, 0x42⟩)] &&
    t.node == [(0, ⟨true, 1, 0x41, none, none⟩), (1, ⟨true, 0, 0x42, none, none⟩), (2, ⟨false, 1, 0, some 1, some 0⟩)] &&
    outputOf t == [some 0x41]

theorem witness_ChangedBitsChangeOutput :
    (∃ u, stepN 11 (startRun false (placed (twoSymbols 0x80 1) base)) = some u ∧ twoSymbolEnd u = true) ∧
    (∃ w, stepN 11 (startRun false (placed (twoSymbols 0xFF 7) base)) = some w ∧ twoSymbolEnd w = true) ∧
    ∀ x y e f, x < 2 → y < 2 → Store.read ([(0, ⟨1, 0x41⟩), (1, ⟨0, 0x42⟩)] : Store FtEntry) x = some e →
      Store.read ([(0, ⟨1, 0x41⟩), (1, ⟨0, 0x42⟩)] : Store FtEntry) y = some f → e.sym = f.sym → x = y := by
  refine ⟨run_of (by decide +kernel), run_of (by decide +kernel), ?_⟩
  intro x y e f hx hy
  rcases (by omega : x = 0 ∨ x = 1) with rfl | rfl <;> rcases (by omega : y = 0 ∨ y = 1) with rfl | rfl <;>
    simp +contextual [Store.read] <;> rintro rfl rfl h <;> simp at h

end Sys2Proof.Tests
end

section
/-! PROOFS. How the block chooses its operation, and what every operation keeps (rules R15, R28, R42, R222). -/

namespace Sys2Proof.Machine

variable {s t : State} {i : Instr}

/-! ### The operation a step runs -/

/-- The operation that a phase selects, the table of rule R99. -/
def phaseInstr : Phase → Instr
  | .idle => .idle
  | .ftHdr => .ftHdr
  | .ftEnt => .ftEnt
  | .tbInit => .tbInit
  | .tbLeaf => .tbLeaf
  | .tbMerge => .tbMerge
  | .tbRoot => .tbRoot
  | .bsHdr => .bsHdr
  | .bsBit => .bsBit
  | .bsRun1 => .bsRun1
  | .vlInit => .vlInit
  | .vlTally => .vlTally
  | .vlCmp => .vlCmp
  | .haltDone => .haltDone
  | .haltErr => .haltErr

theorem decode_phaseCode (p : Phase) : decode (.seq (phaseCode p)) = .ok (phaseInstr p) := by
  cases p <;> rfl

theorem step_no_inputs (h : s.inputs = []) : step s = blockStep s := by
  simp only [step, h]

theorem step_block_input {rest : List Input} (h : s.inputs = .block :: rest) :
    step s = blockStep { s with inputs := rest } := by
  simp only [step, h]

theorem step_host_input {a : HostAction} {rest : List Input} (h : s.inputs = .host a :: rest) :
    step s = hostAct a { s with inputs := rest } := by
  simp only [step, h]

/-- The block runs what it fetched, with the request taken off its port. -/
theorem blockStep_of_fetch {c : Code} (hf : fetch s = c) (hd : decode c = .ok i) :
    blockStep s = exec i { s with pqPort := none } := by
  simp only [blockStep, hf, hd]

theorem clear_port_of_none (h : s.pqPort = none) : { s with pqPort := none } = s := by
  rw [← h]

theorem fetch_of_no_request (h : s.pqPort = none) : fetch s = .seq (phaseCode s.phase) := by
  simp only [fetch, h]

theorem fetch_of_request {r : PqRequest} (h : s.pqPort = some r) : fetch s = requestCode r := by
  simp only [fetch, h]

/-- With no request standing, the block runs the operation that `PHASE` selects. -/
theorem blockStep_of_no_request (h : s.pqPort = none) : blockStep s = exec (phaseInstr s.phase) s := by
  rw [blockStep_of_fetch (fetch_of_no_request h) (decode_phaseCode _), clear_port_of_none h]

/-- A block left to itself runs the operation that `PHASE` selects. -/
theorem step_of_alone (h : Alone s) : step s = exec (phaseInstr s.phase) s :=
  (step_no_inputs h.1).trans (blockStep_of_no_request h.2)

theorem hostAct_writeCtrl {v : Word64} (h : decode (.cmd (v.setWidth 32)) = .ok i) :
    hostAct (.writeReg 0 v) s = exec i s := by
  simp only [hostAct, hostWriteReg, hostWriteCtrl, h, if_true]

/-- Settles O5: one clause for each way a step begins. -/
theorem stepRunsDecodedOperation : Obligations.StepRunsDecodedOperation := by
  intro s i
  refine ⟨fun hin hp hd => ?_, fun rest hin hp hd => ?_, fun r hin hp hd => ?_, fun r rest hin hp hd => ?_,
    fun v rest hin hd => ?_, fun a rest hin => step_host_input hin⟩
  · rw [step_no_inputs hin, blockStep_of_fetch (fetch_of_no_request hp) hd, clear_port_of_none hp]
  · rw [step_block_input hin, blockStep_of_fetch (s := { s with inputs := rest }) (fetch_of_no_request hp) hd,
      clear_port_of_none (s := { s with inputs := rest }) hp]
  · rw [step_no_inputs hin, blockStep_of_fetch (fetch_of_request hp) hd]
  · rw [step_block_input hin, blockStep_of_fetch (s := { s with inputs := rest }) (fetch_of_request hp) hd]
  · rw [step_host_input hin, hostAct_writeCtrl hd]

/-! ### What every operation keeps -/

/-- What no operation writes: the parameters, the input the host placed, the request port and the model's record of the
host. -/
def givenPart (s : State) : Config × Word64 × Memory × List Input × Nat × Option Word64 × Option PqRequest :=
  (s.cfg, s.inLen, s.inBuf, s.inputs, s.reads, s.hostSaw, s.pqPort)

/-- What only `GO` writes, besides the above: the selector of unplaced bytes and `VALIDATE_EN`. -/
def runPart (s : State) : (Config × Word64 × Memory × List Input × Nat × Option Word64 × Option PqRequest) × Nat × Bool :=
  (givenPart s, s.epoch, s.validateEn)

/-- The three registers that are only latched (rules R27, U10), written by `FT.HDR` and `BS.HDR`. -/
def latchedPart (s : State) : Word32 × Word32 × Word32 := (s.hdrTotalLen, s.hdrReserved, s.unpackedBytes)

/-- The operation leaves alone what only `GO` and the two header operations write. -/
def KeepsRunAndLatched (s t : State) : Prop := runPart t = runPart s ∧ latchedPart t = latchedPart s

theorem runPart_ftHdrChecks (s : State) : runPart (ftHdrChecks s) = runPart s := by
  rcases ftHdrChecks_cases s with h | h | ⟨-, -, h⟩ <;> rw [h] <;> rfl

theorem execFtHdr_runPart (h : execFtHdr s = .next t) : runPart t = runPart s := by
  rcases execFtHdr_next h with ⟨-, rfl⟩ | ⟨-, rfl⟩
  · rfl
  · exact runPart_ftHdrChecks _

theorem execBsHdr_runPart (h : execBsHdr s = .next t) : runPart t = runPart s := by
  rcases execBsHdr_next h with ⟨-, rfl⟩ | ⟨-, u, rfl, rfl | rfl | ⟨-, -, r, n, -, -, -, rfl⟩⟩ <;> rfl

theorem execFtEnt_keeps (h : execFtEnt s = .next t) : KeepsRunAndLatched s t := by
  obtain ⟨-, -, rfl⟩ := execFtEnt_next h
  exact ⟨rfl, rfl⟩

/-- The two ways `TB.INIT` ends (rule R161). -/
theorem execTbInit_next (h : execTbInit s = .next t) :
    (s.symCount = 0 ∧ t = raise .zeroSyms s) ∨
    (s.symCount ≠ 0 ∧ t = { s with hsize := 0, nnodes := 0, idx := 0, phase := .tbLeaf }) := by
  obtain rfl := Host.Outcome.next.inj h
  by_cases hz : s.symCount = 0
  · exact .inl ⟨hz, if_pos hz⟩
  · exact .inr ⟨hz, if_neg hz⟩

theorem execTbInit_keeps (h : execTbInit s = .next t) : KeepsRunAndLatched s t := by
  rcases execTbInit_next h with ⟨-, rfl⟩ | ⟨-, rfl⟩ <;> exact ⟨rfl, rfl⟩

theorem execTbLeaf_keeps (h : execTbLeaf s = .next t) : KeepsRunAndLatched s t := by
  obtain ⟨-, -, e, h', -, -, -, -, rfl⟩ := execTbLeaf_next h
  exact ⟨rfl, rfl⟩

theorem execTbMerge_keeps (h : execTbMerge s = .next t) : KeepsRunAndLatched s t := by
  obtain ⟨-, a, b, h', -, -, -, rfl⟩ := execTbMerge_next h
  exact ⟨rfl, rfl⟩

theorem execTbRoot_keeps (h : execTbRoot s = .next t) : KeepsRunAndLatched s t := by
  obtain ⟨-, r, -, rfl⟩ := execTbRoot_next h
  exact ⟨rfl, rfl⟩

theorem execBsBit_keeps (h : execBsBit s = .next t) : KeepsRunAndLatched s t := by
  obtain ⟨w, nd, -, -, -, -, hcase⟩ := execBsBit_next h
  rcases hcase with ⟨-, rfl⟩ | ⟨-, -, nxt, -, ⟨-, rfl⟩ | ⟨k, c, -, -, -, hleaf⟩⟩
  · exact ⟨rfl, rfl⟩
  · exact ⟨rfl, rfl⟩
  · rcases hleaf with ⟨-, -, rfl⟩ | ⟨-, -, rfl⟩ | ⟨-, -, rfl⟩ | ⟨-, -, rfl⟩ <;> exact ⟨rfl, rfl⟩

theorem execBsRun1_keeps (h : execBsRun1 s = .next t) : KeepsRunAndLatched s t := by
  obtain ⟨r, nd, e, -, -, -, -, -, hcase⟩ := execBsRun1_next h
  rcases hcase with ⟨-, rfl⟩ | ⟨-, -, rfl⟩ | ⟨-, -, rfl⟩ <;> exact ⟨rfl, rfl⟩

theorem execVlInit_keeps (h : execVlInit s = .next t) : KeepsRunAndLatched s t := by
  obtain rfl := Host.Outcome.next.inj h
  exact ⟨rfl, rfl⟩

/-- The two ways `VL.TALLY` goes on (rule R202). -/
theorem vlTallyNext_cases (s : State) :
    (s.idx + 1 = s.outLen ∧ vlTallyNext s = { s with idx := 0, phase := .vlCmp }) ∨
    (s.idx + 1 ≠ s.outLen ∧ vlTallyNext s = { s with idx := s.idx + 1, phase := .vlTally }) := by
  by_cases hl : s.idx + 1 = s.outLen
  · exact .inl ⟨hl, if_pos hl⟩
  · exact .inr ⟨hl, if_neg hl⟩

theorem execVlTally_keeps (h : execVlTally s = .next t) : KeepsRunAndLatched s t := by
  obtain ⟨-, x, v, -, -, rfl⟩ := execVlTally_next h
  rcases vlTallyNext_cases (writeObs s x (v + 1)) with ⟨-, e⟩ | ⟨-, e⟩ <;> rw [e] <;> exact ⟨rfl, rfl⟩

theorem execVlCmp_keeps (h : execVlCmp s = .next t) : KeepsRunAndLatched s t := by
  obtain ⟨-, e, v, -, -, ⟨-, rfl⟩ | ⟨-, rfl⟩⟩ := execVlCmp_next h <;> exact ⟨rfl, rfl⟩

/-- A resting operation changes nothing. -/
theorem KeepsRunAndLatched.of_rest (h : Host.Outcome.next (φ := Fault) (ρ := Refusal) s = .next t) :
    KeepsRunAndLatched s t := by
  obtain rfl := Host.Outcome.next.inj h
  exact ⟨rfl, rfl⟩

/-- Beyond the two header operations, no operation that a phase selects writes a latched register or what belongs to `GO` and
the host. -/
theorem exec_phaseInstr_keeps {p : Phase} (h : exec (phaseInstr p) s = .next t) (h1 : p ≠ .ftHdr) (h2 : p ≠ .bsHdr) :
    KeepsRunAndLatched s t := by
  cases p with
  | idle | haltDone | haltErr => exact .of_rest h
  | ftHdr => exact absurd rfl h1
  | ftEnt => exact execFtEnt_keeps h
  | tbInit => exact execTbInit_keeps h
  | tbLeaf => exact execTbLeaf_keeps h
  | tbMerge => exact execTbMerge_keeps h
  | tbRoot => exact execTbRoot_keeps h
  | bsHdr => exact absurd rfl h2
  | bsBit => exact execBsBit_keeps h
  | bsRun1 => exact execBsRun1_keeps h
  | vlInit => exact execVlInit_keeps h
  | vlTally => exact execVlTally_keeps h
  | vlCmp => exact execVlCmp_keeps h

/-- No operation that a phase selects writes what belongs to `GO` and the host. -/
theorem exec_phaseInstr_runPart {p : Phase} (h : exec (phaseInstr p) s = .next t) : runPart t = runPart s := by
  by_cases h1 : p = .ftHdr
  · subst h1
    exact execFtHdr_runPart h
  by_cases h2 : p = .bsHdr
  · subst h2
    exact execBsHdr_runPart h
  · exact (exec_phaseInstr_keeps h h1 h2).1

theorem execGo_givenPart {v : Bool} (h : execGo v s = .next t) : givenPart t = givenPart s := by
  unfold execGo at h
  split at h <;> obtain rfl := Host.Outcome.next.inj h <;> rfl

/-- No operation writes the parameters, the input or the host's record. -/
theorem exec_givenPart (h : exec i s = .next t) : givenPart t = givenPart s := by
  have ofRunPart : ∀ {p}, exec (phaseInstr p) s = .next t → givenPart t = givenPart s := fun h =>
    congrArg Prod.fst (exec_phaseInstr_runPart h)
  cases i with
  | go v => exact execGo_givenPart h
  | idle => exact ofRunPart (p := .idle) h
  | ftHdr => exact ofRunPart (p := .ftHdr) h
  | ftEnt => exact ofRunPart (p := .ftEnt) h
  | tbInit => exact ofRunPart (p := .tbInit) h
  | tbLeaf => exact ofRunPart (p := .tbLeaf) h
  | tbMerge => exact ofRunPart (p := .tbMerge) h
  | tbRoot => exact ofRunPart (p := .tbRoot) h
  | bsHdr => exact ofRunPart (p := .bsHdr) h
  | bsBit => exact ofRunPart (p := .bsBit) h
  | bsRun1 => exact ofRunPart (p := .bsRun1) h
  | vlInit => exact ofRunPart (p := .vlInit) h
  | vlTally => exact ofRunPart (p := .vlTally) h
  | vlCmp => exact ofRunPart (p := .vlCmp) h
  | haltDone => exact ofRunPart (p := .haltDone) h
  | haltErr => exact ofRunPart (p := .haltErr) h
  | pqSize =>
    obtain rfl := Host.Outcome.next.inj h
    rfl
  | pqPush k =>
    obtain ⟨-, -, -, h', -, rfl⟩ := execPqPush_next h
    rfl
  | pqPop =>
    obtain ⟨-, m, h', -, -, rfl⟩ := execPqPop_next h
    rfl

theorem exec_cfg (h : exec i s = .next t) : t.cfg = s.cfg := congrArg Prod.fst (exec_givenPart h)

theorem blockStep_cfg (h : blockStep s = .next t) : t.cfg = s.cfg := by
  unfold blockStep at h
  split at h
  · exact (exec_cfg h :)
  · cases h

theorem hostWriteReg_cfg {n : Nat} {v : Word64} (h : hostWriteReg n v s = .next t) : t.cfg = s.cfg := by
  unfold hostWriteReg hostWriteCtrl at h
  split at h
  · split at h
    · exact exec_cfg h
    · cases h; rfl
  · split at h
    · split at h <;> cases h
      rfl
    · cases h; rfl

theorem hostWriteIn_cfg {a : Nat} {b : Byte} (h : hostWriteIn a b s = .next t) : t.cfg = s.cfg := by
  unfold hostWriteIn at h
  split at h
  · cases h
  · split at h <;> cases h
    rfl

theorem hostAct_cfg {a : HostAction} (h : hostAct a s = .next t) : t.cfg = s.cfg := by
  cases a with
  | writeReg n v => exact hostWriteReg_cfg h
  | writeIn off b => exact hostWriteIn_cfg h
  | readReg _ | readIn _ | readOut _ | reset => cases h; rfl

/-- Settles O43: the next move is the block's operation or a host access, and neither writes the parameters. -/
theorem parametersFixed : Obligations.ParametersFixed := by
  intro s t h
  unfold step at h
  split at h
  · exact blockStep_cfg h
  · exact (blockStep_cfg h :)
  · exact (hostAct_cfg h :)

end Sys2Proof.Machine
end

section
/-! PROOFS. The byte order of the wire integers (rules R60, R95). -/

namespace Sys2Proof.Machine

/-- Four bytes joined, most significant first, weigh 16777216, 65536, 256 and 1. -/
theorem append4_toNat (a b c d : Byte) :
    (a ++ b ++ c ++ d).toNat = d.toNat + 256 * c.toNat + 65536 * b.toNat + 16777216 * a.toNat := by
  have join : ∀ x y : Nat, y < 2 ^ 8 → x <<< 8 ||| y = x * 2 ^ 8 + y := fun x y hy => by
    rw [← Nat.shiftLeft_add_eq_or_of_lt hy, Nat.shiftLeft_eq]
  simp only [BitVec.toNat_append, join _ _ d.isLt, join _ _ c.isLt, join _ _ b.isLt]
  omega

/-- Settles O17: the word is assembled from the four bytes in the order the policy gives. -/
theorem wordByteOrder : Obligations.WordByteOrder := by
  intro s a ha
  refine ⟨_, memRead4_eq ha, fun ho => ?_, fun ho => ?_⟩
  · simp only [inWord, ho]
    exact append4_toNat ..
  · simp only [inWord, ho]
    exact append4_toNat ..

end Sys2Proof.Machine
end

section
/-! PROOFS. The Priority Queue and the arena as the Tree Builder uses them: a pop, the creation of a node, and what a created
node changes of the arena (rules R45, R123, R124, R162, R163). -/

namespace Sys2Proof.Machine

variable {s t : State}

/-! ### The heap -/

theorem mem_heapNodes {x : Nat} : x ∈ heapNodes s ↔ ∃ j, j < s.hsize ∧ Store.read s.heap j = some x := by
  simp [heapNodes, List.mem_filterMap]

theorem HeapFilled.lt_nnodes (hf : HeapFilled s) {x : Nat} (hx : x ∈ heapNodes s) : x < s.nnodes := by
  obtain ⟨j, hj, hr⟩ := mem_heapNodes.1 hx
  obtain ⟨k, n, hk, hlt, -⟩ := hf j hj
  rw [hr] at hk
  exact Option.some.inj hk ▸ hlt

theorem HeapFilled.length_heapNodes (hf : HeapFilled s) : (heapNodes s).length = s.hsize := by
  have allListed : ∀ j ∈ List.range s.hsize, (Store.read s.heap j).isSome = true := fun j hj => by
    obtain ⟨k, n, hk, -, -⟩ := hf j (List.mem_range.1 hj)
    simp [hk]
  rw [heapNodes, List.length_filterMap_eq_countP, List.countP_eq_length.2 allListed, List.length_range]

/-- No heap position holds a node that does not exist yet. -/
theorem HeapFilled.inHeap_of_nnodes_le (hf : HeapFilled s) {k : Nat} (hk : s.nnodes ≤ k) : inHeap s k = false := by
  rw [Bool.eq_false_iff]
  intro hin
  obtain ⟨j, hj, hr⟩ := List.any_eq_true.1 hin
  have := hf.lt_nnodes (mem_heapNodes.2 ⟨j, List.mem_range.1 hj, by simpa using hr⟩)
  omega

/-- A heap that is filled and ordered (rule R126). -/
structure HeapGood (s : State) : Prop where
  filled : HeapFilled s
  ordered : HeapOrdered s

/-- A pop takes one node out and leaves a good heap. -/
theorem HeapGood.pqPop (hg : HeapGood s) (h0 : s.hsize ≠ 0) :
    ∃ m h', pqPop s = .ok (m, { s with heap := h', hsize := s.hsize - 1 }) ∧ m ∈ heapNodes s ∧
      HeapGood { s with heap := h', hsize := s.hsize - 1 } ∧
      (m :: heapNodes { s with heap := h', hsize := s.hsize - 1 }).Perm (heapNodes s) := by
  obtain ⟨m, h', e, hm, hf, hp, ho⟩ := pqPop_spec hg.filled hg.ordered h0
  exact ⟨m, h', e, mem_heapNodes.2 ⟨0, by omega, hm⟩, ⟨hf, ho⟩, hp⟩

/-! ### A created node -/

/-- State `t` has one node more than `s`, node `n`, and the same frequency table. -/
structure NodeAdded (s t : State) (n : TreeNode) : Prop where
  nnodes : t.nnodes = s.nnodes + 1
  node : t.node = Store.write s.node s.nnodes n
  ft : t.ft = s.ft

variable {n : TreeNode}

theorem NodeAdded.read_old (a : NodeAdded s t n) {k : Nat} (hk : k < s.nnodes) :
    Store.read t.node k = Store.read s.node k := by
  rw [a.node, store_read_write_other _ _ (by omega)]

theorem NodeAdded.read_new (a : NodeAdded s t n) : Store.read t.node s.nnodes = some n := by
  rw [a.node, store_read_write_same]

theorem NodeAdded.freq_old (a : NodeAdded s t n) {k : Nat} (hk : k < s.nnodes) : nodeFreq t.node k = nodeFreq s.node k := by
  simp only [nodeFreq, a.read_old hk]

theorem NodeAdded.freq_new (a : NodeAdded s t n) : nodeFreq t.node s.nnodes = n.freq := by
  simp only [nodeFreq, a.read_new]

theorem NodeAdded.countSum (a : NodeAdded s t n) (m : Nat) : countSum t m = countSum s m := by
  simp only [Machine.countSum, show countOf t = countOf s by funext i; simp only [countOf, a.ft]]

theorem NodeAdded.leafNode (a : NodeAdded s t n) {k : Nat} (hk : k < s.nnodes) (h : LeafNode s k) : LeafNode t k := by
  obtain ⟨e, he, hn⟩ := h
  exact ⟨e, by rw [a.ft]; exact he, by rw [a.read_old hk]; exact hn⟩

theorem NodeAdded.innerNode (a : NodeAdded s t n) {k : Nat} (hk : k < s.nnodes) (h : InnerNode s k) : InnerNode t k := by
  obtain ⟨x, y, hx, hy, hn, hsum⟩ := h
  refine ⟨x, y, hx, hy, ?_, ?_⟩
  · rw [a.read_old hk, a.freq_old (hx.trans hk), a.freq_old (hy.trans hk), hn]
  · rw [a.freq_old hk, a.freq_old (hx.trans hk), a.freq_old (hy.trans hk), hsum]

/-- The edges after a node is created are the edges before and those of the new node. -/
theorem NodeAdded.childNodes (a : NodeAdded s t n) : childNodes t = childNodes s ++ (n.left.toList ++ n.right.toList) := by
  unfold Machine.childNodes
  rw [a.nnodes, List.range_succ, List.flatMap_append, List.flatMap_singleton, a.read_new]
  congr 1
  rw [List.flatMap_def, List.flatMap_def]
  refine congrArg _ (List.map_congr_left fun k hk => ?_)
  rw [a.read_old (List.mem_range.1 hk)]

theorem NodeAdded.weight_old (a : NodeAdded s t n) {l : List Nat} (hl : ∀ x ∈ l, x < s.nnodes) :
    (l.map fun k => (nodeFreq t.node k).toNat) = l.map fun k => (nodeFreq s.node k).toNat :=
  List.map_congr_left fun x hx => by rw [a.freq_old (hl x hx)]

/-- Creating the next node on a good heap with room (the middle of `TB.LEAF` and `TB.MERGE`): it joins the heap's nodes. -/
theorem HeapGood.addNode (hg : HeapGood s) (hk : s.nnodes < 2 * s.cfg.maxSyms - 1) (hroom : s.hsize < s.cfg.maxSyms) :
    ∃ h' t, t = { s with
        node := Store.write s.node s.nnodes n, nnodes := s.nnodes + 1, heap := h', hsize := s.hsize + 1 } ∧
      addNode s s.nnodes n = .ok t ∧ HeapGood t ∧ (heapNodes t).Perm (s.nnodes :: heapNodes s) := by
  let u : State := { s with node := Store.write s.node s.nnodes n, nnodes := s.nnodes + 1 }
  have added : NodeAdded s u n := ⟨rfl, rfl, rfl⟩
  have filled : HeapFilled u := fun j hj => by
    obtain ⟨k, nd, hr, hlt, hn⟩ := hg.filled j hj
    exact ⟨k, nd, hr, Nat.lt_succ_of_lt hlt, (added.read_old hlt).trans hn⟩
  have freq : ∀ j, j < s.hsize → posFreq u j = posFreq s j := fun j hj => by
    obtain ⟨k, nd, hr, hlt, -⟩ := hg.filled j hj
    have hru : Store.read u.heap j = some k := hr
    simp only [posFreq, arrayFreq, hr, hru, added.freq_old hlt]
  have ordered : HeapOrdered u := fun j h1 hj => by
    have hj' : j < s.hsize := hj
    rw [freq j hj', freq _ (by unfold heapParent; omega)]
    exact hg.ordered j h1 hj'
  have fresh : inHeap u s.nnodes = false := hg.filled.inHeap_of_nnodes_le le_rfl
  obtain ⟨h', e, hf, hp, ho⟩ := pqPush_spec filled ordered (Nat.lt_succ_self _) added.read_new fresh hroom
  refine ⟨h', _, rfl, ?_, ⟨hf, ho⟩, hp⟩
  have hw : writeNode s s.nnodes n = .ok { s with node := Store.write s.node s.nnodes n } := writeNode_ok.2 ⟨hk, rfl⟩
  rw [Machine.addNode, hw]
  exact e

end Sys2Proof.Machine
end

section
/-! PROOFS. The tree under construction and the finished tree (rules R12, R45, R161 to R165). -/

namespace Sys2Proof.Machine

variable {s t : State} {m : Nat}

/-! ### Sums of counts -/

theorem countOf_lt (s : State) (i : Nat) : countOf s i < 2 ^ 32 := by
  unfold countOf
  split
  · exact BitVec.isLt _
  · exact Nat.two_pow_pos 32

theorem countSum_succ (s : State) (m : Nat) : countSum s (m + 1) = countSum s m + countOf s m := by
  simp [countSum, List.range_succ]

theorem countSum_le (s : State) (m : Nat) : countSum s m ≤ m * (2 ^ 32 - 1) := by
  induction m with
  | zero => simp [countSum]
  | succ m ih =>
    rw [countSum_succ]
    have := countOf_lt s m
    omega

/-- The exact sum of the counts fits a 64-bit frequency (rule R12). -/
theorem countSum_symCount_lt (s : State) : countSum s s.symCount.toNat < 2 ^ 64 := by
  have hle := countSum_le s s.symCount.toNat
  have hlt : s.symCount.toNat * (2 ^ 32 - 1) ≤ (2 ^ 32 - 1) * (2 ^ 32 - 1) :=
    Nat.mul_le_mul_right _ (by have := s.symCount.isLt; omega)
  omega

/-! ### Nodes of the arena -/

/-- A node of the arena exists, and is a leaf exactly when its index is below the number of leaves. -/
theorem Arena.read_node {roots : List Nat} (h : Arena s m roots) {k : Nat} (hk : k < s.nnodes) :
    (k < m ∧ ∃ e, Store.read s.ft k = some e ∧ Store.read s.node k = some (leafOf e)) ∨
    (m ≤ k ∧ ∃ a b, a < k ∧ b < k ∧
      Store.read s.node k = some (joinOf a b (nodeFreq s.node a) (nodeFreq s.node b))) := by
  by_cases hm : k < m
  · exact .inl ⟨hm, h.leaf k hm⟩
  · obtain ⟨a, b, ha, hb, hn, -⟩ := h.inner k (not_lt.1 hm) hk
    exact .inr ⟨not_lt.1 hm, a, b, ha, hb, hn⟩

/-- A child is older than its parent, so the newest node is no child. -/
theorem Arena.child_lt {roots : List Nat} (h : Arena s m roots) {x : Nat} (hx : x ∈ childNodes s) : x + 1 < s.nnodes := by
  obtain ⟨k, hk, hx⟩ := List.mem_flatMap.1 hx
  rw [List.mem_range] at hk
  rcases h.read_node hk with ⟨-, e, -, hn⟩ | ⟨-, a, b, ha, hb, hn⟩
  · simp [hn, leafOf] at hx
  · simp only [hn, joinOf, Option.toList_some, List.mem_append, List.mem_singleton] at hx
    omega

/-- While there are leaves only, no node is a child. -/
theorem Arena.childNodes_eq_nil {roots : List Nat} (h : Arena s m roots) (hm : s.nnodes ≤ m) : childNodes s = [] := by
  refine List.eq_nil_iff_forall_not_mem.2 fun x hx => ?_
  obtain ⟨k, hk, hx⟩ := List.mem_flatMap.1 hx
  rw [List.mem_range] at hk
  obtain ⟨e, -, hn⟩ := h.leaf k (by omega)
  simp [hn, leafOf] at hx

/-- The leaves exist. -/
theorem Building.leaves_le (h : Building s m) : m ≤ s.nnodes := by
  by_contra hlt
  have lengths := h.arena.forest.length_eq
  rw [h.arena.childNodes_eq_nil (by omega), List.append_nil, h.filled.length_heapNodes, List.length_range] at lengths
  have := h.balance
  omega

/-- The build starts with nothing (rule R161). -/
theorem building_empty (hh : s.hsize = 0) (hn : s.nnodes = 0) : Building s 0 where
  filled j hj := by omega
  ordered j _ hj := by omega
  balance := by omega
  arena :=
    { leaf := fun k hk => absurd hk (Nat.not_lt_zero k)
      inner := fun k _ hk => by omega
      forest := by simp [heapNodes, childNodes, hh, hn]
      weight := by simp [heapNodes, countSum, hh] }

/-- One leaf more (rule R162): the new node is the leaf of the next table entry and joins the heap. -/
theorem Building.add_leaf {e : FtEntry} (h : Building s m) (hm : s.nnodes = m) (he : Store.read s.ft m = some e)
    (a : NodeAdded s t (leafOf e)) (hh : t.hsize = s.hsize + 1) (hg : HeapGood t)
    (hp : (heapNodes t).Perm (s.nnodes :: heapNodes s)) : Building t (m + 1) where
  filled := hg.filled
  ordered := hg.ordered
  balance := by rw [a.nnodes, hh]; have := h.balance; omega
  arena :=
    { leaf := fun k hk => by
        by_cases hkm : k < m
        · exact a.leafNode (hm ▸ hkm) (h.arena.leaf k hkm)
        · obtain rfl : k = m := by omega
          exact ⟨e, by rw [a.ft]; exact he, by rw [← hm]; exact a.read_new⟩
      inner := fun k hmk hk => by rw [a.nnodes] at hk; omega
      forest := by
        rw [a.childNodes, a.nnodes, List.range_succ]
        have edges : childNodes s ++ ((leafOf e).left.toList ++ (leafOf e).right.toList) = childNodes s := by simp [leafOf]
        rw [edges]
        exact ((hp.append_right _).trans (List.perm_append_comm (l₁ := [s.nnodes]))).trans (h.arena.forest.append_right _)
      weight := by
        have heapWeight := a.weight_old fun x hx => h.filled.lt_nnodes hx
        rw [(hp.map _).sum_eq, List.map_cons, List.sum_cons, heapWeight, h.arena.weight, a.freq_new, a.countSum,
          countSum_succ, Nat.add_comm]
        have := e.count.isLt
        simp only [leafOf, countOf, he, BitVec.toNat_setWidth]
        omega }

/-- One merge (rule R163): the new node is internal over two roots `x` and `y`, which leave the heap as it joins it. -/
theorem Building.merge {x y : Nat} {rest : List Nat} (h : Building s m) (hfit : countSum s m < 2 ^ 64)
    (hxy : (x :: y :: rest).Perm (heapNodes s)) (a : NodeAdded s t (joinOf x y (nodeFreq s.node x) (nodeFreq s.node y)))
    (hh : t.hsize + 1 = s.hsize) (hg : HeapGood t) (hp : (heapNodes t).Perm (s.nnodes :: rest)) : Building t m := by
  have old : ∀ z ∈ x :: y :: rest, z < s.nnodes := fun z hz => h.filled.lt_nnodes (hxy.mem_iff.1 hz)
  have hx : x < s.nnodes := old x (by simp)
  have hy : y < s.nnodes := old y (by simp)
  have weight := h.arena.weight
  rw [← (hxy.map _).sum_eq, List.map_cons, List.map_cons, List.sum_cons, List.sum_cons] at weight
  have sumExact : (nodeFreq t.node s.nnodes).toNat = (nodeFreq s.node x).toNat + (nodeFreq s.node y).toNat := by
    rw [a.freq_new, joinOf, BitVec.toNat_add]
    omega
  have leaves := h.leaves_le
  refine ⟨hg.filled, hg.ordered, by rw [a.nnodes]; have := h.balance; omega, ?_, ?_, ?_, ?_⟩
  · exact fun k hk => a.leafNode (by omega) (h.arena.leaf k hk)
  · intro k hmk hk
    rw [a.nnodes] at hk
    by_cases hkn : k < s.nnodes
    · exact a.innerNode hkn (h.arena.inner k hmk hkn)
    · obtain rfl : k = s.nnodes := by omega
      exact ⟨x, y, hx, hy, by rw [a.read_new, a.freq_old hx, a.freq_old hy], by rw [sumExact, a.freq_old hx, a.freq_old hy]⟩
  · rw [a.childNodes, a.nnodes, List.range_succ]
    have edges : (joinOf x y (nodeFreq s.node x) (nodeFreq s.node y)).left.toList ++
        (joinOf x y (nodeFreq s.node x) (nodeFreq s.node y)).right.toList = [x, y] := rfl
    rw [edges]
    calc heapNodes t ++ (childNodes s ++ [x, y])
        |>.Perm ((s.nnodes :: rest) ++ (childNodes s ++ [x, y])) := hp.append_right _
      _ |>.Perm ((x :: y :: rest) ++ childNodes s ++ [s.nnodes]) := by
          rw [List.perm_iff_count]
          intro z
          simp only [List.count_append, List.count_cons, List.count_nil, List.cons_append]
          omega
      _ |>.Perm (List.range s.nnodes ++ [s.nnodes]) := ((hxy.append_right _).trans h.arena.forest).append_right _
  · rw [(hp.map _).sum_eq, List.map_cons, List.sum_cons, sumExact, a.countSum, ← weight,
      a.weight_old fun z hz => old z (by simp [hz])]
    omega

/-- When one node remains in the heap, the tree is finished and that node is the newest (rules R164, R165). -/
theorem Building.root_eq {r : Nat} (h : Building s m) (h1 : s.hsize = 1) (hr : Store.read s.heap 0 = some r) :
    heapNodes s = [r] ∧ r = s.nnodes - 1 := by
  have nodes : heapNodes s = [r] := by simp [heapNodes, h1, List.range_succ, hr]
  refine ⟨nodes, ?_⟩
  have hlt := h.filled.lt_nnodes (x := r) (by simp [nodes])
  have newest : s.nnodes - 1 ∈ heapNodes s ++ childNodes s := h.arena.forest.mem_iff.2 (List.mem_range.2 (by omega))
  rcases List.mem_append.1 newest with hin | hin
  · rw [nodes, List.mem_singleton] at hin
    exact hin.symm
  · have := h.arena.child_lt hin
    omega

end Sys2Proof.Machine
end

section
/-! PROOFS. What a run keeps and how it advances: the part of the invariant that an accepted `GO` establishes whatever came
before it (rules R165, R185, R217), and a count of the operations a run has made at most (rule R224). -/

namespace Sys2Proof.Machine

variable {s t : State}

/-- The invariant of a run, less the form of storage and the request port, which a run does not rest on. -/
structure RunInv (s : State) : Prop where
  outFits : s.outLen.toNat ≤ s.cfg.outCap
  phase : PhaseInv s

/-- The terms of rule R224 for the operations before the payload: `FT.HDR` to `BS.HDR`. -/
def opsBeforePayload (s : State) : Nat :=
  1 + s.symCount.toNat + 1 + s.symCount.toNat + (s.symCount.toNat - 1) + 1 + 1

/-- The term of rule R224 for `BS.RUN1` or `BS.BIT`. -/
def opsOfDecode (s : State) : Nat :=
  if s.symCount.toNat = 1 then countOf s 0 + 1 else s.packedBits.toNat + 1

/-- How many operations a run has made at most, in the values the state holds. -/
def elapsed (s : State) : Nat :=
  match s.phase with
  | .idle | .ftHdr => 0
  | .ftEnt => 1 + s.idx.toNat
  | .tbInit => 1 + s.symCount.toNat
  | .tbLeaf => 1 + s.symCount.toNat + 1 + s.idx.toNat
  | .tbMerge => 1 + s.symCount.toNat + 1 + s.nnodes
  | .tbRoot => 1 + s.symCount.toNat + 1 + s.symCount.toNat + (s.symCount.toNat - 1)
  | .bsHdr => 1 + s.symCount.toNat + 1 + s.symCount.toNat + (s.symCount.toNat - 1) + 1
  | .bsBit => opsBeforePayload s + s.cursor.toNat
  | .bsRun1 => opsBeforePayload s + s.idx.toNat
  | .vlInit => opsBeforePayload s + opsOfDecode s
  | .vlTally => opsBeforePayload s + opsOfDecode s + 1 + s.idx.toNat
  | .vlCmp => opsBeforePayload s + opsOfDecode s + 1 + s.outLen.toNat + s.idx.toNat
  | .haltDone | .haltErr => operationBound s

theorem operationBound_eq (s : State) :
    operationBound s = opsBeforePayload s + opsOfDecode s + 1 + s.outLen.toNat + s.symCount.toNat := rfl

/-- One operation from `s` to `t`, in a run: the invariant holds again and the count has grown. -/
structure Advances (s t : State) : Prop where
  inv : RunInv t
  elapsed : elapsed s < elapsed t

/-- The operation answers a next state, and advances the run. -/
def StepsWell (s : State) (o : Host.Outcome State Fault Refusal) : Prop := ∃ t, o = .next t ∧ Advances s t

/-! ### Words -/

theorem toNat_succ_of_lt {x y : Word32} (h : x.toNat < y.toNat) : (x + 1).toNat = x.toNat + 1 := by
  bv_omega

theorem toNat_succ_le_of_ne {x y : Word32} (h : x.toNat < y.toNat) (hne : x + 1 ≠ y) : (x + 1).toNat < y.toNat := by
  bv_omega

theorem toNat_lt_of_ne {x y : Word32} (hle : x.toNat ≤ y.toNat) (h : x ≠ y) : x.toNat < y.toNat := by
  bv_omega

theorem toNat_pos_of_ne_zero {x : Word32} (h : x ≠ 0) : 0 < x.toNat := by
  bv_omega

/-! ### States that differ outside the tree -/

/-- The fields that the tree, the table and the output rest on. -/
def treePart (s : State) :
    Config × Word32 × Nat × Nat × NodeRef × Store FtEntry × Store TreeNode × Store Nat × Word32 × Memory :=
  (s.cfg, s.symCount, s.hsize, s.nnodes, s.root, s.ft, s.node, s.heap, s.outLen, s.outBuf)

theorem SameTree.of_eq (h : treePart t = treePart s) : SameTree s t := by
  simp only [treePart, Prod.mk.injEq] at h
  obtain ⟨h1, h2, h3, h4, h5, h6, h7, h8, h9, h10⟩ := h
  exact ⟨h1, h2, h3, h4, h5, h6, h7, h8, h9, h10⟩

/-- The table depends on less than the tree does. -/
theorem TableRead.of_eq {m : Nat} (h : TableRead s m) (hc : t.cfg = s.cfg) (hn : t.symCount = s.symCount)
    (hf : t.ft = s.ft) : TableRead t m :=
  ⟨by rw [hc, hn]; exact h.fits, by rw [hf]; exact h.listed⟩

/-! ### Errors (rules R241 to R246, R252) -/

theorem BlockError.sub_bounds (e : BlockError) : 1 ≤ e.sub.toNat ∧ e.sub.toNat ≤ 6 := by
  cases e <;> simp [BlockError.sub]

/-- Only a `DecodeError` writes `ERR_CURSOR`. -/
theorem raise_errCursor_of_code {e : BlockError} (he : e.code ≠ 2) : (raise e s).errCursor = s.errCursor := by
  cases e with
  | deadEnd | outOfBounds => exact absurd rfl he
  | hdrTrunc | entTrunc | zeroSyms | bodyTrunc | payloadTrunc | bitsExceed | countMismatch _ _ _ | syms | out => rfl

/-- Only a `ValidationError` writes the context of a mismatch. -/
theorem NoMismatch.raise {e : BlockError} (h : NoMismatch s) (he : e.code ≠ 3) : NoMismatch (raise e s) := by
  cases e with
  | countMismatch _ _ _ => exact absurd rfl he
  | hdrTrunc | entTrunc | zeroSyms | bodyTrunc | payloadTrunc | bitsExceed | deadEnd | outOfBounds | syms | out => exact h

theorem NoError.noMismatch (h : NoError s) : NoMismatch s := by
  obtain ⟨-, -, hsym, hdeclared, hobserved, -⟩ := h
  exact ⟨hsym, hdeclared, hobserved⟩

theorem NoError.cursor (h : NoError s) : s.errCursor = 0 := by
  obtain ⟨-, -, -, -, -, hcursor⟩ := h
  exact hcursor

/-- A `FormatError` is raised from a clean record and before any output (rules R241, R242). -/
theorem errorRecord_format {e : BlockError} (he : e.code = 1) (h : NoError s) (ho : s.outLen = 0) :
    ErrorRecord (raise e s) :=
  .format he e.sub_bounds.1 e.sub_bounds.2 (h.noMismatch.raise (by rw [he]; decide))
    ((raise_errCursor_of_code (by rw [he]; decide)).trans h.cursor) ho

/-- `raise` ends the run well when its record is as its kind calls for. -/
theorem advances_raise {e : BlockError} (hr : ErrorRecord (raise e t)) (hfit : t.outLen.toNat ≤ t.cfg.outCap)
    (hlt : elapsed s < operationBound t) : Advances s (raise e t) :=
  ⟨⟨hfit, hr⟩, hlt⟩

/-- A `FormatError` of the first phases ends the run well. -/
theorem advances_format {e : BlockError} (he : e.code = 1) (h : NoError t) (ho : t.outLen = 0)
    (hlt : elapsed s < operationBound t) : Advances s (raise e t) :=
  advances_raise (errorRecord_format he h ho) (by simp [ho]) hlt

end Sys2Proof.Machine
end

section
/-! PROOFS. The Frequency Table Reader advances a run (rules R141, R142). -/

namespace Sys2Proof.Machine

variable {s t : State}

theorem execFtHdr_answers (s : State) : ∃ t, execFtHdr s = .next t := by
  unfold execFtHdr
  split
  · exact ⟨_, rfl⟩
  · rw [memRead4_eq (by omega), memRead4_eq (by omega), memRead4_eq (by omega)]
    exact ⟨_, rfl⟩

/-- The ways the checks of `FT.HDR` end, with the condition of each. -/
theorem ftHdrChecks_conditions (s : State) :
    ftHdrChecks s = raise .entTrunc s ∨ (s.cfg.maxSyms < s.symCount.toNat ∧ ftHdrChecks s = raise .syms s) ∨
    (TableInside s ∧ s.symCount.toNat ≤ s.cfg.maxSyms ∧
      ((s.symCount = 0 ∧ ftHdrChecks s = { s with idx := 0, phase := .tbInit }) ∨
        (s.symCount ≠ 0 ∧ ftHdrChecks s = { s with idx := 0, phase := .ftEnt }))) := by
  unfold ftHdrChecks
  split
  · exact .inl rfl
  · next hin =>
    split
    · next hmax => exact .inr (.inl ⟨hmax, rfl⟩)
    · next hmax =>
      refine .inr (.inr ⟨not_lt.1 hin, not_lt.1 hmax, ?_⟩)
      by_cases h0 : s.symCount = 0
      · exact .inl ⟨h0, by rw [if_pos h0]⟩
      · exact .inr ⟨h0, by rw [if_neg h0]⟩

theorem ftHdrChecks_advances (hne : NoError t) (ho : t.outLen = 0) (start : elapsed s = 0) :
    Advances s (ftHdrChecks t) := by
  have hpos : elapsed s < operationBound t := by rw [start, operationBound_eq, opsBeforePayload]; omega
  have hfit : t.outLen.toNat ≤ t.cfg.outCap := by simp [ho]
  rcases ftHdrChecks_conditions t with e | ⟨hmax, e⟩ | ⟨hin, hmax, ⟨h0, e⟩ | ⟨h0, e⟩⟩ <;> rw [e]
  · exact advances_format rfl hne ho hpos
  · exact advances_raise (.tooManySymbols rfl rfl hne.noMismatch hne.cursor hmax ho) hfit hpos
  · have table : TableRead t t.symCount.toNat := ⟨hmax, fun i hi => absurd hi (by simp [h0])⟩
    refine ⟨⟨hfit, hne, ho, hin, table.of_eq rfl rfl rfl⟩, ?_⟩
    rw [start]
    exact Nat.add_pos_left Nat.one_pos _
  · have table : TableRead { t with idx := 0, phase := .ftEnt } 0 := ⟨hmax, fun i hi => absurd hi (Nat.not_lt_zero i)⟩
    refine ⟨⟨hfit, hne, ho, hin, table, toNat_pos_of_ne_zero h0⟩, ?_⟩
    rw [start]
    exact Nat.add_pos_left Nat.one_pos _

theorem execFtHdr_stepsWell (h : RunInv s) (hp : s.phase = .ftHdr) : StepsWell s (execFtHdr s) := by
  obtain ⟨t, ht⟩ := execFtHdr_answers s
  obtain ⟨-, hph⟩ := h
  simp only [PhaseInv, hp] at hph
  obtain ⟨hne, ho⟩ := hph
  have start : elapsed s = 0 := by simp only [elapsed, hp]
  refine ⟨t, ht, ?_⟩
  rcases execFtHdr_next ht with ⟨-, rfl⟩ | ⟨-, rfl⟩
  · refine advances_format rfl hne ho ?_
    rw [start, operationBound_eq, opsBeforePayload]
    omega
  · exact ftHdrChecks_advances hne ho start

theorem execFtEnt_answers (hin : TableInside s) (hi : s.idx.toNat < s.symCount.toNat)
    (hmax : s.symCount.toNat ≤ s.cfg.maxSyms) : ∃ t, execFtEnt s = .next t := by
  unfold TableInside entriesEnd at hin
  have hw := fun e => (writeFt_ok (s := s) (i := s.idx.toNat) (e := e)).2 ⟨hi.trans_le hmax, rfl⟩
  unfold execFtEnt
  rw [if_neg (by omega), memRead4_eq (by unfold entryAddr; omega), memRead1_eq (by unfold entryAddr; omega)]
  simp only [except_ok_bind, hw, finish_ok]
  exact ⟨_, rfl⟩

/-- One entry more is in the table. -/
theorem TableRead.write {m : Nat} {e : FtEntry} (h : TableRead s m) (hc : t.cfg = s.cfg) (hn : t.symCount = s.symCount)
    (hf : t.ft = Store.write s.ft m e) : TableRead t (m + 1) := by
  refine ⟨by rw [hc, hn]; exact h.fits, fun i hi => ?_⟩
  rw [hf, store_read_write]
  split
  · exact ⟨e, rfl⟩
  · exact h.listed i (by omega)

/-- The two ways `FT.ENT` goes on (rule R142). -/
theorem ftEntNext_cases (s : State) :
    (s.idx + 1 = s.symCount ∧ ftEntNext s = { s with idx := s.idx + 1, phase := .tbInit }) ∨
    (s.idx + 1 ≠ s.symCount ∧ ftEntNext s = { s with idx := s.idx + 1, phase := .ftEnt }) := by
  by_cases hl : s.idx + 1 = s.symCount
  · exact .inl ⟨hl, by rw [ftEntNext, if_pos hl]⟩
  · exact .inr ⟨hl, by rw [ftEntNext, if_neg hl]⟩

theorem ftEntNext_advances (hne : NoError t) (ho : t.outLen = 0) (hin : TableInside t)
    (hread : TableRead t (t.idx.toNat + 1)) (hi : t.idx.toNat < t.symCount.toNat) (start : elapsed s = 1 + t.idx.toNat) :
    Advances s (ftEntNext t) := by
  have hfit : t.outLen.toNat ≤ t.cfg.outCap := by simp [ho]
  have hsucc := toNat_succ_of_lt hi
  rw [← hsucc] at hread
  rcases ftEntNext_cases t with ⟨hl, e⟩ | ⟨hl, e⟩ <;> rw [e]
  · rw [hl] at hread hsucc
    refine ⟨⟨hfit, hne, ho, hin, hread.of_eq rfl rfl rfl⟩, ?_⟩
    rw [start]
    simp only [elapsed]
    omega
  · refine ⟨⟨hfit, hne, ho, hin, hread.of_eq rfl rfl rfl, toNat_succ_le_of_ne hi hl⟩, ?_⟩
    rw [start]
    simp only [elapsed]
    omega

theorem execFtEnt_stepsWell (h : RunInv s) (hp : s.phase = .ftEnt) : StepsWell s (execFtEnt s) := by
  obtain ⟨-, hph⟩ := h
  simp only [PhaseInv, hp] at hph
  obtain ⟨hne, ho, hin, htab, hi⟩ := hph
  obtain ⟨t, ht⟩ := execFtEnt_answers hin hi htab.fits
  refine ⟨t, ht, ?_⟩
  obtain ⟨-, -, rfl⟩ := execFtEnt_next ht
  exact ftEntNext_advances hne ho hin (htab.write rfl rfl rfl) hi (by simp only [elapsed, hp])

end Sys2Proof.Machine
end

section
/-! PROOFS. The Tree Builder advances a run (rules R161 to R165). -/

namespace Sys2Proof.Machine

variable {s t : State}

theorem execTbInit_stepsWell (h : RunInv s) (hp : s.phase = .tbInit) : StepsWell s (execTbInit s) := by
  obtain ⟨hfit, hph⟩ := h
  simp only [PhaseInv, hp] at hph
  obtain ⟨hne, ho, hin, htab⟩ := hph
  have start : elapsed s = 1 + s.symCount.toNat := by simp only [elapsed, hp]
  refine ⟨_, rfl, ?_⟩
  rcases execTbInit_next (s := s) rfl with ⟨-, e⟩ | ⟨h0, e⟩ <;> rw [e]
  · refine advances_format rfl hne ho ?_
    rw [start, operationBound_eq, opsBeforePayload]
    omega
  · refine ⟨⟨hfit, hne, ho, hin, htab.of_eq rfl rfl rfl, toNat_pos_of_ne_zero h0, rfl, building_empty rfl rfl⟩, ?_⟩
    rw [start]
    simp [elapsed]

/-- The three ways `TB.LEAF` goes on (rule R162). -/
theorem tbLeafNext_cases (hi : s.idx.toNat < s.symCount.toNat) :
    ((s.idx + 1).toNat < s.symCount.toNat ∧ tbLeafNext s = { s with idx := s.idx + 1, phase := .tbLeaf }) ∨
    (s.idx + 1 = s.symCount ∧ 1 < s.hsize ∧ tbLeafNext s = { s with idx := s.idx + 1, phase := .tbMerge }) ∨
    (s.idx + 1 = s.symCount ∧ s.hsize ≤ 1 ∧ tbLeafNext s = { s with idx := s.idx + 1, phase := .tbRoot }) := by
  by_cases hl : s.idx + 1 < s.symCount
  · exact .inl ⟨BitVec.lt_def.1 hl, by rw [tbLeafNext, if_pos hl]⟩
  · have last : s.idx + 1 = s.symCount := by bv_omega
    by_cases h1 : 1 < s.hsize
    · exact .inr (.inl ⟨last, h1, by rw [tbLeafNext, if_neg hl, pqSize, if_pos h1]⟩)
    · exact .inr (.inr ⟨last, not_lt.1 h1, by rw [tbLeafNext, if_neg hl, pqSize, if_neg h1]⟩)

theorem tbLeafNext_advances (hne : NoError t) (ho : t.outLen = 0) (hin : TableInside t) (htab : TableRead t t.symCount.toNat)
    (hi : t.idx.toNat < t.symCount.toNat) (hn : t.nnodes = t.idx.toNat + 1) (hb : Building t (t.idx.toNat + 1))
    (start : elapsed s = 1 + t.symCount.toNat + 1 + t.idx.toNat) : Advances s (tbLeafNext t) := by
  have hfit : t.outLen.toNat ≤ t.cfg.outCap := by simp [ho]
  have hsucc := toNat_succ_of_lt hi
  have balance := hb.balance
  rw [← hsucc] at hb hn
  rcases tbLeafNext_cases hi with ⟨hl, e⟩ | ⟨hl, h1, e⟩ | ⟨hl, h1, e⟩ <;> rw [e]
  · refine ⟨⟨hfit, hne, ho, hin, htab.of_eq rfl rfl rfl, hl, hn, hb.congr (.of_eq rfl)⟩, ?_⟩
    rw [start]
    simp only [elapsed]
    omega
  · rw [hl] at hb
    refine ⟨⟨hfit, hne, ho, hin, htab.of_eq rfl rfl rfl, h1, hb.congr (.of_eq rfl)⟩, ?_⟩
    rw [start]
    simp only [elapsed]
    omega
  · rw [hl] at hb
    refine ⟨⟨hfit, hne, ho, hin, htab.of_eq rfl rfl rfl, show t.hsize = 1 by omega, hb.congr (.of_eq rfl)⟩, ?_⟩
    rw [start]
    simp only [elapsed]
    omega

theorem execTbLeaf_stepsWell (h : RunInv s) (hp : s.phase = .tbLeaf) : StepsWell s (execTbLeaf s) := by
  obtain ⟨hfit, hph⟩ := h
  simp only [PhaseInv, hp] at hph
  obtain ⟨hne, ho, hin, htab, hi, hn, hb⟩ := hph
  obtain ⟨e, he⟩ := htab.listed _ hi
  have balance := hb.balance
  have hmax := htab.fits
  obtain ⟨h', _, rfl, eadd, hg, hperm⟩ := HeapGood.addNode (n := leafOf e) ⟨hb.filled, hb.ordered⟩ (by omega) (by omega)
  have run : execTbLeaf s = .next (tbLeafNext { s with
      node := Store.write s.node s.nnodes (leafOf e), nnodes := s.nnodes + 1, heap := h', hsize := s.hsize + 1 }) := by
    rw [execTbLeaf, if_neg (by omega), readFt_ok.2 ⟨hi, he⟩, except_ok_bind, ← hn, eadd]
    rfl
  refine ⟨_, run, tbLeafNext_advances hne ho hin (htab.of_eq rfl rfl rfl) hi (congrArg (· + 1) hn) ?_
    (by simp only [elapsed, hp])⟩
  exact hb.add_leaf hn he ⟨rfl, rfl, rfl⟩ rfl hg hperm

/-- The two ways `TB.MERGE` goes on (rule R163). -/
theorem tbMergeNext_cases (s : State) :
    (1 < s.hsize ∧ tbMergeNext s = { s with phase := .tbMerge }) ∨
    (s.hsize ≤ 1 ∧ tbMergeNext s = { s with phase := .tbRoot }) := by
  by_cases h1 : 1 < s.hsize
  · exact .inl ⟨h1, by rw [tbMergeNext, pqSize, if_pos h1]⟩
  · exact .inr ⟨not_lt.1 h1, by rw [tbMergeNext, pqSize, if_neg h1]⟩

theorem tbMergeNext_advances (hne : NoError t) (ho : t.outLen = 0) (hin : TableInside t)
    (htab : TableRead t t.symCount.toNat) (h1 : 1 ≤ t.hsize) (hb : Building t t.symCount.toNat)
    (start : elapsed s = 1 + t.symCount.toNat + t.nnodes) : Advances s (tbMergeNext t) := by
  have hfit : t.outLen.toNat ≤ t.cfg.outCap := by simp [ho]
  have balance := hb.balance
  rcases tbMergeNext_cases t with ⟨h2, e⟩ | ⟨h2, e⟩ <;> rw [e]
  · refine ⟨⟨hfit, hne, ho, hin, htab.of_eq rfl rfl rfl, h2, hb.congr (.of_eq rfl)⟩, ?_⟩
    rw [start]
    simp only [elapsed]
    omega
  · refine ⟨⟨hfit, hne, ho, hin, htab.of_eq rfl rfl rfl, le_antisymm h2 h1, hb.congr (.of_eq rfl)⟩, ?_⟩
    rw [start]
    simp only [elapsed]
    omega

/-- `TB.MERGE` while two nodes or more remain: it pops two of them and pushes the node over them (rule R163). -/
theorem execTbMerge_merges {m : Nat} (hb : Building s m) (hfit : countSum s m < 2 ^ 64) (h2 : 2 ≤ s.hsize)
    (hmax : m ≤ s.cfg.maxSyms) :
    ∃ x y h' t, t = { s with
        node := Store.write s.node s.nnodes (joinOf x y (nodeFreq s.node x) (nodeFreq s.node y)), nnodes := s.nnodes + 1,
        heap := h', hsize := s.hsize - 1 } ∧
      execTbMerge s = .next (tbMergeNext t) ∧ Building t m := by
  have balance := hb.balance
  have leaves := hb.leaves_le
  have good : HeapGood s := ⟨hb.filled, hb.ordered⟩
  obtain ⟨x, h₁, e₁, hx, good₁, perm₁⟩ := good.pqPop (by omega)
  obtain ⟨y, h₂, e₂, hy, good₂, perm₂⟩ := good₁.pqPop (show s.hsize - 1 ≠ 0 by omega)
  have old : ∀ {z}, z ∈ heapNodes s → freqOf s z = .ok (nodeFreq s.node z) := fun {z} hz => by
    obtain ⟨j, hj, hr⟩ := mem_heapNodes.1 hz
    obtain ⟨k, nd, hk, hlt, hn⟩ := hb.filled j hj
    obtain rfl : z = k := by rw [hr] at hk; exact Option.some.inj hk
    exact freqOf_eq hlt hn
  have hy' : y ∈ heapNodes s := perm₁.mem_iff.1 (List.mem_cons_of_mem _ hy)
  obtain ⟨h', _, rfl, e₃, good₃, perm₃⟩ := good₂.addNode (n := joinOf x y (nodeFreq s.node x) (nodeFreq s.node y))
    (show s.nnodes < 2 * s.cfg.maxSyms - 1 by omega) (show s.hsize - 1 - 1 < s.cfg.maxSyms by omega)
  have size : s.hsize - 1 - 1 + 1 = s.hsize - 1 := by omega
  simp only [size] at e₃ good₃ perm₃
  refine ⟨x, y, h', _, rfl, ?_, ?_⟩
  · rw [execTbMerge, if_neg (by omega), e₁, except_ok_bind]
    dsimp only
    rw [e₂, except_ok_bind]
    dsimp only
    have fx : freqOf { s with heap := h₂, hsize := s.hsize - 1 - 1 } x = .ok (nodeFreq s.node x) := old hx
    have fy : freqOf { s with heap := h₂, hsize := s.hsize - 1 - 1 } y = .ok (nodeFreq s.node y) := old hy'
    rw [fx, except_ok_bind, fy, except_ok_bind, e₃]
    rfl
  · have popped : s.hsize - 1 + 1 = s.hsize := by omega
    exact hb.merge hfit ((perm₂.cons x).trans perm₁) ⟨rfl, rfl, rfl⟩ popped good₃ perm₃

theorem execTbMerge_stepsWell (h : RunInv s) (hp : s.phase = .tbMerge) : StepsWell s (execTbMerge s) := by
  obtain ⟨hfit, hph⟩ := h
  simp only [PhaseInv, hp] at hph
  obtain ⟨hne, ho, hin, htab, h2, hb⟩ := hph
  obtain ⟨x, y, h', _, rfl, run, built⟩ := execTbMerge_merges hb (countSum_symCount_lt s) h2 htab.fits
  refine ⟨_, run, tbMergeNext_advances hne ho hin (htab.of_eq rfl rfl rfl) (show 1 ≤ s.hsize - 1 by omega) built ?_⟩
  simp only [elapsed, hp]
  omega

/-- The tree that `TB.ROOT` hands over (rules R164, R165). -/
theorem Building.treeBuilt {r : Nat} (h : Building s s.symCount.toNat) (h1 : s.hsize = 1) (hr : Store.read s.heap 0 = some r)
    (hpos : 1 ≤ s.symCount.toNat) : TreeBuilt { s with hsize := 0, root := some r, phase := .bsHdr } := by
  obtain ⟨nodes, hroot⟩ := h.root_eq h1 hr
  have balance := h.balance
  have arena := h.arena
  rw [nodes, hroot] at arena
  exact ⟨hpos, rfl, show s.nnodes + 1 = 2 * s.symCount.toNat by omega, congrArg some hroot,
    ⟨arena.leaf, arena.inner, arena.forest, arena.weight⟩⟩

theorem execTbRoot_answers (h : HeapFilled s) (h1 : s.hsize = 1) : ∃ t, execTbRoot s = .next t := by
  obtain ⟨r, nd, hr, -, -⟩ := h 0 (by omega)
  have pop : pqPop s = .ok (r, { s with hsize := s.hsize - 1 }) := by simp [pqPop, h1, heapAt, hr]
  refine ⟨{ s with hsize := s.hsize - 1, root := some r, phase := .bsHdr }, ?_⟩
  rw [execTbRoot, if_neg (by omega), pop]
  rfl

theorem execTbRoot_stepsWell (h : RunInv s) (hp : s.phase = .tbRoot) : StepsWell s (execTbRoot s) := by
  obtain ⟨hfit, hph⟩ := h
  simp only [PhaseInv, hp] at hph
  obtain ⟨hne, ho, hin, htab, h1, hb⟩ := hph
  have balance := hb.balance
  have leaves := hb.leaves_le
  obtain ⟨t, ht⟩ := execTbRoot_answers hb.filled h1
  refine ⟨t, ht, ?_⟩
  obtain ⟨-, r, hr, rfl⟩ := execTbRoot_next ht
  refine ⟨⟨hfit, hne, ho, hin, htab.of_eq rfl rfl rfl, hb.treeBuilt h1 hr (by omega)⟩, ?_⟩
  simp only [elapsed, hp]
  omega

end Sys2Proof.Machine
end

section
/-! PROOFS. The Bit Stream Decoder, over the built tree, advances a run (rules R181 to R186). -/

namespace Sys2Proof.Machine

variable {s t : State}

theorem TreeBuilt.nnodes_pos (h : TreeBuilt s) : 0 < s.nnodes := by
  have := h.some1
  have := h.size
  omega

/-- The root is a leaf exactly in the single-symbol case. -/
theorem TreeBuilt.read_root (h : TreeBuilt s) :
    ∃ nd, readNodeRef s s.root = .ok nd ∧ (nd.leaf = true ↔ s.symCount.toNat = 1) := by
  have hpos := h.nnodes_pos
  have hsize := h.size
  have hlt : s.nnodes - 1 < s.nnodes := by omega
  rcases h.arena.read_node hlt with ⟨hk, e, -, hn⟩ | ⟨hk, a, b, -, -, hn⟩
  · exact ⟨_, readNodeRef_ok.2 ⟨_, h.rootIs, hlt, hn⟩, by simp only [leafOf, true_iff]; omega⟩
  · exact ⟨_, readNodeRef_ok.2 ⟨_, h.rootIs, hlt, hn⟩, by simp only [joinOf, Bool.false_eq_true, false_iff]; omega⟩

/-- The tree does not rest on the output. -/
theorem TreeBuilt.set_output (h : TreeBuilt s) (b : Memory) (l : Word32) : TreeBuilt { s with outBuf := b, outLen := l } :=
  ⟨h.some1, h.emptied, h.size, h.rootIs, ⟨h.arena.leaf, h.arena.inner, h.arena.forest, h.arena.weight⟩⟩

/-! ### `BS.HDR` -/

theorem execBsHdr_answers (h : TreeBuilt s) : ∃ t, execBsHdr s = .next t := by
  obtain ⟨nd, hnd, -⟩ := h.read_root
  unfold execBsHdr
  split
  · exact ⟨_, rfl⟩
  rw [memRead4_eq (by omega), memRead4_eq (by omega), memRead4_eq (by omega)]
  simp only [except_ok_bind]
  unfold bsHdrChecks
  split
  · exact ⟨_, rfl⟩
  split
  · exact ⟨_, rfl⟩
  have hroot : ∀ bits bytes unpacked base, readNodeRef { s with
      packedBits := bits, packedBytes := bytes, unpackedBytes := unpacked, payloadBase := base } s.root = .ok nd :=
    fun _ _ _ _ => hnd
  rw [hroot, except_ok_bind]
  exact ⟨_, rfl⟩

theorem entriesEnd_toNat (s : State) : (BitVec.ofNat 64 (entriesEnd s + 12)).toNat = entriesEnd s + 12 := by
  unfold entriesEnd
  have := s.symCount.isLt
  rw [BitVec.toNat_ofNat, Nat.mod_eq_of_lt (by omega)]

/-- The end of `BS.HDR`: the walk starts at the root, or the one symbol is emitted (rule R181). -/
theorem bsHdrEnd_advances {nd : TreeNode} (hne : NoError t) (ho : t.outLen = 0) (htab : TableRead t t.symCount.toNat)
    (htree : TreeBuilt t) (hpay : PayloadInside t) (hleaf : nd.leaf = true ↔ t.symCount.toNat = 1)
    (start : elapsed s = 1 + t.symCount.toNat + 1 + t.symCount.toNat + (t.symCount.toNat - 1) + 1) :
    Advances s { t with cursor := 0, walk := t.root, idx := 0, phase := if nd.leaf then .bsRun1 else .bsBit } := by
  have hfit : t.outLen.toNat ≤ t.cfg.outCap := by simp [ho]
  have emitted : ∀ u : State, u.outLen = 0 → Emitted u := fun u hu j hj => by simp [hu] at hj
  have some1 := htree.some1
  have size := htree.size
  by_cases h1 : t.symCount.toNat = 1
  · rw [if_pos (hleaf.2 h1)]
    refine ⟨⟨hfit, hne, htab.of_eq rfl rfl rfl, htree.congr (.of_eq rfl), emitted _ ho, h1, rfl, ho, Nat.zero_le _⟩, ?_⟩
    rw [start]
    simp only [elapsed, opsBeforePayload]
    omega
  · rw [if_neg (mt hleaf.1 h1)]
    refine ⟨⟨hfit, hne, htab.of_eq rfl rfl rfl, htree.congr (.of_eq rfl), ⟨hpay.base, hpay.bytes, hpay.bits⟩, emitted _ ho,
      show 2 ≤ t.symCount.toNat by omega,
      ⟨t.nnodes - 1, htree.rootIs, show t.symCount.toNat ≤ t.nnodes - 1 by omega, show t.nnodes - 1 < t.nnodes by omega⟩,
      Nat.zero_le _, fun _ => rfl, ?_⟩, ?_⟩
    · show t.outLen.toNat ≤ 0
      simp [ho]
    · rw [start]
      simp only [elapsed, opsBeforePayload]
      omega

theorem execBsHdr_stepsWell (h : RunInv s) (hp : s.phase = .bsHdr) : StepsWell s (execBsHdr s) := by
  obtain ⟨hfit, hph⟩ := h
  simp only [PhaseInv, hp] at hph
  obtain ⟨hne, ho, hin, htab, htree⟩ := hph
  obtain ⟨t, ht⟩ := execBsHdr_answers htree
  have start : elapsed s = 1 + s.symCount.toNat + 1 + s.symCount.toNat + (s.symCount.toNat - 1) + 1 := by
    simp only [elapsed, hp]
  have early : ∀ u : State, u.symCount = s.symCount → elapsed s < operationBound u := fun u hu => by
    rw [start, operationBound_eq, opsBeforePayload, hu]
    omega
  refine ⟨t, ht, ?_⟩
  rcases execBsHdr_next ht with ⟨-, rfl⟩ | ⟨-, u, hu, rfl | rfl | ⟨hbytes, hbits, r, nd, hr, hrn, hrd, rfl⟩⟩
  · exact advances_format rfl hne ho (early _ rfl)
  · subst hu
    exact advances_format rfl hne ho (early _ rfl)
  · subst hu
    exact advances_format rfl hne ho (early _ rfl)
  · subst hu
    obtain ⟨nd', hnd', hleaf⟩ := htree.read_root
    obtain ⟨r', hr', -, hrd'⟩ := readNodeRef_ok.1 hnd'
    obtain rfl : r = r' := Option.some.inj (hr.symm.trans hr')
    obtain rfl : nd = nd' := Option.some.inj (hrd.symm.trans hrd')
    exact bsHdrEnd_advances hne ho (htab.of_eq rfl rfl rfl) (htree.congr (.of_eq rfl)) ⟨entriesEnd_toNat s, hbytes, hbits⟩ hleaf
      start

/-! ### Emission -/

/-- One byte more of the output is the symbol of a table entry. -/
theorem Emitted.emit {i : Nat} {e : FtEntry} (h : Emitted s) (hi : i < s.symCount.toNat) (he : Store.read s.ft i = some e)
    (hn : t.symCount = s.symCount) (hf : t.ft = s.ft) (hb : t.outBuf = Store.write s.outBuf s.outLen.toNat e.sym)
    (hl : t.outLen.toNat = s.outLen.toNat + 1) : Emitted t := by
  intro j hj
  rw [hn, hf, hb]
  by_cases hjo : j = s.outLen.toNat
  · subst hjo
    exact ⟨i, e, hi, he, store_read_write_same _ _ _⟩
  · rw [store_read_write_other _ _ hjo]
    exact h j (by omega)

theorem emitThen_answers {x : Byte} {k : State → State} (h : s.outLen.toNat ≤ s.cfg.outCap) :
    ∃ t, emitThen x s k = .ok t := by
  rcases h.eq_or_lt with heq | hlt
  · exact ⟨_, emitThen_ok.2 (.inl ⟨heq, rfl⟩)⟩
  · exact ⟨_, emitThen_ok.2 (.inr ⟨hlt, rfl⟩)⟩

/-- Where decoding ends without error, the run goes on to the validator or is done. -/
theorem afterDecode_advances (hfit : t.outLen.toNat ≤ t.cfg.outCap) (hne : NoError t) (hd : Decoded t)
    (hlt : elapsed s < opsBeforePayload t + opsOfDecode t) : Advances s { t with phase := afterDecode t } := by
  have decoded : ∀ p, Decoded { t with phase := p } := fun p => hd.congr (.of_eq rfl) rfl rfl
  by_cases hv : t.validateEn = true
  · have e : afterDecode t = .vlInit := if_pos hv
    rw [e]
    exact ⟨⟨hfit, hne, decoded _, hv⟩, hlt⟩
  · have e : afterDecode t = .haltDone := if_neg hv
    rw [e]
    refine ⟨⟨hfit, hne, decoded _, fun h => absurd h hv⟩, hlt.trans_le ?_⟩
    show _ ≤ operationBound t
    rw [operationBound_eq]
    omega

/-! ### `BS.BIT` -/

theorem opsOfDecode_general (h : 2 ≤ s.symCount.toNat) : opsOfDecode s = s.packedBits.toNat + 1 := if_neg (by omega)

theorem opsOfDecode_single (h : s.symCount.toNat = 1) : opsOfDecode s = countOf s 0 + 1 := if_pos h

/-- A walk node is internal, over two older nodes that exist; each of them is a leaf of the table or internal again. -/
theorem TreeBuilt.read_walk (h : TreeBuilt s) {w : Nat} (hw : s.symCount.toNat ≤ w) (hlt : w < s.nnodes) (bit : Bool) :
    ∃ nd k c, Store.read s.node w = some nd ∧ nd.leaf = false ∧ (if bit then nd.right else nd.left) = some k ∧
      k < s.nnodes ∧ Store.read s.node k = some c ∧
      ((k < s.symCount.toNat ∧ c.leaf = true ∧ ∃ e, Store.read s.ft k = some e ∧ c.sym = e.sym) ∨
        (s.symCount.toNat ≤ k ∧ c.leaf = false)) := by
  rcases h.arena.read_node hlt with ⟨hlt', -⟩ | ⟨-, a, b, ha, hb, hn⟩
  · omega
  obtain ⟨k, hk, hkw⟩ : ∃ k, (if bit then some b else some a) = some k ∧ k < w := by
    cases bit with
    | true => exact ⟨b, rfl, hb⟩
    | false => exact ⟨a, rfl, ha⟩
  rcases h.arena.read_node (hkw.trans hlt) with ⟨hkl, e, he, hc⟩ | ⟨hkl, x, y, -, -, hc⟩
  · exact ⟨_, k, _, hn, rfl, hk, hkw.trans hlt, hc, .inl ⟨hkl, rfl, e, he, rfl⟩⟩
  · exact ⟨_, k, _, hn, rfl, hk, hkw.trans hlt, hc, .inr ⟨hkl, rfl⟩⟩

/-- The byte of the next payload bit lies inside the input (rules R61, R96, R181). -/
theorem PayloadInside.payloadAddr_lt (h : PayloadInside s) (hc : s.cursor.toNat < s.packedBits.toNat) :
    payloadAddr s + 1 ≤ s.inLen.toNat := by
  have := h.bytes
  have := h.bits
  unfold payloadAddr
  omega

theorem bsBitArrive_answers {k : Nat} {c : TreeNode} (hk : k < s.nnodes) (hr : Store.read s.node k = some c)
    (hfit : s.outLen.toNat ≤ s.cfg.outCap) : ∃ t, bsBitArrive s (some k) = .ok t := by
  have hread : readNode { s with walk := some k } k = .ok c := readNode_ok.2 ⟨hk, hr⟩
  simp only [bsBitArrive, hread, except_ok_bind]
  split
  · exact emitThen_answers hfit
  · split
    · exact ⟨_, rfl⟩
    · exact ⟨_, rfl⟩

theorem execBsBit_answers {w : Nat} (htree : TreeBuilt s) (hpay : PayloadInside s) (hwalk : s.walk = some w)
    (hw : s.symCount.toNat ≤ w) (hlt : w < s.nnodes) (hc : s.cursor.toNat ≤ s.packedBits.toNat)
    (hfit : s.outLen.toNat ≤ s.cfg.outCap) : ∃ t, execBsBit s = .next t := by
  obtain ⟨nd, k, c, hn, hinner, hk, hkn, hkr, -⟩ :=
    htree.read_walk hw hlt (bitOfByte (inByte s (payloadAddr s)) s.cursor.toNat)
  rw [execBsBit, readNodeRef_ok.2 ⟨w, hwalk, hlt, hn⟩, except_ok_bind, if_neg (by simp [hinner])]
  split
  · exact ⟨_, rfl⟩
  · next hne =>
    rw [payloadBit, memRead1_eq (hpay.payloadAddr_lt (toNat_lt_of_ne hc hne))]
    simp only [except_ok_bind, hk]
    obtain ⟨t, ht⟩ := bsBitArrive_answers (s := { s with cursor := s.cursor + 1 }) hkn hkr hfit
    exact ⟨t, finish_next.2 ht⟩

/-- What holds at `BS.BIT`, wherever the walk stands. -/
structure Walks (s : State) : Prop where
  outFits : s.outLen.toNat ≤ s.cfg.outCap
  noError : NoError s
  table : TableRead s s.symCount.toNat
  tree : TreeBuilt s
  payload : PayloadInside s
  emitted : Emitted s
  several : 2 ≤ s.symCount.toNat
  output : s.outLen.toNat ≤ s.cursor.toNat
  count : elapsed s = opsBeforePayload s + s.cursor.toNat

/-- All bits are consumed between two codes: decoding has completed (rule R186). -/
theorem Walks.completes (h : Walks s) (hc : s.cursor = s.packedBits) : Advances s { s with phase := afterDecode s } := by
  have several := h.several
  refine afterDecode_advances h.outFits h.noError ⟨h.table, h.tree, h.emitted, fun _ => hc, fun h1 => by omega⟩ ?_
  rw [h.count, opsOfDecode_general several, hc]
  omega

/-- The bound leaves room for the bit consumed. -/
theorem Walks.early (h : Walks s) (hc : s.cursor.toNat < s.packedBits.toNat) : elapsed s < operationBound s := by
  rw [h.count, operationBound_eq, opsOfDecode_general h.several]
  omega

/-- A code ends at a leaf and there is room: its symbol is emitted and the walk starts again. -/
theorem Walks.emits {k : Nat} {e : FtEntry} (h : Walks s) (hc : s.cursor.toNat < s.packedBits.toNat)
    (hroom : s.outLen.toNat < s.cfg.outCap) (hk : k < s.symCount.toNat) (he : Store.read s.ft k = some e) :
    Advances s { s with
      cursor := s.cursor + 1, walk := s.root, outBuf := Store.write s.outBuf s.outLen.toNat e.sym, outLen := s.outLen + 1,
      phase := .bsBit } := by
  have hsucc := toNat_succ_of_lt hc
  have several := h.several
  have size := h.tree.size
  have hosucc : (s.outLen + 1).toNat = s.outLen.toNat + 1 := toNat_succ_of_lt (h.output.trans_lt hc)
  refine ⟨⟨?_, h.noError, h.table.of_eq rfl rfl rfl, (h.tree.set_output _ _).congr (.of_eq rfl),
    ⟨h.payload.base, h.payload.bytes, h.payload.bits⟩, h.emitted.emit hk he rfl rfl rfl hosucc, several,
    ⟨s.nnodes - 1, h.tree.rootIs, ?_, ?_⟩, ?_, fun _ => rfl, ?_⟩, ?_⟩
  · show (s.outLen + 1).toNat ≤ s.cfg.outCap
    omega
  · show s.symCount.toNat ≤ s.nnodes - 1
    omega
  · show s.nnodes - 1 < s.nnodes
    omega
  · show (s.cursor + 1).toNat ≤ s.packedBits.toNat
    omega
  · show (s.outLen + 1).toNat ≤ (s.cursor + 1).toNat
    have := h.output
    omega
  · rw [h.count]
    show opsBeforePayload s + s.cursor.toNat < opsBeforePayload s + (s.cursor + 1).toNat
    omega

/-- A bit leads to an internal node and bits remain: the walk goes on from there. -/
theorem Walks.descends {k : Nat} (h : Walks s) (hc : s.cursor.toNat < s.packedBits.toNat) (hmore : s.cursor + 1 ≠ s.packedBits)
    (hk : s.symCount.toNat ≤ k) (hkn : k < s.nnodes) :
    Advances s { s with cursor := s.cursor + 1, walk := some k, phase := .bsBit } := by
  have hsucc := toNat_succ_of_lt hc
  refine ⟨⟨h.outFits, h.noError, h.table.of_eq rfl rfl rfl, h.tree.congr (.of_eq rfl),
    ⟨h.payload.base, h.payload.bytes, h.payload.bits⟩, h.emitted, h.several, ⟨k, rfl, hk, hkn⟩, ?_,
    fun hend => absurd hend hmore, ?_⟩, ?_⟩
  · show (s.cursor + 1).toNat ≤ s.packedBits.toNat
    omega
  · show s.outLen.toNat ≤ (s.cursor + 1).toNat
    have := h.output
    omega
  · rw [h.count]
    show opsBeforePayload s + s.cursor.toNat < opsBeforePayload s + (s.cursor + 1).toNat
    omega

/-- The bits end inside a code (rules R185, R244). -/
theorem Walks.overruns {k : Nat} (h : Walks s) (hc : s.cursor.toNat < s.packedBits.toNat) (hlast : s.cursor + 1 = s.packedBits) :
    Advances s (raise .outOfBounds { s with cursor := s.cursor + 1, walk := some k }) :=
  advances_raise (.midCode rfl rfl h.noError.noMismatch rfl hlast h.emitted) h.outFits (h.early hc)

/-- A code ends at a leaf and the output is full. -/
theorem Walks.overflows {k : Nat} (h : Walks s) (hc : s.cursor.toNat < s.packedBits.toNat) (hfull : s.outLen.toNat = s.cfg.outCap) :
    Advances s (raise .out { s with cursor := s.cursor + 1, walk := some k }) :=
  advances_raise (.outputFull rfl rfl h.noError.noMismatch h.noError.cursor hfull h.emitted) h.outFits (h.early hc)

theorem execBsBit_stepsWell (h : RunInv s) (hp : s.phase = .bsBit) : StepsWell s (execBsBit s) := by
  obtain ⟨hfit, hph⟩ := h
  simp only [PhaseInv, hp] at hph
  obtain ⟨hne, htab, htree, hpay, hem, h2, ⟨w, hwalk, hw, hlt⟩, hc, -, hout⟩ := hph
  have walks : Walks s := ⟨hfit, hne, htab, htree, hpay, hem, h2, hout, by simp only [elapsed, hp]⟩
  obtain ⟨t, ht⟩ := execBsBit_answers htree hpay hwalk hw hlt hc hfit
  refine ⟨t, ht, ?_⟩
  obtain ⟨w', nd, hwalk', -, hnd, -, hcase⟩ := execBsBit_next ht
  obtain rfl : w = w' := Option.some.inj (hwalk.symm.trans hwalk')
  rcases hcase with ⟨hdone, rfl⟩ | ⟨hmore, -, nxt, hnxt, hcase⟩
  · exact walks.completes hdone
  have hclt := toNat_lt_of_ne hc hmore
  obtain ⟨nd', k, c, hnd', -, hk, hkn, hkr, hchild⟩ :=
    htree.read_walk hw hlt (bitOfByte (inByte s (payloadAddr s)) s.cursor.toNat)
  obtain rfl : nd = nd' := Option.some.inj (hnd.symm.trans hnd')
  rw [hk] at hnxt
  rcases hcase with ⟨hnone, -⟩ | ⟨k', c', hk', -, hkr', hcase⟩
  · rw [hnxt] at hnone
    cases hnone
  obtain rfl : k = k' := Option.some.inj (hnxt.symm.trans hk')
  obtain rfl : c = c' := Option.some.inj (hkr.symm.trans hkr')
  rcases hcase with ⟨-, hfull, rfl⟩ | ⟨hleaf, hroom, rfl⟩ | ⟨-, hlast, rfl⟩ | ⟨hinner, hmore', rfl⟩
  · exact walks.overflows hclt hfull
  · obtain ⟨hkl, -, e, he, hsym⟩ := hchild.resolve_right (by simp [hleaf])
    rw [hsym]
    exact walks.emits hclt hroom hkl he
  · exact walks.overruns hclt hlast
  · exact walks.descends hclt hmore' (hchild.resolve_left (by simp [hinner])).1 hkn

/-! ### `BS.RUN1` -/

/-- In the single-symbol case the root is the leaf of the one table entry. -/
theorem TreeBuilt.read_single (h : TreeBuilt s) (h1 : s.symCount.toNat = 1) :
    ∃ e, Store.read s.ft 0 = some e ∧ readNodeRef s s.root = .ok (leafOf e) := by
  obtain ⟨e, he, hn⟩ := h.arena.leaf 0 (by omega)
  have size := h.size
  have hroot : s.root = some 0 := by rw [h.rootIs, show s.nnodes - 1 = 0 by omega]
  exact ⟨e, he, readNodeRef_ok.2 ⟨0, hroot, h.nnodes_pos, hn⟩⟩

theorem execBsRun1_answers (htree : TreeBuilt s) (h1 : s.symCount.toNat = 1) (hfit : s.outLen.toNat ≤ s.cfg.outCap) :
    ∃ t, execBsRun1 s = .next t := by
  obtain ⟨e, he, hr⟩ := htree.read_single h1
  rw [execBsRun1, hr, except_ok_bind, if_neg (by simp [leafOf]), readFt_ok.2 ⟨by omega, he⟩, except_ok_bind]
  split
  · exact ⟨_, rfl⟩
  · obtain ⟨t, ht⟩ := emitThen_answers (x := (leafOf e).sym) (k := fun t => { t with idx := t.idx + 1, phase := .bsRun1 }) hfit
    exact ⟨t, finish_next.2 ht⟩

theorem execBsRun1_stepsWell (h : RunInv s) (hp : s.phase = .bsRun1) : StepsWell s (execBsRun1 s) := by
  obtain ⟨hfit, hph⟩ := h
  simp only [PhaseInv, hp] at hph
  obtain ⟨hne, htab, htree, hem, h1, hc, ho, hi⟩ := hph
  obtain ⟨t, ht⟩ := execBsRun1_answers htree h1 hfit
  have start : elapsed s = opsBeforePayload s + s.idx.toNat := by simp only [elapsed, hp]
  have ops := opsOfDecode_single h1
  have early : elapsed s < opsBeforePayload s + opsOfDecode s := by rw [start, ops]; omega
  refine ⟨t, ht, ?_⟩
  obtain ⟨r, nd, e, hroot, hrn, hrd, -, he, hcase⟩ := execBsRun1_next ht
  obtain ⟨e', he', hr'⟩ := htree.read_single h1
  obtain rfl : e = e' := Option.some.inj (he.symm.trans he')
  obtain rfl : nd = leafOf e := Except.ok.inj ((readNodeRef_ok.2 ⟨r, hroot, hrn, hrd⟩).symm.trans hr')
  have hcount : countOf s 0 = e.count.toNat := by simp only [countOf, he]
  rcases hcase with ⟨hend, rfl⟩ | ⟨hmore, hfull, rfl⟩ | ⟨hmore, hroom, rfl⟩
  · refine afterDecode_advances hfit hne ⟨htab, htree, hem, fun h2 => by omega, fun _ => ⟨hc, ?_⟩⟩ early
    rw [ho, hend, hcount]
  · refine advances_raise (.outputFull rfl rfl hne.noMismatch hne.cursor hfull hem) hfit (early.trans_le ?_)
    rw [operationBound_eq]
    omega
  · rw [hcount] at hi
    have hsucc := toNat_succ_of_lt (toNat_lt_of_ne hi hmore)
    have hosucc : (s.outLen + 1).toNat = s.outLen.toNat + 1 := by rw [ho, hsucc]
    refine ⟨⟨?_, hne, htab.of_eq rfl rfl rfl, (htree.set_output _ _).congr (.of_eq rfl),
      hem.emit (by omega) he rfl rfl rfl hosucc, h1, hc, ?_, ?_⟩, ?_⟩
    · show (s.outLen + 1).toNat ≤ s.cfg.outCap
      omega
    · show s.outLen + 1 = s.idx + 1
      rw [ho]
    · show (s.idx + 1).toNat ≤ countOf s 0
      rw [hcount, hsucc]
      exact toNat_lt_of_ne hi hmore
    · rw [start]
      show opsBeforePayload s + s.idx.toNat < opsBeforePayload s + (s.idx + 1).toNat
      omega

end Sys2Proof.Machine
end

section
/-! PROOFS. The Validator advances a run (rules R201 to R204). -/

namespace Sys2Proof.Machine

variable {s t : State}

/-- A store that lists the same value at each of some indices reads it there. -/
theorem store_read_tabulate {α : Type} (v : α) {l : List Nat} {a : Nat} (h : a ∈ l) :
    Store.read (l.map fun i => (i, v)) a = some v := by
  induction l with
  | nil => cases h
  | cons i l ih =>
    simp only [List.map_cons, Store.read]
    split
    · rfl
    · next hne => exact ih ((List.mem_cons.1 h).resolve_left hne)

theorem read_zeroTallies (x : Byte) : Store.read zeroTallies x.toNat = some 0 :=
  store_read_tabulate 0 (List.mem_range.2 x.isLt)

theorem occurrences_succ (s : State) (x : Byte) (m : Nat) :
    occurrences s x (m + 1) = occurrences s x m + if Store.read s.outBuf m = some x then 1 else 0 := by
  simp [occurrences, List.range_succ, List.countP_append, List.countP_cons]

theorem occurrences_le (s : State) (x : Byte) (m : Nat) : occurrences s x m ≤ m :=
  List.countP_le_length.trans (by simp)

/-- Before any byte is counted, the tallies are those of `VL.INIT`. -/
theorem tallied_zero (h : s.obs = zeroTallies) : Tallied s 0 := fun x =>
  ⟨0, by rw [h]; exact read_zeroTallies x, rfl⟩

/-- One byte more is counted. -/
theorem Tallied.count {m : Nat} {x : Byte} {v : Word32} (h : Tallied s m) (hm : m < s.outLen.toNat)
    (hx : Store.read s.outBuf m = some x) (hv : Store.read s.obs x.toNat = some v) (hb : t.outBuf = s.outBuf)
    (ho : t.obs = Store.write s.obs x.toNat (v + 1)) : Tallied t (m + 1) := by
  have same : occurrences t = occurrences s := by
    funext y n
    simp only [occurrences, hb]
  intro y
  rw [ho, same, occurrences_succ, hx, store_read_write]
  obtain ⟨w, hw, hcount⟩ := h y
  by_cases hyx : y = x
  · subst hyx
    obtain rfl : v = w := Option.some.inj (hv.symm.trans hw)
    have := occurrences_le s y m
    have := s.outLen.isLt
    refine ⟨v + 1, if_pos rfl, ?_⟩
    rw [if_pos rfl, ← hcount]
    bv_omega
  · refine ⟨w, ?_, ?_⟩
    · rw [if_neg fun e => hyx (BitVec.eq_of_toNat_eq e)]
      exact hw
    · rw [if_neg fun e => hyx (Option.some.inj e).symm]
      exact hcount

theorem execVlInit_stepsWell (h : RunInv s) (hp : s.phase = .vlInit) : StepsWell s (execVlInit s) := by
  obtain ⟨hfit, hph⟩ := h
  simp only [PhaseInv, hp] at hph
  obtain ⟨hne, hd, hv⟩ := hph
  have start : elapsed s = opsBeforePayload s + opsOfDecode s := by simp only [elapsed, hp]
  have some1 := hd.tree.some1
  refine ⟨_, rfl, ?_⟩
  by_cases ho : s.outLen = 0
  · rw [if_pos ho]
    have tallied : Tallied { s with obs := zeroTallies, idx := 0, phase := .vlCmp } s.outLen.toNat := by
      rw [ho]
      exact tallied_zero rfl
    refine ⟨⟨hfit, hne, hd.congr (.of_eq rfl) rfl rfl, hv, some1, tallied, fun i hi => absurd hi (Nat.not_lt_zero i)⟩, ?_⟩
    rw [start]
    show opsBeforePayload s + opsOfDecode s < opsBeforePayload s + opsOfDecode s + 1 + s.outLen.toNat + 0
    omega
  · rw [if_neg ho]
    refine ⟨⟨hfit, hne, hd.congr (.of_eq rfl) rfl rfl, hv, toNat_pos_of_ne_zero ho, tallied_zero rfl⟩, ?_⟩
    rw [start]
    exact Nat.lt_succ_self _

theorem vlTallyNext_advances (hfit : t.outLen.toNat ≤ t.cfg.outCap) (hne : NoError t) (hd : Decoded t)
    (hv : t.validateEn = true) (hi : t.idx.toNat < t.outLen.toNat) (ht : Tallied t (t.idx.toNat + 1))
    (start : elapsed s = opsBeforePayload t + opsOfDecode t + 1 + t.idx.toNat) : Advances s (vlTallyNext t) := by
  have hsucc := toNat_succ_of_lt hi
  have some1 := hd.tree.some1
  rw [← hsucc] at ht
  rcases vlTallyNext_cases t with ⟨hl, e⟩ | ⟨hl, e⟩ <;> rw [e]
  · rw [hl] at ht hsucc
    refine ⟨⟨hfit, hne, hd.congr (.of_eq rfl) rfl rfl, hv, some1, ht, fun i hi => absurd hi (Nat.not_lt_zero i)⟩, ?_⟩
    rw [start]
    show _ < opsBeforePayload t + opsOfDecode t + 1 + t.outLen.toNat + 0
    omega
  · refine ⟨⟨hfit, hne, hd.congr (.of_eq rfl) rfl rfl, hv, toNat_succ_le_of_ne hi hl, ht⟩, ?_⟩
    rw [start]
    show _ < opsBeforePayload t + opsOfDecode t + 1 + (t.idx + 1).toNat
    omega

theorem execVlTally_stepsWell (h : RunInv s) (hp : s.phase = .vlTally) : StepsWell s (execVlTally s) := by
  obtain ⟨hfit, hph⟩ := h
  simp only [PhaseInv, hp] at hph
  obtain ⟨hne, hd, hv, hi, htal⟩ := hph
  obtain ⟨i, e, -, -, hx⟩ := hd.emitted _ hi
  obtain ⟨v, hobs, -⟩ := htal e.sym
  have run : execVlTally s = .next (vlTallyNext (writeObs s e.sym (v + 1))) := by
    rw [execVlTally, if_neg (not_le.2 hi), readOut_ok.2 ⟨hi, hx⟩, except_ok_bind, readObs_ok.2 hobs]
    rfl
  exact ⟨_, run, vlTallyNext_advances hfit hne (hd.congr (.of_eq rfl) rfl rfl) hv hi (htal.count hi hx hobs rfl rfl)
    (by simp only [elapsed, hp]; rfl)⟩

/-- One entry more matches. -/
theorem Matches.succ {m : Nat} {e : FtEntry} (h : Matches s m) (he : Store.read s.ft m = some e)
    (hocc : occurrences s e.sym s.outLen.toNat = e.count.toNat) : Matches s (m + 1) := by
  intro i hi
  by_cases him : i < m
  · exact h i him
  · obtain rfl : i = m := by omega
    exact ⟨e, he, hocc⟩

/-- The two ways an agreeing `VL.CMP` goes on (rule R203). -/
theorem vlCmpNext_cases (s : State) :
    (s.idx + 1 = s.symCount ∧ vlCmpNext s = { s with idx := s.idx + 1, phase := .haltDone }) ∨
    (s.idx + 1 ≠ s.symCount ∧ vlCmpNext s = { s with idx := s.idx + 1, phase := .vlCmp }) := by
  by_cases hl : s.idx + 1 = s.symCount
  · exact .inl ⟨hl, by rw [vlCmpNext, if_pos hl]⟩
  · exact .inr ⟨hl, by rw [vlCmpNext, if_neg hl]⟩

theorem execVlCmp_answers {e : FtEntry} (hi : s.idx.toNat < s.symCount.toNat) (he : Store.read s.ft s.idx.toNat = some e)
    (ht : Tallied s s.outLen.toNat) : ∃ t, execVlCmp s = .next t := by
  obtain ⟨v, hobs, -⟩ := ht e.sym
  rw [execVlCmp, if_neg (not_le.2 hi), readFt_ok.2 ⟨hi, he⟩, except_ok_bind, readObs_ok.2 hobs, except_ok_bind]
  split
  · exact ⟨_, rfl⟩
  · exact ⟨_, rfl⟩

theorem execVlCmp_stepsWell (h : RunInv s) (hp : s.phase = .vlCmp) : StepsWell s (execVlCmp s) := by
  obtain ⟨hfit, hph⟩ := h
  simp only [PhaseInv, hp] at hph
  obtain ⟨hne, hd, hv, hi, htal, hmat⟩ := hph
  obtain ⟨e, he⟩ := hd.table.listed _ hi
  obtain ⟨t, ht⟩ := execVlCmp_answers hi he htal
  have start : elapsed s = opsBeforePayload s + opsOfDecode s + 1 + s.outLen.toNat + s.idx.toNat := by
    simp only [elapsed, hp]
  have early : elapsed s < operationBound s := by
    rw [start, operationBound_eq]
    omega
  refine ⟨t, ht, ?_⟩
  obtain ⟨-, e', v, he', hobs, hcase⟩ := execVlCmp_next ht
  obtain rfl : e = e' := Option.some.inj (he.symm.trans he')
  obtain ⟨v', hobs', hocc⟩ := htal e.sym
  obtain rfl : v = v' := Option.some.inj (hobs.symm.trans hobs')
  rcases hcase with ⟨hdiff, rfl⟩ | ⟨heq, rfl⟩
  · exact advances_raise (.mismatch rfl rfl hne.cursor hv (hd.congr (.of_eq rfl) rfl rfl) _ e hi he rfl rfl hocc hdiff hmat)
      hfit early
  · have hsucc := toNat_succ_of_lt hi
    have hmat' := hmat.succ he (heq ▸ hocc.symm)
    rw [← hsucc] at hmat'
    rcases vlCmpNext_cases s with ⟨hl, e⟩ | ⟨hl, e⟩ <;> rw [e]
    · rw [hl] at hmat'
      exact ⟨⟨hfit, hne, hd.congr (.of_eq rfl) rfl rfl, fun _ => hmat'⟩, early⟩
    · refine ⟨⟨hfit, hne, hd.congr (.of_eq rfl) rfl rfl, hv, toNat_succ_le_of_ne hi hl, htal, hmat'⟩, ?_⟩
      rw [start]
      show _ < opsBeforePayload s + opsOfDecode s + 1 + s.outLen.toNat + (s.idx + 1).toNat
      omega

end Sys2Proof.Machine
end

section
/-! PROOFS. Whole runs: the invariant holds along each, each ends, and what the build hands over (rules R165, R222, R224). -/

namespace Sys2Proof.Machine

variable {s t : State}

/-- While the block is BUSY, the operation that `PHASE` selects answers a next state and advances the run (rules R222, R224,
R247). -/
theorem exec_stepsWell (h : RunInv s) (hb : runState s.phase = .busy) : StepsWell s (exec (phaseInstr s.phase) s) := by
  cases hp : s.phase with
  | idle | haltDone | haltErr => rw [hp] at hb; cases hb
  | ftHdr => exact execFtHdr_stepsWell h hp
  | ftEnt => exact execFtEnt_stepsWell h hp
  | tbInit => exact execTbInit_stepsWell h hp
  | tbLeaf => exact execTbLeaf_stepsWell h hp
  | tbMerge => exact execTbMerge_stepsWell h hp
  | tbRoot => exact execTbRoot_stepsWell h hp
  | bsHdr => exact execBsHdr_stepsWell h hp
  | bsBit => exact execBsBit_stepsWell h hp
  | bsRun1 => exact execBsRun1_stepsWell h hp
  | vlInit => exact execVlInit_stepsWell h hp
  | vlTally => exact execVlTally_stepsWell h hp
  | vlCmp => exact execVlCmp_stepsWell h hp

/-- A resting block's operation changes nothing. -/
theorem exec_of_rest (hb : runState s.phase ≠ .busy) : exec (phaseInstr s.phase) s = .next s := by
  cases hp : s.phase with
  | idle | haltDone | haltErr => rfl
  | ftHdr | ftEnt | tbInit | tbLeaf | tbMerge | tbRoot | bsHdr | bsBit | bsRun1 | vlInit | vlTally | vlCmp =>
    exact absurd (by rw [hp]; rfl) hb

/-- The operation that `PHASE` selects keeps the invariant of a run. -/
theorem RunInv.exec (h : RunInv s) (he : exec (phaseInstr s.phase) s = .next t) : RunInv t := by
  by_cases hb : runState s.phase = .busy
  · obtain ⟨u, hu, ha⟩ := exec_stepsWell h hb
    obtain rfl : t = u := Host.Outcome.next.inj (he.symm.trans hu)
    exact ha.inv
  · obtain rfl : s = t := Host.Outcome.next.inj ((exec_of_rest hb).symm.trans he)
    exact h

/-! ### Runs -/

/-- An accepted `GO` establishes the invariant, whatever the state before it (rules R216, R217). -/
theorem runInv_startRun (v : Bool) (s : State) : RunInv (startRun v s) :=
  ⟨Nat.zero_le _, ⟨rfl, rfl, rfl, rfl, rfl, rfl⟩, rfl⟩

theorem Alone.of_givenPart (h : Alone s) (hg : givenPart t = givenPart s) : Alone t := by
  simp only [givenPart, Prod.mk.injEq] at hg
  obtain ⟨-, -, -, hinputs, -, -, hport⟩ := hg
  exact ⟨hinputs.trans h.1, hport.trans h.2⟩

/-- A block left to itself makes its own operation and is still left to itself. -/
theorem Alone.step (h : Alone s) (hs : step s = .next t) : exec (phaseInstr s.phase) s = .next t ∧ Alone t := by
  rw [step_of_alone h] at hs
  exact ⟨hs, h.of_givenPart (exec_givenPart hs)⟩

theorem stepN_succ_some {k : Nat} {u : State} : stepN (k + 1) s = some u ↔ ∃ t, step s = .next t ∧ stepN k t = some u := by
  simp only [stepN]
  cases step s with
  | next t => simp
  | fault f => simp
  | refused r => simp

/-- The invariant holds all along a run. -/
theorem RunInv.stepN {k : Nat} (h : RunInv s) (ha : Alone s) (hk : stepN k s = some t) : RunInv t := by
  induction k generalizing s with
  | zero => exact Option.some.inj hk ▸ h
  | succ k ih =>
    obtain ⟨u, hu, hk⟩ := stepN_succ_some.1 hk
    obtain ⟨he, ha'⟩ := ha.step hu
    exact ih (h.exec he) ha' hk

/-- The count of a run's operations is bounded: every term is a 32-bit value. -/
theorem elapsed_lt (h : RunInv s) : elapsed s < 2 ^ 36 := by
  have hn := s.symCount.isLt
  have hi := s.idx.isLt
  have hc := s.cursor.isLt
  have ho := s.outLen.isLt
  have before : opsBeforePayload s ≤ 3 * s.symCount.toNat + 4 := by unfold opsBeforePayload; omega
  have decode : opsOfDecode s ≤ 2 ^ 32 := by
    unfold opsOfDecode
    have := countOf_lt s 0
    have := s.packedBits.isLt
    split <;> omega
  have bound := operationBound_eq s
  obtain ⟨-, hph⟩ := h
  unfold elapsed
  cases hp : s.phase <;> simp only
  case tbMerge =>
    simp only [PhaseInv, hp] at hph
    obtain ⟨-, -, -, -, -, hb⟩ := hph
    have := hb.balance
    omega
  all_goals omega

/-- A run that advances does not go back to `IDLE`. -/
theorem Advances.busy_or_ended (h : Advances s t) : runState t.phase = .busy ∨ Ended t := by
  have hlt := h.elapsed
  cases hp : t.phase with
  | idle => simp only [Machine.elapsed, hp] at hlt; omega
  | haltDone => exact .inr (.inl hp)
  | haltErr => exact .inr (.inr hp)
  | ftHdr | ftEnt | tbInit | tbLeaf | tbMerge | tbRoot | bsHdr | bsBit | bsRun1 | vlInit | vlTally | vlCmp => exact .inl rfl

/-- Every run ends, and within the number of operations that its end state counts (rule R224). -/
theorem RunInv.ends (h : RunInv s) (ha : Alone s) (hs : runState s.phase = .busy ∨ Ended s) :
    ∃ k t, Machine.stepN k s = some t ∧ Ended t ∧ k + Machine.elapsed s ≤ Machine.elapsed t := by
  induction hn : 2 ^ 36 - Machine.elapsed s using Nat.strong_induction_on generalizing s with
  | h n ih =>
    rcases hs with hb | he
    · obtain ⟨t, ht, hadv⟩ := exec_stepsWell h hb
      have hstep : step s = .next t := (step_of_alone ha).trans ht
      have hlt := hadv.elapsed
      have hbound := elapsed_lt h
      obtain ⟨k, u, hk, he, hle⟩ := ih _ (by omega) hadv.inv (ha.step hstep).2 hadv.busy_or_ended rfl
      exact ⟨k + 1, u, stepN_succ_some.2 ⟨t, hstep, hk⟩, he, by omega⟩
    · exact ⟨0, s, rfl, he, by omega⟩

/-- Settles O51: the invariant at `BS.HDR` is the built tree, whose one root carries the whole weight. -/
theorem buildGuarantees : Obligations.BuildGuarantees := by
  intro s v k t ha _ hk hp
  have hinv := (runInv_startRun v s).stepN (show Alone (startRun v s) from ha) hk
  obtain ⟨-, hph⟩ := hinv
  simp only [PhaseInv, hp] at hph
  obtain ⟨-, -, -, -, htree⟩ := hph
  have size := htree.size
  have pos := htree.nnodes_pos
  have weight := htree.arena.weight
  exact ⟨htree, t.nnodes - 1, htree.rootIs, by omega, by simpa using weight⟩

end Sys2Proof.Machine
end

section
/-! PROOFS. Two runs that agree on what is live (rules R217, R225): the relation between their states, phase by phase, and one
lemma for each operation, which answers alike in both. A register or element that an operation writes before it is read is
not in the relation of the phases before it. -/

namespace Sys2Proof.Machine

variable {s t : State}

/-! ### The relation -/

/-- Two stores read alike below index `n`. -/
def AgreeTo {α : Type} (n : Nat) (m m' : Store α) : Prop := ∀ j, j < n → Store.read m j = Store.read m' j

/-- The registers that are live in every phase, and the output so far. -/
structure SameRegs (s t : State) : Prop where
  cfg : s.cfg = t.cfg
  validateEn : s.validateEn = t.validateEn
  errCode : s.errCode = t.errCode
  errSub : s.errSub = t.errSub
  errSym : s.errSym = t.errSym
  errDeclared : s.errDeclared = t.errDeclared
  errObserved : s.errObserved = t.errObserved
  errCursor : s.errCursor = t.errCursor
  inLen : s.inLen = t.inLen
  outLen : s.outLen = t.outLen
  symCount : s.symCount = t.symCount
  packedBits : s.packedBits = t.packedBits
  packedBytes : s.packedBytes = t.packedBytes
  output : AgreeTo s.outLen.toNat s.outBuf t.outBuf

/-- The same frequency table, all of it read. -/
def SameTable (s t : State) : Prop := AgreeTo s.symCount.toNat s.ft t.ft

/-- The same nodes. -/
structure SameNodes (s t : State) : Prop where
  nnodes : s.nnodes = t.nnodes
  node : AgreeTo s.nnodes s.node t.node

/-- The same nodes, and the same heap over them. -/
structure SameHeap (s t : State) : Prop where
  nodes : SameNodes s t
  hsize : s.hsize = t.hsize
  heap : AgreeTo s.hsize s.heap t.heap

/-- What is live, the same in both, when the operation of phase `p` is about to run. -/
def SameLive (p : Phase) (s t : State) : Prop :=
  match p with
  | .idle | .ftHdr | .haltDone | .haltErr => True
  | .ftEnt => s.idx = t.idx ∧ AgreeTo s.idx.toNat s.ft t.ft
  | .tbInit | .vlInit => SameTable s t
  | .tbLeaf => SameTable s t ∧ s.idx = t.idx ∧ SameHeap s t
  | .tbMerge | .tbRoot => SameTable s t ∧ SameHeap s t
  | .bsHdr => SameTable s t ∧ SameNodes s t ∧ s.root = t.root
  | .bsBit => SameTable s t ∧ SameNodes s t ∧ s.root = t.root ∧ s.walk = t.walk ∧ s.cursor = t.cursor ∧
      s.payloadBase = t.payloadBase
  | .bsRun1 => SameTable s t ∧ SameNodes s t ∧ s.root = t.root ∧ s.idx = t.idx
  | .vlTally | .vlCmp => SameTable s t ∧ s.idx = t.idx ∧ s.obs = t.obs

/-- Two runs stand at the same point. -/
structure SameRun (s t : State) : Prop where
  regs : SameRegs s t
  phase : s.phase = t.phase
  live : SameLive s.phase s t

/-- What the next operation uses of `IN` is the same in both runs. -/
def ReadsAlike (s t : State) : Prop :=
  match s.phase with
  | .ftHdr => 12 ≤ s.inLen.toNat → inWord s 8 = inWord t 8
  | .ftEnt =>
      (entryAddr s.idx.toNat + 4 ≤ s.inLen.toNat →
        inWord s (entryAddr s.idx.toNat) = inWord t (entryAddr s.idx.toNat)) ∧
      (entryAddr s.idx.toNat + 5 ≤ s.inLen.toNat →
        inByte s (entryAddr s.idx.toNat + 4) = inByte t (entryAddr s.idx.toNat + 4))
  | .bsHdr => entriesEnd s + 12 ≤ s.inLen.toNat →
      inWord s (entriesEnd s) = inWord t (entriesEnd s) ∧ inWord s (entriesEnd s + 4) = inWord t (entriesEnd s + 4)
  | .bsBit => payloadAddr s < s.inLen.toNat →
      bitOfByte (inByte s (payloadAddr s)) s.cursor.toNat = bitOfByte (inByte t (payloadAddr s)) s.cursor.toNat
  | .idle | .tbInit | .tbLeaf | .tbMerge | .tbRoot | .bsRun1 | .vlInit | .vlTally | .vlCmp | .haltDone | .haltErr => True

theorem SameRun.at_phase {p : Phase} (hp : s.phase = p) (hq : s.phase = t.phase) (regs : SameRegs s t) (live : SameLive p s t) :
    SameRun s t :=
  ⟨regs, hq, by rw [hp]; exact live⟩

theorem SameRun.live_at {p : Phase} (h : SameRun s t) (hp : s.phase = p) : SameLive p s t := hp ▸ h.live

theorem SameRun.ite {c d : Prop} [Decidable c] [Decidable d] {u v u' v' : State} (hcd : c ↔ d) (h : c → SameRun u v)
    (h' : ¬c → SameRun u' v') : SameRun (if c then u else u') (if d then v else v') := by
  by_cases hc : c
  · rw [if_pos hc, if_pos (hcd.1 hc)]
    exact h hc
  · rw [if_neg hc, if_neg (mt hcd.2 hc)]
    exact h' hc

theorem AgreeTo.write {α : Type} {n : Nat} {m m' : Store α} (h : AgreeTo n m m') (a : Nat) (v : α) :
    AgreeTo n (Store.write m a v) (Store.write m' a v) := by
  intro j hj
  rw [store_read_write, store_read_write, h j hj]

/-- A write at the end makes one element more agree. -/
theorem AgreeTo.write_end {α : Type} {n : Nat} {m m' : Store α} (h : AgreeTo n m m') (v : α) :
    AgreeTo (n + 1) (Store.write m n v) (Store.write m' n v) := by
  intro j hj
  rw [store_read_write, store_read_write]
  split
  · rfl
  · exact h j (by omega)

theorem agreeTo_zero {α : Type} (m m' : Store α) : AgreeTo 0 m m' := fun j hj => absurd hj (Nat.not_lt_zero j)

theorem AgreeTo.mono {α : Type} {n k : Nat} {m m' : Store α} (h : AgreeTo n m m') (hk : k ≤ n) : AgreeTo k m m' :=
  fun j hj => h j (by omega)

/-! ### Computations that answer alike -/

/-- Whenever the first computation answers, so does the second, with a related value. -/
def Sim {α β : Type} (R : α → β → Prop) (x : Except Fault α) (y : Except Fault β) : Prop :=
  ∀ a, x = .ok a → ∃ b, y = .ok b ∧ R a b

section
variable {α β α' β' : Type} {R : α → β → Prop} {Q : α' → β' → Prop}

theorem Sim.ok {a : α} {b : β} (h : R a b) : Sim R (.ok a) (.ok b) := by
  rintro _ ⟨⟩
  exact ⟨b, rfl, h⟩

theorem Sim.error {f : Fault} {y : Except Fault β} : Sim R (.error f) y := by
  rintro _ ⟨⟩

theorem Sim.bind {x : Except Fault α} {y : Except Fault β} {f : α → Except Fault α'} {g : β → Except Fault β'}
    (h : Sim R x y) (hfg : ∀ a b, x = .ok a → R a b → Sim Q (f a) (g b)) : Sim Q (x >>= f) (y >>= g) := by
  intro c hc
  obtain ⟨a, ha, hfa⟩ := except_bind_ok.1 hc
  obtain ⟨b, hb, hab⟩ := h a ha
  obtain ⟨d, hd, hcd⟩ := hfg a b ha hab c hfa
  exact ⟨d, except_bind_ok.2 ⟨b, hb, hd⟩, hcd⟩

/-- The same computation, then computations that answer alike from its value. -/
theorem Sim.bind_eq {x y : Except Fault α} {f : α → Except Fault α'} {g : α → Except Fault β'} (h : x = y)
    (hfg : ∀ a, x = .ok a → Sim Q (f a) (g a)) : Sim Q (x >>= f) (y >>= g) := by
  subst h
  exact Sim.bind (R := Eq) (fun a ha => ⟨a, ha, rfl⟩) fun a b ha hab => hab ▸ hfg a ha

theorem Sim.ite {c d : Prop} [Decidable c] [Decidable d] {x x' : Except Fault α} {y y' : Except Fault β} (hcd : c ↔ d)
    (h : c → Sim R x y) (h' : ¬c → Sim R x' y') : Sim R (if c then x else x') (if d then y else y') := by
  by_cases hc : c
  · rw [if_pos hc, if_pos (hcd.1 hc)]
    exact h hc
  · rw [if_neg hc, if_neg (mt hcd.2 hc)]
    exact h' hc

end

/-- The first operation's next state has a counterpart after the second. -/
def Alike (o o' : Host.Outcome State Fault Refusal) : Prop := ∀ u, o = .next u → ∃ v, o' = .next v ∧ SameRun u v

theorem Sim.finish {x y : Except Fault State} (h : Sim SameRun x y) : Alike (finish x) (finish y) := by
  intro u hu
  obtain ⟨v, hv, huv⟩ := h u (finish_next.1 hu)
  exact ⟨v, finish_next.2 hv, huv⟩

theorem Alike.next {u v : State} (h : SameRun u v) : Alike (.next u) (.next v) := by
  rintro _ ⟨⟩
  exact ⟨v, rfl, h⟩

/-! ### Reads -/

theorem memRead4_congr {a : Nat} (hl : s.inLen = t.inLen) (hw : a + 4 ≤ s.inLen.toNat → inWord s a = inWord t a) :
    memRead4 s a = memRead4 t a := by
  unfold memRead4
  rw [← hl]
  split
  · next h => rw [hw h]
  · rfl

theorem memRead1_congr {a : Nat} (hl : s.inLen = t.inLen) (hb : a + 1 ≤ s.inLen.toNat → inByte s a = inByte t a) :
    memRead1 s a = memRead1 t a := by
  unfold memRead1
  rw [← hl]
  split
  · next h => rw [hb h]
  · rfl

theorem SameTable.readFt (h : SameTable s t) (hn : s.symCount = t.symCount) (i : Nat) : readFt s i = readFt t i := by
  unfold Machine.readFt
  rw [← hn]
  by_cases hi : i < s.symCount.toNat
  · rw [if_pos hi, if_pos hi, h i hi]
  · rw [if_neg hi, if_neg hi]

theorem SameNodes.readNode (h : SameNodes s t) (k : Nat) : readNode s k = readNode t k := by
  unfold Machine.readNode
  rw [← h.nnodes]
  by_cases hk : k < s.nnodes
  · rw [if_pos hk, if_pos hk, h.node k hk]
  · rw [if_neg hk, if_neg hk]

theorem SameNodes.readNodeRef (h : SameNodes s t) {r r' : NodeRef} (hr : r = r') : readNodeRef s r = readNodeRef t r' := by
  subst hr
  cases r with
  | none => rfl
  | some k => exact h.readNode k

theorem SameRegs.readOut (h : SameRegs s t) (a : Nat) : readOut s a = readOut t a := by
  unfold Machine.readOut
  rw [← h.outLen]
  by_cases ha : a < s.outLen.toNat
  · rw [if_pos ha, if_pos ha, h.output a ha]
  · rw [if_neg ha, if_neg ha]

theorem SameRegs.entriesEnd (h : SameRegs s t) : entriesEnd s = entriesEnd t := by
  simp only [Machine.entriesEnd, h.symCount]

/-! ### The trap entry and emission -/

/-- Both runs raise the same error, with the same context. -/
theorem SameRegs.raise {e : BlockError} (h : SameRegs s t) (hc : (raise e s).errCursor = (raise e t).errCursor) :
    SameRun (raise e s) (raise e t) := by
  refine ⟨{ h with errCode := rfl, errSub := rfl, errCursor := hc, errSym := ?_, errDeclared := ?_, errObserved := ?_ },
    rfl, trivial⟩
  · cases e with
    | countMismatch _ _ _ => rfl
    | hdrTrunc | entTrunc | zeroSyms | bodyTrunc | payloadTrunc | bitsExceed | deadEnd | outOfBounds | syms | out =>
      exact h.errSym
  · cases e with
    | countMismatch _ _ _ => rfl
    | hdrTrunc | entTrunc | zeroSyms | bodyTrunc | payloadTrunc | bitsExceed | deadEnd | outOfBounds | syms | out =>
      exact h.errDeclared
  · cases e with
    | countMismatch _ _ _ => rfl
    | hdrTrunc | entTrunc | zeroSyms | bodyTrunc | payloadTrunc | bitsExceed | deadEnd | outOfBounds | syms | out =>
      exact h.errObserved

/-- `Emit` of the same byte, then continuations that keep the runs together. -/
theorem SameRegs.emitThen {x : Byte} {k k' : State → State} (h : SameRegs s t)
    (hk : ∀ b b', SameRegs { s with outBuf := b, outLen := s.outLen + 1 } { t with outBuf := b', outLen := t.outLen + 1 } →
      SameRun (k { s with outBuf := b, outLen := s.outLen + 1 }) (k' { t with outBuf := b', outLen := t.outLen + 1 })) :
    Sim SameRun (emitThen x s k) (emitThen x t k') := by
  intro u hu
  rcases emitThen_ok.1 hu with ⟨hfull, rfl⟩ | ⟨hroom, rfl⟩
  · exact ⟨_, emitThen_ok.2 (.inl ⟨by rw [← h.outLen, ← h.cfg]; exact hfull, rfl⟩), h.raise h.errCursor⟩
  · refine ⟨_, emitThen_ok.2 (.inr ⟨by rw [← h.outLen, ← h.cfg]; exact hroom, rfl⟩), hk _ _ ?_⟩
    have grown : AgreeTo (s.outLen.toNat + 1) (Store.write s.outBuf s.outLen.toNat x) (Store.write t.outBuf t.outLen.toNat x) := by
      rw [← h.outLen]
      exact h.output.write_end x
    exact { h with
      outLen := congrArg (· + 1) h.outLen
      output := grown.mono (by show (s.outLen + 1).toNat ≤ _; bv_omega) }

end Sys2Proof.Machine
end

section
/-! PROOFS. Each operation answers alike in two runs that stand at the same point and use the same input (rules R141 to R204). -/

namespace Sys2Proof.Machine

variable {s t : State}

/-! ### The Frequency Table Reader -/

theorem ftHdrChecks_alike (h : SameRegs s t) : SameRun (ftHdrChecks s) (ftHdrChecks t) := by
  refine SameRun.ite (by rw [h.entriesEnd, h.inLen]) (fun _ => h.raise h.errCursor) fun _ => ?_
  refine SameRun.ite (by rw [h.cfg, h.symCount]) (fun _ => h.raise h.errCursor) fun _ => ?_
  have phases : (if s.symCount = 0 then Phase.tbInit else .ftEnt) = if t.symCount = 0 then .tbInit else .ftEnt := by
    rw [h.symCount]
  by_cases h0 : s.symCount = 0
  · exact .at_phase (p := .tbInit) (if_pos h0) phases { h with } fun i hi => absurd hi (by simp [h0])
  · exact .at_phase (p := .ftEnt) (if_neg h0) phases { h with } ⟨rfl, agreeTo_zero _ _⟩

theorem execFtHdr_alike (h : SameRun s t) (hp : s.phase = .ftHdr) (hr : ReadsAlike s t) :
    Alike (execFtHdr s) (execFtHdr t) := by
  simp only [ReadsAlike, hp] at hr
  have hlen := h.regs.inLen
  refine Sim.finish (Sim.ite (by rw [hlen]) (fun _ => Sim.ok (h.regs.raise h.regs.errCursor)) fun hl => ?_)
  have hl' : ¬t.inLen.toNat < 12 := hlen ▸ hl
  rw [memRead4_eq (s := s) (by omega), memRead4_eq (s := s) (by omega), memRead4_eq (s := s) (by omega),
    memRead4_eq (s := t) (by omega), memRead4_eq (s := t) (by omega), memRead4_eq (s := t) (by omega)]
  exact Sim.ok (ftHdrChecks_alike { h.regs with symCount := hr (by omega) })

theorem ftEntNext_alike (h : SameRegs s t) (hidx : s.idx = t.idx) (hi : s.idx.toNat < s.symCount.toNat)
    (hft : AgreeTo (s.idx.toNat + 1) s.ft t.ft) : SameRun (ftEntNext s) (ftEntNext t) := by
  rw [← toNat_succ_of_lt hi] at hft
  have hsucc : s.idx + 1 = t.idx + 1 := congrArg (· + 1) hidx
  have phases : (ftEntNext s).phase = (ftEntNext t).phase := by simp only [ftEntNext_phase, hidx, h.symCount]
  by_cases hl : s.idx + 1 = s.symCount
  · exact .at_phase (p := .tbInit) (if_pos hl) phases { h with } (show AgreeTo s.symCount.toNat s.ft t.ft from hl ▸ hft)
  · exact .at_phase (p := .ftEnt) (if_neg hl) phases { h with } ⟨hsucc, hft⟩

/-- The same entry, written at the same index of both tables. -/
theorem writeFt_alike (hc : s.cfg = t.cfg) {i i' : Nat} (hi : i = i') (e : FtEntry) :
    Sim (fun u v => u = { s with ft := Store.write s.ft i e } ∧ v = { t with ft := Store.write t.ft i e })
      (writeFt s i e) (writeFt t i' e) := by
  subst hi
  intro u hu
  obtain ⟨hmax, rfl⟩ := writeFt_ok.1 hu
  exact ⟨_, writeFt_ok.2 ⟨hc ▸ hmax, rfl⟩, rfl, rfl⟩

theorem execFtEnt_alike (h : SameRun s t) (hp : s.phase = .ftEnt) (hr : ReadsAlike s t) :
    Alike (execFtEnt s) (execFtEnt t) := by
  obtain ⟨hidx, hft⟩ := h.live_at hp
  simp only [ReadsAlike, hp] at hr
  obtain ⟨hcount, hsym⟩ := hr
  have regs := h.regs
  refine Sim.finish (Sim.ite (by rw [regs.symCount, hidx]) (fun _ => Sim.error) fun hi => ?_)
  refine Sim.bind_eq ((memRead4_congr regs.inLen hcount).trans (by rw [hidx])) fun count _ => ?_
  refine Sim.bind_eq ((memRead1_congr regs.inLen hsym).trans (by rw [hidx])) fun x _ => ?_
  refine (writeFt_alike regs.cfg (by rw [hidx]) { count := count, sym := x }).bind ?_
  rintro _ _ - ⟨rfl, rfl⟩
  exact Sim.ok (ftEntNext_alike { regs with } hidx (not_le.1 hi) (hft.write_end _))

/-! ### The Priority Queue -/

section
variable {n i j : Nat} {h g : Store Nat}

theorem AgreeTo.heapAt (hg : AgreeTo n h g) (hj : j < n) : heapAt h j = heapAt g j := by
  simp only [Machine.heapAt, hg j hj]

theorem SameNodes.freqOf (hn : SameNodes s t) (k : Nat) : freqOf s k = freqOf t k := by
  simp only [Machine.freqOf, hn.readNode k]

theorem SameNodes.heapKey (hn : SameNodes s t) (hg : AgreeTo n h g) (hj : j < n) : heapKey s h j = heapKey t g j := by
  simp only [Machine.heapKey, hg.heapAt hj, hn.freqOf]

theorem AgreeTo.heapSwap (hg : AgreeTo n h g) (hi : i < n) (hj : j < n) :
    Sim (AgreeTo n) (heapSwap h i j) (heapSwap g i j) :=
  Sim.bind_eq (hg.heapAt hi) fun ki _ => Sim.bind_eq (hg.heapAt hj) fun kj _ => Sim.ok ((hg.write i kj).write j ki)

theorem SameNodes.siftUp (hn : SameNodes s t) (fuel : Nat) (hg : AgreeTo n h g) (hj : j < n) :
    Sim (AgreeTo n) (siftUp s fuel j h) (siftUp t fuel j g) := by
  induction fuel generalizing j h g with
  | zero => exact Sim.ok hg
  | succ fuel ih =>
    have hp : heapParent j < n := by unfold heapParent; omega
    unfold Machine.siftUp
    refine Sim.ite Iff.rfl (fun _ => Sim.ok hg) fun _ => ?_
    refine Sim.bind_eq (hn.heapKey hg hp) fun fp _ => Sim.bind_eq (hn.heapKey hg hj) fun fj _ => ?_
    exact Sim.ite Iff.rfl (fun _ => (hg.heapSwap hp hj).bind fun h' g' _ hg' => ih hg' hp) fun _ => Sim.ok hg

theorem SameNodes.chosenChild (hn : SameNodes s t) (hc : s.cfg = t.cfg) (hg : AgreeTo n h g) (hj : 2 * j + 1 < n) :
    chosenChild s n j h = chosenChild t n j g := by
  unfold Machine.chosenChild
  split
  · next hr => rw [hn.heapKey hg hj, hn.heapKey hg hr, hc]
  · rfl

theorem SameNodes.siftDown (hn : SameNodes s t) (hc : s.cfg = t.cfg) (fuel : Nat) (hg : AgreeTo n h g) (hj : j < n) :
    Sim (AgreeTo n) (siftDown s n fuel j h) (siftDown t n fuel j g) := by
  induction fuel generalizing j h g with
  | zero => exact Sim.ok hg
  | succ fuel ih =>
    unfold Machine.siftDown
    refine Sim.ite Iff.rfl (fun _ => Sim.ok hg) fun hl => ?_
    refine Sim.bind_eq (hn.chosenChild hc hg (not_le.1 hl)) fun c hcc => ?_
    have hcn := chosenChild_lt hcc (not_le.1 hl)
    refine Sim.bind_eq (hn.heapKey hg hcn) fun fc _ => Sim.bind_eq (hn.heapKey hg hj) fun fj _ => ?_
    exact Sim.ite (by rw [hc]) (fun _ => (hg.heapSwap hcn hj).bind fun h' g' _ hg' => ih hg' hcn) fun _ => Sim.ok hg

end

/-- From `s` and `t`, both runs went on to heaps of `n` positions that agree, and changed nothing else. -/
def HeapsTo (s t : State) (n : Nat) (u v : State) : Prop :=
  ∃ h g, AgreeTo n h g ∧ u = { s with heap := h, hsize := n } ∧ v = { t with heap := g, hsize := n }

theorem SameHeap.inHeap (h : SameHeap s t) (k : Nat) : inHeap s k = inHeap t k := by
  rw [Bool.eq_iff_iff]
  simp only [Machine.inHeap, List.any_eq_true, List.mem_range, ← h.hsize]
  exact exists_congr fun j => and_congr_right fun hj => by rw [h.heap j hj]

theorem SameHeap.pqPush (h : SameHeap s t) (hc : s.cfg = t.cfg) (k : Nat) :
    Sim (HeapsTo s t (s.hsize + 1)) (pqPush k s) (pqPush k t) := by
  have sift : Sim (AgreeTo (s.hsize + 1)) (Machine.siftUp s s.hsize s.hsize (Store.write s.heap s.hsize k))
      (Machine.siftUp t t.hsize t.hsize (Store.write t.heap t.hsize k)) := by
    rw [← h.hsize]
    exact h.nodes.siftUp _ (h.heap.write_end k) (Nat.lt_succ_self _)
  refine Sim.ite (by rw [h.nodes.nnodes, h.inHeap k]) (fun _ => Sim.error) fun _ => ?_
  refine Sim.ite (by rw [hc, h.hsize]) (fun _ => Sim.error) fun _ => ?_
  exact sift.bind fun h' g' _ hg' => Sim.ok ⟨h', g', hg', rfl, by rw [h.hsize]⟩

theorem SameHeap.pqPop (h : SameHeap s t) (hc : s.cfg = t.cfg) :
    Sim (fun p q => p.1 = q.1 ∧ HeapsTo s t (s.hsize - 1) p.2 q.2) (pqPop s) (pqPop t) := by
  have shrunk : AgreeTo (s.hsize - 1) s.heap t.heap := h.heap.mono (by omega)
  refine Sim.ite (by rw [h.hsize]) (fun _ => Sim.error) fun h0 => ?_
  refine Sim.bind_eq (h.heap.heapAt (Nat.pos_of_ne_zero h0)) fun m _ => ?_
  refine Sim.ite (by rw [h.hsize]) (fun _ => Sim.ok ⟨rfl, _, _, shrunk, rfl, by rw [h.hsize]⟩) fun hn => ?_
  have last : Machine.heapAt s.heap (s.hsize - 1) = Machine.heapAt t.heap (t.hsize - 1) := by
    rw [← h.hsize]
    exact h.heap.heapAt (by omega)
  refine Sim.bind_eq last fun last _ => ?_
  have sift : Sim (AgreeTo (s.hsize - 1)) (Machine.siftDown s (s.hsize - 1) (s.hsize - 1) 0 (Store.write s.heap 0 last))
      (Machine.siftDown t (t.hsize - 1) (t.hsize - 1) 0 (Store.write t.heap 0 last)) := by
    rw [← h.hsize]
    exact h.nodes.siftDown hc _ (shrunk.write 0 last) (Nat.pos_of_ne_zero hn)
  exact sift.bind fun h' g' _ hg' => Sim.ok ⟨rfl, h', g', hg', rfl, by rw [h.hsize]⟩

theorem SameHeap.of_heaps {n : Nat} {h g : Store Nat} (hn : SameNodes s t) (hg : AgreeTo n h g) :
    SameHeap { s with heap := h, hsize := n } { t with heap := g, hsize := n } :=
  ⟨⟨hn.nnodes, hn.node⟩, rfl, hg⟩

/-! ### The Tree Builder -/

theorem execTbInit_alike (h : SameRun s t) (hp : s.phase = .tbInit) : Alike (execTbInit s) (execTbInit t) := by
  have regs := h.regs
  have table : SameTable s t := h.live_at hp
  refine Alike.next (SameRun.ite (by rw [regs.symCount]) (fun _ => regs.raise regs.errCursor) fun _ => ?_)
  exact .at_phase (p := .tbLeaf) rfl rfl { regs with } ⟨table, rfl, ⟨rfl, agreeTo_zero _ _⟩, rfl, agreeTo_zero _ _⟩

/-- The state with node `n` at index `k`, which is then the newest. -/
def withNode (s : State) (k : Nat) (n : TreeNode) : State := { s with node := Store.write s.node k n, nnodes := k + 1 }

theorem SameHeap.withNode (h : SameHeap s t) (n : TreeNode) : SameHeap (withNode s s.nnodes n) (withNode t s.nnodes n) :=
  ⟨⟨rfl, h.nodes.node.write_end n⟩, h.hsize, h.heap⟩

theorem SameHeap.addNode {k k' : Nat} (h : SameHeap s t) (hc : s.cfg = t.cfg) (hk : k = s.nnodes) (hk' : k' = k)
    (n : TreeNode) :
    Sim (HeapsTo (Machine.withNode s k n) (Machine.withNode t k n) (s.hsize + 1)) (addNode s k n) (addNode t k' n) := by
  subst hk hk'
  intro u hu
  obtain ⟨u', hw, hu⟩ := except_bind_ok.1 hu
  obtain ⟨hmax, rfl⟩ := writeNode_ok.1 hw
  obtain ⟨v, hv, huv⟩ := (h.withNode n).pqPush hc s.nnodes u hu
  exact ⟨v, except_bind_ok.2 ⟨_, writeNode_ok.2 ⟨by rw [← hc]; exact hmax, rfl⟩, hv⟩, huv⟩

theorem tbLeafNext_alike (h : SameRegs s t) (htab : SameTable s t) (hidx : s.idx = t.idx) (hheap : SameHeap s t) :
    SameRun (tbLeafNext s) (tbLeafNext t) := by
  have hsucc : s.idx + 1 = t.idx + 1 := congrArg (· + 1) hidx
  have phases : (tbLeafNext s).phase = (tbLeafNext t).phase := by
    simp only [tbLeafNext_phase, hidx, h.symCount, hheap.hsize]
  have heap : SameHeap (tbLeafNext s) (tbLeafNext t) := ⟨⟨hheap.nodes.nnodes, hheap.nodes.node⟩, hheap.hsize, hheap.heap⟩
  by_cases hl : s.idx + 1 < s.symCount
  · exact .at_phase (p := .tbLeaf) (by simp only [tbLeafNext_phase, if_pos hl]) phases { h with } ⟨htab, hsucc, heap⟩
  by_cases h1 : 1 < s.hsize
  · exact .at_phase (p := .tbMerge) (by simp only [tbLeafNext_phase, if_neg hl, if_pos h1]) phases { h with } ⟨htab, heap⟩
  · exact .at_phase (p := .tbRoot) (by simp only [tbLeafNext_phase, if_neg hl, if_neg h1]) phases { h with } ⟨htab, heap⟩

theorem execTbLeaf_alike (h : SameRun s t) (hp : s.phase = .tbLeaf) : Alike (execTbLeaf s) (execTbLeaf t) := by
  obtain ⟨htab, hidx, hheap⟩ := h.live_at hp
  have regs := h.regs
  refine Sim.finish (Sim.ite (by rw [regs.symCount, hidx, hheap.nodes.nnodes]) (fun _ => Sim.error) fun hpre => ?_)
  push Not at hpre
  obtain ⟨-, hnew⟩ := hpre
  refine Sim.bind_eq ((htab.readFt regs.symCount _).trans (by rw [hidx])) fun e _ => ?_
  refine (hheap.addNode regs.cfg hnew.symm (by rw [hidx]) (leafOf e)).bind ?_
  rintro _ _ - ⟨h', g', hg, rfl, rfl⟩
  have nodes := (hheap.withNode (leafOf e)).nodes
  rw [hnew] at nodes
  exact Sim.ok (tbLeafNext_alike { regs with } htab hidx (.of_heaps nodes hg))

theorem tbMergeNext_alike (h : SameRegs s t) (htab : SameTable s t) (hheap : SameHeap s t) :
    SameRun (tbMergeNext s) (tbMergeNext t) := by
  have phases : (tbMergeNext s).phase = (tbMergeNext t).phase := by simp only [tbMergeNext_phase, hheap.hsize]
  have heap : SameHeap (tbMergeNext s) (tbMergeNext t) := ⟨⟨hheap.nodes.nnodes, hheap.nodes.node⟩, hheap.hsize, hheap.heap⟩
  by_cases h1 : 1 < s.hsize
  · exact .at_phase (p := .tbMerge) (by simp only [tbMergeNext_phase, if_pos h1]) phases { h with } ⟨htab, heap⟩
  · exact .at_phase (p := .tbRoot) (by simp only [tbMergeNext_phase, if_neg h1]) phases { h with } ⟨htab, heap⟩

theorem execTbMerge_alike (h : SameRun s t) (hp : s.phase = .tbMerge) : Alike (execTbMerge s) (execTbMerge t) := by
  obtain ⟨htab, hheap⟩ := h.live_at hp
  have regs := h.regs
  refine Sim.finish (Sim.ite (by rw [hheap.hsize]) (fun _ => Sim.error) fun _ => ?_)
  refine (hheap.pqPop regs.cfg).bind ?_
  rintro ⟨a, s₁⟩ ⟨_, t₁⟩ - ⟨rfl, h₁, g₁, hg₁, rfl, rfl⟩
  have heap₁ := SameHeap.of_heaps hheap.nodes hg₁
  refine (heap₁.pqPop regs.cfg).bind ?_
  rintro ⟨b, s₂⟩ ⟨_, t₂⟩ - ⟨rfl, h₂, g₂, hg₂, rfl, rfl⟩
  have heap₂ := SameHeap.of_heaps heap₁.nodes hg₂
  refine Sim.bind_eq (heap₂.nodes.freqOf a) fun fa _ => Sim.bind_eq (heap₂.nodes.freqOf b) fun fb _ => ?_
  refine (heap₂.addNode regs.cfg rfl heap₂.nodes.nnodes.symm (joinOf a b fa fb)).bind ?_
  rintro _ _ - ⟨h', g', hg, rfl, rfl⟩
  exact Sim.ok (tbMergeNext_alike { regs with } htab (.of_heaps (heap₂.withNode (joinOf a b fa fb)).nodes hg))

theorem execTbRoot_alike (h : SameRun s t) (hp : s.phase = .tbRoot) : Alike (execTbRoot s) (execTbRoot t) := by
  obtain ⟨htab, hheap⟩ := h.live_at hp
  have regs := h.regs
  refine Sim.finish (Sim.ite (by rw [hheap.hsize]) (fun _ => Sim.error) fun _ => ?_)
  refine (hheap.pqPop regs.cfg).bind ?_
  rintro ⟨r, s₁⟩ ⟨_, t₁⟩ - ⟨rfl, h₁, g₁, -, rfl, rfl⟩
  exact Sim.ok (.at_phase (p := .bsHdr) rfl rfl { regs with } ⟨htab, ⟨hheap.nodes.nnodes, hheap.nodes.node⟩, rfl⟩)

/-! ### The Bit Stream Decoder -/

theorem bsHdrChecks_alike (h : SameRegs s t) (htab : SameTable s t) (hnodes : SameNodes s t) (hroot : s.root = t.root)
    (hbase : s.payloadBase = t.payloadBase) : Sim SameRun (bsHdrChecks s) (bsHdrChecks t) := by
  refine Sim.ite (by rw [h.inLen, hbase, h.packedBytes]) (fun _ => Sim.ok (h.raise h.errCursor)) fun _ => ?_
  refine Sim.ite (by rw [h.packedBits, h.packedBytes]) (fun _ => Sim.ok (h.raise h.errCursor)) fun _ => ?_
  refine Sim.bind_eq (hnodes.readNodeRef hroot) fun r _ => Sim.ok ?_
  have nodes : ∀ p, SameNodes { s with cursor := 0, walk := s.root, idx := 0, phase := p }
      { t with cursor := 0, walk := t.root, idx := 0, phase := p } := fun _ => ⟨hnodes.nnodes, hnodes.node⟩
  by_cases hl : r.leaf = true
  · exact .at_phase (p := .bsRun1) (if_pos hl) rfl { h with } ⟨htab, nodes _, hroot, rfl⟩
  · exact .at_phase (p := .bsBit) (if_neg hl) rfl { h with } ⟨htab, nodes _, hroot, hroot, rfl, hbase⟩

theorem execBsHdr_alike (h : SameRun s t) (hp : s.phase = .bsHdr) (hr : ReadsAlike s t) :
    Alike (execBsHdr s) (execBsHdr t) := by
  obtain ⟨htab, hnodes, hroot⟩ := h.live_at hp
  simp only [ReadsAlike, hp] at hr
  have regs := h.regs
  have hend := regs.entriesEnd
  refine Sim.finish (Sim.ite (by rw [regs.inLen, hend]) (fun _ => Sim.ok (regs.raise regs.errCursor)) fun hl => ?_)
  have hl' : ¬t.inLen.toNat < entriesEnd t + 12 := by rw [← hend, ← regs.inLen]; exact hl
  rw [memRead4_eq (s := s) (by omega), memRead4_eq (s := s) (by omega), memRead4_eq (s := s) (by omega),
    memRead4_eq (s := t) (by omega), memRead4_eq (s := t) (by omega), memRead4_eq (s := t) (by omega)]
  obtain ⟨hbits, hbytes⟩ := hr (not_lt.1 hl)
  exact bsHdrChecks_alike
    { regs with packedBits := hbits.trans (by rw [hend]), packedBytes := hbytes.trans (by rw [hend]) } htab
    ⟨hnodes.nnodes, hnodes.node⟩ hroot (congrArg (fun n => BitVec.ofNat 64 (n + 12)) hend)

theorem afterDecode_alike (h : SameRegs s t) (htab : SameTable s t) :
    SameRun { s with phase := afterDecode s } { t with phase := afterDecode t } := by
  have phases : afterDecode s = afterDecode t := by rw [afterDecode, afterDecode, h.validateEn]
  by_cases hv : s.validateEn = true
  · exact .at_phase (p := .vlInit) (if_pos hv) phases { h with } htab
  · exact .at_phase (p := .haltDone) (if_neg hv) phases { h with } trivial

theorem payloadBit_congr (hl : s.inLen = t.inLen) (ha : payloadAddr s = payloadAddr t) (hc : s.cursor = t.cursor)
    (hb : payloadAddr s < s.inLen.toNat →
      bitOfByte (inByte s (payloadAddr s)) s.cursor.toNat = bitOfByte (inByte t (payloadAddr s)) s.cursor.toNat) :
    payloadBit s = payloadBit t := by
  unfold payloadBit
  by_cases hin : payloadAddr s + 1 ≤ s.inLen.toNat
  · rw [memRead1_eq hin, memRead1_eq (by rw [← ha, ← hl]; exact hin)]
    simp only [except_ok_bind]
    rw [hb hin, ha, hc]
  · unfold memRead1
    rw [if_neg hin, if_neg (by rw [← ha, ← hl]; exact hin), ha]
    rfl

theorem bsBitArrive_alike {n n' : NodeRef} (h : SameRegs s t) (htab : SameTable s t) (hnodes : SameNodes s t)
    (hroot : s.root = t.root) (hc : s.cursor = t.cursor) (hb : s.payloadBase = t.payloadBase) (hn : n = n') :
    Sim SameRun (bsBitArrive s n) (bsBitArrive t n') := by
  subst hn
  cases n with
  | none => exact Sim.ok (h.raise hc)
  | some k =>
    have nodes : ∀ w, SameNodes { s with walk := w } { t with walk := w } := fun _ => ⟨hnodes.nnodes, hnodes.node⟩
    refine Sim.bind_eq ((nodes (some k)).readNode k) fun nd _ => Sim.ite Iff.rfl (fun _ => ?_) fun _ => ?_
    · refine SameRegs.emitThen (s := { s with walk := some k }) (t := { t with walk := some k }) { h with } fun _ _ hr => ?_
      exact .at_phase (p := .bsBit) rfl rfl { hr with }
        ⟨htab, ⟨hnodes.nnodes, hnodes.node⟩, hroot, hroot, hc, hb⟩
    · refine Sim.ite (by show s.cursor = s.packedBits ↔ t.cursor = t.packedBits; rw [hc, h.packedBits])
        (fun _ => Sim.ok (SameRegs.raise { h with } hc)) fun _ => ?_
      exact Sim.ok (.at_phase (p := .bsBit) rfl rfl { h with } ⟨htab, ⟨hnodes.nnodes, hnodes.node⟩, hroot, rfl, hc, hb⟩)

theorem execBsBit_alike (h : SameRun s t) (hp : s.phase = .bsBit) (hr : ReadsAlike s t) :
    Alike (execBsBit s) (execBsBit t) := by
  obtain ⟨htab, hnodes, hroot, hwalk, hc, hb⟩ := h.live_at hp
  simp only [ReadsAlike, hp] at hr
  have regs := h.regs
  have haddr : payloadAddr s = payloadAddr t := by rw [payloadAddr, payloadAddr, hb, hc]
  refine Sim.finish (Sim.bind_eq (hnodes.readNodeRef hwalk) fun w _ => ?_)
  refine Sim.ite Iff.rfl (fun _ => Sim.error) fun _ => ?_
  refine Sim.ite (by rw [hc, regs.packedBits]) (fun _ => Sim.ok (afterDecode_alike regs htab)) fun _ => ?_
  refine Sim.bind_eq (payloadBit_congr regs.inLen haddr hc hr) fun bit _ => ?_
  exact bsBitArrive_alike { regs with } htab ⟨hnodes.nnodes, hnodes.node⟩ hroot (congrArg (· + 1) hc) hb rfl

theorem execBsRun1_alike (h : SameRun s t) (hp : s.phase = .bsRun1) : Alike (execBsRun1 s) (execBsRun1 t) := by
  obtain ⟨htab, hnodes, hroot, hidx⟩ := h.live_at hp
  have regs := h.regs
  refine Sim.finish (Sim.bind_eq (hnodes.readNodeRef hroot) fun r _ => ?_)
  refine Sim.ite Iff.rfl (fun _ => Sim.error) fun _ => ?_
  refine Sim.bind_eq (htab.readFt regs.symCount 0) fun e _ => ?_
  refine Sim.ite (by rw [hidx]) (fun _ => Sim.ok (afterDecode_alike regs htab)) fun _ => ?_
  refine regs.emitThen fun _ _ hr => ?_
  exact .at_phase (p := .bsRun1) rfl rfl { hr with } ⟨htab, ⟨hnodes.nnodes, hnodes.node⟩, hroot, congrArg (· + 1) hidx⟩

/-! ### The Validator -/

theorem execVlInit_alike (h : SameRun s t) (hp : s.phase = .vlInit) : Alike (execVlInit s) (execVlInit t) := by
  have table : SameTable s t := h.live_at hp
  have regs := h.regs
  have phases : (if s.outLen = 0 then Phase.vlCmp else .vlTally) = if t.outLen = 0 then .vlCmp else .vlTally := by
    rw [regs.outLen]
  refine Alike.next ?_
  by_cases h0 : s.outLen = 0
  · exact .at_phase (p := .vlCmp) (if_pos h0) phases { regs with } ⟨table, rfl, rfl⟩
  · exact .at_phase (p := .vlTally) (if_neg h0) phases { regs with } ⟨table, rfl, rfl⟩

theorem readObs_congr (h : s.obs = t.obs) (x : Byte) : readObs s x = readObs t x := by
  rw [readObs, readObs, h]

theorem vlTallyNext_alike (h : SameRegs s t) (htab : SameTable s t) (hidx : s.idx = t.idx) (hobs : s.obs = t.obs) :
    SameRun (vlTallyNext s) (vlTallyNext t) := by
  refine SameRun.ite (by rw [hidx, h.outLen]) (fun _ => ?_) fun _ => ?_
  · exact .at_phase (p := .vlCmp) rfl rfl { h with } ⟨htab, rfl, hobs⟩
  · exact .at_phase (p := .vlTally) rfl rfl { h with } ⟨htab, congrArg (· + 1) hidx, hobs⟩

theorem execVlTally_alike (h : SameRun s t) (hp : s.phase = .vlTally) : Alike (execVlTally s) (execVlTally t) := by
  obtain ⟨htab, hidx, hobs⟩ := h.live_at hp
  have regs := h.regs
  refine Sim.finish (Sim.ite (by rw [regs.outLen, hidx]) (fun _ => Sim.error) fun _ => ?_)
  refine Sim.bind_eq ((regs.readOut _).trans (by rw [hidx])) fun x _ => ?_
  refine Sim.bind_eq (readObs_congr hobs x) fun v _ => Sim.ok ?_
  have written : (writeObs s x (v + 1)).obs = (writeObs t x (v + 1)).obs := by
    simp only [writeObs, hobs]
  exact vlTallyNext_alike { regs with } htab hidx written

theorem vlCmpNext_alike (h : SameRegs s t) (htab : SameTable s t) (hidx : s.idx = t.idx) (hobs : s.obs = t.obs) :
    SameRun (vlCmpNext s) (vlCmpNext t) := by
  have phases : (vlCmpNext s).phase = (vlCmpNext t).phase := by simp only [vlCmpNext_phase, hidx, h.symCount]
  by_cases hl : s.idx + 1 = s.symCount
  · exact .at_phase (p := .haltDone) (if_pos hl) phases { h with } trivial
  · exact .at_phase (p := .vlCmp) (if_neg hl) phases { h with } ⟨htab, congrArg (· + 1) hidx, hobs⟩

theorem execVlCmp_alike (h : SameRun s t) (hp : s.phase = .vlCmp) : Alike (execVlCmp s) (execVlCmp t) := by
  obtain ⟨htab, hidx, hobs⟩ := h.live_at hp
  have regs := h.regs
  refine Sim.finish (Sim.ite (by rw [regs.symCount, hidx]) (fun _ => Sim.error) fun _ => ?_)
  refine Sim.bind_eq ((htab.readFt regs.symCount _).trans (by rw [hidx])) fun e _ => ?_
  refine Sim.bind_eq (readObs_congr hobs e.sym) fun v _ => ?_
  exact Sim.ite Iff.rfl (fun _ => Sim.ok (regs.raise regs.errCursor)) fun _ =>
    Sim.ok (vlCmpNext_alike regs htab hidx hobs)

/-! ### Any operation -/

/-- Two runs at the same point, using the same input, go on to the same point. -/
theorem exec_alike (h : SameRun s t) (hr : ReadsAlike s t) :
    Alike (exec (phaseInstr s.phase) s) (exec (phaseInstr t.phase) t) := by
  rw [← h.phase]
  cases hp : s.phase with
  | idle | haltDone | haltErr => exact Alike.next h
  | ftHdr => exact execFtHdr_alike h hp hr
  | ftEnt => exact execFtEnt_alike h hp hr
  | tbInit => exact execTbInit_alike h hp
  | tbLeaf => exact execTbLeaf_alike h hp
  | tbMerge => exact execTbMerge_alike h hp
  | tbRoot => exact execTbRoot_alike h hp
  | bsHdr => exact execBsHdr_alike h hp hr
  | bsBit => exact execBsBit_alike h hp hr
  | bsRun1 => exact execBsRun1_alike h hp
  | vlInit => exact execVlInit_alike h hp
  | vlTally => exact execVlTally_alike h hp
  | vlCmp => exact execVlCmp_alike h hp

/-- The host sees the same result of two runs at the same point. -/
theorem SameRun.resultOf (h : SameRun s t) : resultOf s = resultOf t := by
  obtain ⟨regs, phase, -⟩ := h
  have output : outputOf s = outputOf t := by
    unfold outputOf
    rw [← regs.outLen]
    exact List.map_congr_left fun j hj => regs.output j (List.mem_range.1 hj)
  simp only [Machine.resultOf, phase, regs.validateEn, regs.errCode, regs.errSub, regs.errSym, regs.errDeclared,
    regs.errObserved, regs.errCursor, output, regs.symCount, regs.packedBits, regs.packedBytes]

/-- Two accepted `GO`s start at the same point, whatever the two blocks did before (rules R216, R217). -/
theorem sameRun_startRun (v : Bool) (hc : s.cfg = t.cfg) (hl : s.inLen = t.inLen) : SameRun (startRun v s) (startRun v t) :=
  ⟨⟨hc, rfl, rfl, rfl, rfl, rfl, rfl, rfl, hl, rfl, rfl, rfl, rfl, agreeTo_zero _ _⟩, rfl, trivial⟩

end Sys2Proof.Machine
end

section
/-! PROOFS. The outcome of a run depends only on the input, `VAL` and the parameters (rules R6, R217, R225). -/

namespace Sys2Proof.Machine

variable {s t u v : State}

/-- The two blocks hold the same bytes of `IN` below `IN_LEN`. -/
def SameInput (s t : State) : Prop := ∀ a, a < s.inLen.toNat → inByte s a = inByte t a

theorem SameInput.inWord (h : SameInput s t) (hc : s.cfg = t.cfg) {a : Nat} (ha : a + 4 ≤ s.inLen.toNat) :
    inWord s a = inWord t a := by
  unfold Machine.inWord
  rw [hc, h a (by omega), h (a + 1) (by omega), h (a + 2) (by omega), h (a + 3) (by omega)]

/-- With the same input, the next operation uses the same of it. -/
theorem SameInput.readsAlike (h : SameInput s t) (hc : s.cfg = t.cfg) : ReadsAlike s t := by
  unfold ReadsAlike
  split
  · exact fun hl => h.inWord hc hl
  · exact ⟨fun hl => h.inWord hc hl, fun hl => h _ (by omega)⟩
  · exact fun hl => ⟨h.inWord hc (by omega), h.inWord hc (by omega)⟩
  · exact fun hl => by rw [h _ hl]
  all_goals trivial

theorem inByte_of_runPart (h : runPart u = runPart s) : inByte u = inByte s ∧ u.inLen = s.inLen := by
  simp only [runPart, givenPart, Prod.mk.injEq] at h
  obtain ⟨⟨hcfg, hlen, hbuf, -⟩, hepoch, -⟩ := h
  exact ⟨inByte_congr hcfg hbuf hepoch, hlen⟩

theorem SameInput.of_runPart (h : SameInput s t) (hu : runPart u = runPart s) (hv : runPart v = runPart t) :
    SameInput u v := by
  obtain ⟨hsu, hlen⟩ := inByte_of_runPart hu
  obtain ⟨htv, -⟩ := inByte_of_runPart hv
  intro a ha
  rw [hsu, htv]
  exact h a (hlen ▸ ha)

/-! ### The registers that are only latched -/

theorem latchedPart_ftHdrChecks (s : State) : latchedPart (ftHdrChecks s) = latchedPart s := by
  rcases ftHdrChecks_cases s with h | h | ⟨-, -, h⟩ <;> rw [h] <;> rfl

/-- What `FT.HDR` latches. -/
theorem execFtHdr_latchedPart (h : execFtHdr s = .next u) :
    latchedPart u = if s.inLen.toNat < 12 then latchedPart s else (inWord s 0, inWord s 4, s.unpackedBytes) := by
  rcases execFtHdr_next h with ⟨hl, rfl⟩ | ⟨hl, rfl⟩
  · rw [if_pos hl]
    rfl
  · rw [if_neg (not_lt.2 hl), latchedPart_ftHdrChecks]
    rfl

/-- What `BS.HDR` latches. -/
theorem execBsHdr_latchedPart (h : execBsHdr s = .next u) :
    latchedPart u = if s.inLen.toNat < entriesEnd s + 12 then latchedPart s
      else (s.hdrTotalLen, s.hdrReserved, inWord s (entriesEnd s + 8)) := by
  rcases execBsHdr_next h with ⟨hl, rfl⟩ | ⟨hl, w, rfl, hcase⟩
  · rw [if_pos hl]
    rfl
  · rw [if_neg (not_lt.2 hl)]
    rcases hcase with rfl | rfl | ⟨-, -, r, n, -, -, -, rfl⟩ <;> rfl

/-- Two runs at the same point, over the same input, that latched the same. -/
structure Twins (s t : State) : Prop where
  run : SameRun s t
  input : SameInput s t
  latched : latchedPart s = latchedPart t

theorem Twins.exec_latched (h : Twins s t) (hu : exec (phaseInstr s.phase) s = .next u)
    (hv : exec (phaseInstr t.phase) t = .next v) : latchedPart u = latchedPart v := by
  obtain ⟨⟨regs, phase, -⟩, input, latched⟩ := h
  have latched' := latched
  simp only [latchedPart, Prod.mk.injEq] at latched'
  obtain ⟨htotal, hreserved, hunpacked⟩ := latched'
  by_cases h1 : s.phase = .ftHdr
  · rw [h1] at hu
    rw [← phase, h1] at hv
    rw [execFtHdr_latchedPart hu, execFtHdr_latchedPart hv, ← regs.inLen]
    split
    · exact latched
    · rw [input.inWord regs.cfg (by omega), input.inWord regs.cfg (by omega), hunpacked]
  by_cases h2 : s.phase = .bsHdr
  · rw [h2] at hu
    rw [← phase, h2] at hv
    rw [execBsHdr_latchedPart hu, execBsHdr_latchedPart hv, ← regs.inLen, ← regs.entriesEnd]
    split
    · exact latched
    · rw [input.inWord regs.cfg (by omega), htotal, hreserved]
  · rw [(exec_phaseInstr_keeps hu h1 h2).2, (exec_phaseInstr_keeps hv (phase ▸ h1) (phase ▸ h2)).2, latched]

/-! ### Runs -/

theorem Twins.step (h : Twins s t) (hs : Alone s) (ht : Alone t) (hu : step s = .next u) :
    ∃ v, Machine.step t = .next v ∧ Twins u v := by
  rw [step_of_alone hs] at hu
  obtain ⟨v, hv, huv⟩ := exec_alike h.run (h.input.readsAlike h.run.regs.cfg) u hu
  exact ⟨v, (step_of_alone ht).trans hv, huv,
    h.input.of_runPart (exec_phaseInstr_runPart hu) (exec_phaseInstr_runPart hv), h.exec_latched hu hv⟩

theorem Twins.stepN {k : Nat} (h : Twins s t) (hs : Alone s) (ht : Alone t) (hu : stepN k s = some u) :
    ∃ v, Machine.stepN k t = some v ∧ Twins u v := by
  induction k generalizing s t with
  | zero => exact ⟨t, rfl, Option.some.inj hu ▸ h⟩
  | succ k ih =>
    obtain ⟨s', hs', hu⟩ := stepN_succ_some.1 hu
    obtain ⟨t', ht', h'⟩ := h.step hs ht hs'
    obtain ⟨v, hv, huv⟩ := ih h' (hs.step hs').2 (ht.step ht').2 hu
    exact ⟨v, stepN_succ_some.2 ⟨t', ht', hv⟩, huv⟩

/-- Settles O55: the run from one block ends, and the run from the other follows it step by step. -/
theorem historyIndependent : Obligations.HistoryIndependent := by
  intro s t validate hs ht _ _ hcfg hlen hbytes
  have aloneS : Alone (startRun validate s) := hs
  have aloneT : Alone (startRun validate t) := ht
  obtain ⟨k, s', hk, hend, -⟩ := (runInv_startRun validate s).ends aloneS (.inl rfl)
  have twins : Twins (startRun validate s) (startRun validate t) := ⟨sameRun_startRun validate hcfg hlen, hbytes, rfl⟩
  obtain ⟨t', hk', htwins⟩ := twins.stepN aloneS aloneT hk
  have latched := htwins.latched
  simp only [latchedPart, Prod.mk.injEq] at latched
  refine ⟨k, s', t', hk, hk', hend, ?_, htwins.run.resultOf, latched⟩
  rw [Ended, ← htwins.run.phase]
  exact hend

end Sys2Proof.Machine
end

section
/-! PROOFS. What one step can be: an operation of the block or an access of the host, and what an access can do (rules R15,
R216, R218, R223, R281). -/

namespace Sys2Proof.Machine

variable {s t : State}

/-- A property that does not rest on the waiting inputs, and that every operation of the block and every access of the host
keeps, is kept by every step. -/
theorem step_keeps {P : State → Prop} (inputs : ∀ {s : State} (rest : List Input), P s → P { s with inputs := rest })
    (block : ∀ {s t : State}, P s → blockStep s = .next t → P t)
    (host : ∀ {a : HostAction} {s t : State}, P s → hostAct a s = .next t → P t) (h : P s) (hs : step s = .next t) : P t := by
  cases hin : s.inputs with
  | nil => exact block h (step_no_inputs hin ▸ hs)
  | cons i rest =>
    cases i with
    | block => exact block (inputs rest h) (step_block_input hin ▸ hs)
    | host a => exact host (inputs rest h) (step_host_input hin ▸ hs)

/-- A word written to `CTRL` is `GO` or no command (rule R98). -/
theorem decode_cmd_ok {w : Word32} {i : Instr} (h : decode (.cmd w) = .ok i) : i = .go (w.getLsbD 1) := by
  replace h : decodeCmd w = .ok i := h
  unfold decodeCmd at h
  split at h
  · exact (Except.ok.inj h).symm
  · cases h

/-- `GO` is dropped while BUSY, else it starts a run (rules R216, R218). -/
theorem execGo_next {v : Bool} (h : execGo v s = .next t) : (busy s = true ∧ t = s) ∨ (busy s = false ∧ t = startRun v s) := by
  unfold execGo at h
  split at h
  · next hb => exact .inl ⟨hb, (Host.Outcome.next.inj h).symm⟩
  · next hb => exact .inr ⟨by simpa using hb, (Host.Outcome.next.inj h).symm⟩

theorem hostWriteReg_next {n : Nat} {v : Word64} (h : hostWriteReg n v s = .next t) :
    t = s ∨ (∃ b, t = startRun b s) ∨ (busy s = false ∧ t = { s with inLen := v }) := by
  unfold hostWriteReg at h
  split at h
  · unfold hostWriteCtrl at h
    split at h
    · next i hi =>
      obtain rfl := decode_cmd_ok hi
      rcases execGo_next h with ⟨-, e⟩ | ⟨-, e⟩
      · exact .inl e
      · exact .inr (.inl ⟨_, e⟩)
    · exact .inl (Host.Outcome.next.inj h).symm
  · split at h
    · split at h
      · cases h
      · next hb => exact .inr (.inr ⟨by simpa using hb, (Host.Outcome.next.inj h).symm⟩)
    · exact .inl (Host.Outcome.next.inj h).symm

theorem hostWriteIn_next {a : Nat} {b : Byte} (h : hostWriteIn a b s = .next t) :
    busy s = false ∧ a < s.cfg.inCap ∧ t = { s with inBuf := Store.write s.inBuf a b } := by
  unfold hostWriteIn at h
  split at h
  · cases h
  · next hb =>
    split at h
    · next ha => exact ⟨by simpa using hb, ha, (Host.Outcome.next.inj h).symm⟩
    · cases h

/-- What an access of the host can do when it is not refused: nothing, start a run, set `IN_LEN` or a byte of `IN` of a block
that is not BUSY, return a value, or reset. -/
theorem hostAct_next {a : HostAction} (h : hostAct a s = .next t) :
    t = s ∨ (∃ b, t = startRun b s) ∨ (∃ v, busy s = false ∧ t = { s with inLen := v }) ∨
    (∃ n b, busy s = false ∧ n < s.cfg.inCap ∧ t = { s with inBuf := Store.write s.inBuf n b }) ∨
    (∃ v, t = hostReturns s v) ∨ t = resetEvent s := by
  cases a with
  | writeReg n v =>
    rcases hostWriteReg_next h with e | e | e
    · exact .inl e
    · exact .inr (.inl e)
    · exact .inr (.inr (.inl ⟨v, e⟩))
  | writeIn n b => exact .inr (.inr (.inr (.inl ⟨n, b, hostWriteIn_next h⟩)))
  | readReg _ | readIn _ | readOut _ => exact .inr (.inr (.inr (.inr (.inl ⟨_, (Host.Outcome.next.inj h).symm⟩))))
  | reset => exact .inr (.inr (.inr (.inr (.inr (Host.Outcome.next.inj h).symm))))

end Sys2Proof.Machine
end

section
/-! PROOFS. The registers each operation writes: one lemma for each operation that writes several or in several cases, naming
them all; whatever it does not name is as before (rules R24 to R33, R222). -/

namespace Sys2Proof.Machine

variable {s t : State}

theorem execFtHdr_writes (h : execFtHdr s = .next t) : ∃ total reserved n idx phase code sub, t = { s with
    hdrTotalLen := total, hdrReserved := reserved, symCount := n, idx := idx, phase := phase, errCode := code,
    errSub := sub } := by
  rcases execFtHdr_next h with ⟨-, rfl⟩ | ⟨-, rfl⟩
  · exact ⟨_, _, _, _, _, _, _, rfl⟩
  · rcases ftHdrChecks_cases { s with hdrTotalLen := inWord s 0, hdrReserved := inWord s 4, symCount := inWord s 8 } with
      e | e | ⟨-, -, e⟩ <;> rw [e] <;> exact ⟨_, _, _, _, _, _, _, rfl⟩

theorem execTbInit_writes (h : execTbInit s = .next t) : ∃ hsize nnodes idx phase code sub, t = { s with
    hsize := hsize, nnodes := nnodes, idx := idx, phase := phase, errCode := code, errSub := sub } := by
  rcases execTbInit_next h with ⟨-, rfl⟩ | ⟨-, rfl⟩ <;> exact ⟨_, _, _, _, _, _, rfl⟩

theorem execBsHdr_writes (h : execBsHdr s = .next t) : ∃ bits bytes unpacked base cursor walk idx phase code sub, t = { s with
    packedBits := bits, packedBytes := bytes, unpackedBytes := unpacked, payloadBase := base, cursor := cursor, walk := walk,
    idx := idx, phase := phase, errCode := code, errSub := sub } := by
  rcases execBsHdr_next h with ⟨-, rfl⟩ | ⟨-, u, rfl, rfl | rfl | ⟨-, -, r, n, -, -, -, rfl⟩⟩ <;>
    exact ⟨_, _, _, _, _, _, _, _, _, _, rfl⟩

theorem execBsBit_writes (h : execBsBit s = .next t) : ∃ cursor walk out len phase code sub err, t = { s with
    cursor := cursor, walk := walk, outBuf := out, outLen := len, phase := phase, errCode := code, errSub := sub,
    errCursor := err } := by
  obtain ⟨w, nd, -, -, -, -, hcase⟩ := execBsBit_next h
  rcases hcase with ⟨-, rfl⟩ | ⟨-, -, nxt, -, ⟨-, rfl⟩ | ⟨k, c, -, -, -, hleaf⟩⟩
  · exact ⟨_, _, _, _, _, _, _, _, rfl⟩
  · exact ⟨_, _, _, _, _, _, _, _, rfl⟩
  · rcases hleaf with ⟨-, -, rfl⟩ | ⟨-, -, rfl⟩ | ⟨-, -, rfl⟩ | ⟨-, -, rfl⟩ <;> exact ⟨_, _, _, _, _, _, _, _, rfl⟩

theorem execBsRun1_writes (h : execBsRun1 s = .next t) : ∃ out len idx phase code sub, t = { s with
    outBuf := out, outLen := len, idx := idx, phase := phase, errCode := code, errSub := sub } := by
  obtain ⟨r, nd, e, -, -, -, -, -, hcase⟩ := execBsRun1_next h
  rcases hcase with ⟨-, rfl⟩ | ⟨-, -, rfl⟩ | ⟨-, -, rfl⟩ <;> exact ⟨_, _, _, _, _, _, rfl⟩

theorem execVlTally_writes (h : execVlTally s = .next t) : ∃ obs idx phase, t = { s with
    obs := obs, idx := idx, phase := phase } := by
  obtain ⟨-, x, v, -, -, rfl⟩ := execVlTally_next h
  rcases vlTallyNext_cases (writeObs s x (v + 1)) with ⟨-, e⟩ | ⟨-, e⟩ <;> rw [e] <;> exact ⟨_, _, _, rfl⟩

theorem execVlCmp_writes (h : execVlCmp s = .next t) : ∃ idx phase code sub sym declared observed, t = { s with
    idx := idx, phase := phase, errCode := code, errSub := sub, errSym := sym, errDeclared := declared,
    errObserved := observed } := by
  obtain ⟨-, e, v, -, -, ⟨-, rfl⟩ | ⟨-, rfl⟩⟩ := execVlCmp_next h <;> exact ⟨_, _, _, _, _, _, _, rfl⟩

end Sys2Proof.Machine
end

section
/-! PROOFS. Every step keeps the form of storage (rules R34 to R40). -/

namespace Sys2Proof.Machine

variable {s t : State}

/-! ### What the operations write to `HEAP` and `OUT` -/

theorem addNode_heap {k : Nat} {n : TreeNode} (hh : Bounded s.cfg.maxSyms s.heap) (h : addNode s k n = .ok t) :
    Bounded s.cfg.maxSyms t.heap := by
  obtain ⟨u, hw, h⟩ := except_bind_ok.1 h
  obtain ⟨-, rfl⟩ := writeNode_ok.1 hw
  exact Bounded.pqPush (s := { s with node := Store.write s.node k n, nnodes := k + 1 }) hh h

theorem execTbLeaf_heap (hh : Bounded s.cfg.maxSyms s.heap) (h : execTbLeaf s = .next t) : Bounded s.cfg.maxSyms t.heap := by
  replace h := finish_next.1 h
  split at h
  · cases h
  · obtain ⟨e, -, h⟩ := except_bind_ok.1 h
    obtain ⟨u, hu, h⟩ := except_bind_ok.1 h
    obtain rfl := Except.ok.inj h
    exact (addNode_heap hh hu :)

theorem execTbMerge_heap (hh : Bounded s.cfg.maxSyms s.heap) (h : execTbMerge s = .next t) : Bounded s.cfg.maxSyms t.heap := by
  replace h := finish_next.1 h
  split at h
  · cases h
  · obtain ⟨⟨a, s₁⟩, h₁, h⟩ := except_bind_ok.1 h
    obtain ⟨⟨b, s₂⟩, h₂, h⟩ := except_bind_ok.1 h
    obtain ⟨fa, -, h⟩ := except_bind_ok.1 h
    obtain ⟨fb, -, h⟩ := except_bind_ok.1 h
    obtain ⟨s₃, h₃, h⟩ := except_bind_ok.1 h
    obtain rfl := Except.ok.inj h
    obtain ⟨-, -, e₁, -⟩ := pqPop_frame h₁
    obtain ⟨-, -, e₂, -⟩ := pqPop_frame h₂
    have cfg : s₂.cfg = s.cfg := by rw [e₂, e₁]
    rw [← cfg] at hh ⊢
    exact (addNode_heap ((hh.pqPop h₁).pqPop h₂) h₃ :)

theorem execPqPush_heap {k : Nat} (hh : Bounded s.cfg.maxSyms s.heap) (h : execPqPush k s = .next t) :
    Bounded s.cfg.maxSyms t.heap := by
  obtain ⟨u, hu, h⟩ := except_bind_ok.1 (finish_next.1 h)
  obtain rfl := Except.ok.inj h
  exact (hh.pqPush hu :)

theorem execPqPop_heap {n : Nat} (hh : Bounded n s.heap) (h : execPqPop s = .next t) : Bounded n t.heap := by
  obtain ⟨⟨m, u⟩, hu, h⟩ := except_bind_ok.1 (finish_next.1 h)
  obtain rfl := Except.ok.inj h
  exact (hh.pqPop hu :)

/-- `BS.BIT` stores nothing, or one byte inside `OUT`. -/
theorem execBsBit_outBuf (h : execBsBit s = .next t) :
    t.outBuf = s.outBuf ∨ (s.outLen.toNat < s.cfg.outCap ∧ ∃ x, t.outBuf = Store.write s.outBuf s.outLen.toNat x) := by
  obtain ⟨w, nd, -, -, -, -, hcase⟩ := execBsBit_next h
  rcases hcase with ⟨-, rfl⟩ | ⟨-, -, nxt, -, ⟨-, rfl⟩ | ⟨k, c, -, -, -, hleaf⟩⟩
  · exact .inl rfl
  · exact .inl rfl
  · rcases hleaf with ⟨-, -, rfl⟩ | ⟨-, hroom, rfl⟩ | ⟨-, -, rfl⟩ | ⟨-, -, rfl⟩
    · exact .inl rfl
    · exact .inr ⟨hroom, _, rfl⟩
    · exact .inl rfl
    · exact .inl rfl

/-- `BS.RUN1` stores nothing, or one byte inside `OUT`. -/
theorem execBsRun1_outBuf (h : execBsRun1 s = .next t) :
    t.outBuf = s.outBuf ∨ (s.outLen.toNat < s.cfg.outCap ∧ ∃ x, t.outBuf = Store.write s.outBuf s.outLen.toNat x) := by
  obtain ⟨r, nd, e, -, -, -, -, -, hcase⟩ := execBsRun1_next h
  rcases hcase with ⟨-, rfl⟩ | ⟨-, -, rfl⟩ | ⟨-, hroom, rfl⟩
  · exact .inl rfl
  · exact .inl rfl
  · exact .inr ⟨hroom, _, rfl⟩

/-! ### The form, file by file -/

theorem StorageForm.inBuf (h : StorageForm s) : Bounded s.cfg.inCap s.inBuf := ⟨h.inWf, h.inSize⟩
theorem StorageForm.outBuf (h : StorageForm s) : Bounded s.cfg.outCap s.outBuf := ⟨h.outWf, h.outSize⟩
theorem StorageForm.ft (h : StorageForm s) : Bounded s.cfg.maxSyms s.ft := ⟨h.ftWf, h.ftSize⟩
theorem StorageForm.node (h : StorageForm s) : Bounded (2 * s.cfg.maxSyms - 1) s.node := ⟨h.nodeWf, h.nodeSize⟩
theorem StorageForm.heap (h : StorageForm s) : Bounded s.cfg.maxSyms s.heap := ⟨h.heapWf, h.heapSize⟩
theorem StorageForm.obs (h : StorageForm s) : Bounded 256 s.obs := ⟨h.obsWf, h.obsSize⟩

/-- Every file and buffer in its form is the form of storage. -/
theorem StorageForm.of_bounded (inBuf : Bounded s.cfg.inCap s.inBuf) (outBuf : Bounded s.cfg.outCap s.outBuf)
    (ft : Bounded s.cfg.maxSyms s.ft) (node : Bounded (2 * s.cfg.maxSyms - 1) s.node) (heap : Bounded s.cfg.maxSyms s.heap)
    (obs : Bounded 256 s.obs) : StorageForm s :=
  ⟨inBuf.1, outBuf.1, ft.1, node.1, heap.1, obs.1, inBuf.2, outBuf.2, ft.2, node.2, heap.2, obs.2⟩

/-- The fields that the form of storage rests on. -/
def storagePart (s : State) :
    Config × Memory × Memory × Store FtEntry × Store TreeNode × Store Nat × Store Word32 :=
  (s.cfg, s.inBuf, s.outBuf, s.ft, s.node, s.heap, s.obs)

/-- A step that writes no file or buffer keeps their form. -/
theorem StorageForm.of_eq (h : StorageForm s) (e : storagePart t = storagePart s) : StorageForm t := by
  simp only [storagePart, Prod.mk.injEq] at e
  obtain ⟨hc, hi, ho, hf, hn, hh, hb⟩ := e
  refine .of_bounded ?_ ?_ ?_ ?_ ?_ ?_
  · rw [hc, hi]; exact h.inBuf
  · rw [hc, ho]; exact h.outBuf
  · rw [hc, hf]; exact h.ft
  · rw [hc, hn]; exact h.node
  · rw [hc, hh]; exact h.heap
  · rw [hb]; exact h.obs

/-- At most one byte is stored, at `OUT_LEN` and inside `OUT`. -/
theorem StorageForm.store {out : Memory} (h : StorageForm s)
    (ho : out = s.outBuf ∨ (s.outLen.toNat < s.cfg.outCap ∧ ∃ x, out = Store.write s.outBuf s.outLen.toNat x)) :
    Bounded s.cfg.outCap out := by
  rcases ho with rfl | ⟨hroom, x, rfl⟩
  · exact h.outBuf
  · exact h.outBuf.write hroom x

/-- The form holds after reset. -/
theorem storageForm_resetWith (c : Config) : StorageForm (State.resetWith c) :=
  .of_bounded bounded_nil bounded_nil bounded_nil bounded_nil bounded_nil bounded_nil

/-! ### The steps -/

theorem StorageForm.exec {i : Instr} (h : StorageForm s) (he : exec i s = .next t) : StorageForm t := by
  cases i with
  | go v => rcases execGo_next he with ⟨-, rfl⟩ | ⟨-, rfl⟩ <;> exact h.of_eq rfl
  | idle | haltDone | haltErr | pqSize =>
    obtain rfl := Host.Outcome.next.inj he
    exact h.of_eq rfl
  | ftHdr =>
    obtain ⟨_, _, _, _, _, _, _, rfl⟩ := execFtHdr_writes he
    exact h.of_eq rfl
  | ftEnt =>
    obtain ⟨-, hmax, rfl⟩ := execFtEnt_next he
    exact .of_bounded h.inBuf h.outBuf (h.ft.write hmax _) h.node h.heap h.obs
  | tbInit =>
    obtain ⟨_, _, _, _, _, _, rfl⟩ := execTbInit_writes he
    exact h.of_eq rfl
  | tbLeaf =>
    have heap := execTbLeaf_heap h.heap he
    obtain ⟨-, -, e, h', -, hmax, -, -, rfl⟩ := execTbLeaf_next he
    exact .of_bounded h.inBuf h.outBuf h.ft (h.node.write hmax _) heap h.obs
  | tbMerge =>
    have heap := execTbMerge_heap h.heap he
    obtain ⟨-, a, b, h', -, hmax, -, rfl⟩ := execTbMerge_next he
    exact .of_bounded h.inBuf h.outBuf h.ft (h.node.write hmax _) heap h.obs
  | tbRoot =>
    obtain ⟨-, r, -, rfl⟩ := execTbRoot_next he
    exact h.of_eq rfl
  | bsHdr =>
    obtain ⟨_, _, _, _, _, _, _, _, _, _, rfl⟩ := execBsHdr_writes he
    exact h.of_eq rfl
  | bsBit =>
    have out := h.store (execBsBit_outBuf he)
    obtain ⟨_, _, _, _, _, _, _, _, rfl⟩ := execBsBit_writes he
    exact .of_bounded h.inBuf out h.ft h.node h.heap h.obs
  | bsRun1 =>
    have out := h.store (execBsRun1_outBuf he)
    obtain ⟨_, _, _, _, _, _, rfl⟩ := execBsRun1_writes he
    exact .of_bounded h.inBuf out h.ft h.node h.heap h.obs
  | vlInit =>
    obtain rfl := Host.Outcome.next.inj he
    exact .of_bounded h.inBuf h.outBuf h.ft h.node h.heap bounded_zeroTallies
  | vlTally =>
    obtain ⟨-, x, v, -, -, rfl⟩ := execVlTally_next he
    have obs := h.obs.write x.isLt (v + 1)
    rcases vlTallyNext_cases (writeObs s x (v + 1)) with ⟨-, e⟩ | ⟨-, e⟩ <;> rw [e] <;>
      exact .of_bounded h.inBuf h.outBuf h.ft h.node h.heap obs
  | vlCmp =>
    obtain ⟨_, _, _, _, _, _, _, rfl⟩ := execVlCmp_writes he
    exact h.of_eq rfl
  | pqPush k =>
    have heap := execPqPush_heap h.heap he
    obtain ⟨-, -, -, h', -, rfl⟩ := execPqPush_next he
    exact .of_bounded h.inBuf h.outBuf h.ft h.node heap h.obs
  | pqPop =>
    have heap := execPqPop_heap h.heap he
    obtain ⟨-, m, h', -, -, rfl⟩ := execPqPop_next he
    exact .of_bounded h.inBuf h.outBuf h.ft h.node heap h.obs

theorem StorageForm.blockStep (h : StorageForm s) (hs : blockStep s = .next t) : StorageForm t := by
  unfold Machine.blockStep at hs
  split at hs
  · exact StorageForm.exec (s := { s with pqPort := none }) (h.of_eq rfl) hs
  · cases hs

theorem StorageForm.hostAct {a : HostAction} (h : StorageForm s) (hs : hostAct a s = .next t) : StorageForm t := by
  rcases hostAct_next hs with rfl | ⟨b, rfl⟩ | ⟨v, -, rfl⟩ | ⟨n, b, -, hn, rfl⟩ | ⟨v, rfl⟩ | rfl
  · exact h
  · exact h.of_eq rfl
  · exact h.of_eq rfl
  · exact .of_bounded (h.inBuf.write hn b) h.outBuf h.ft h.node h.heap h.obs
  · exact h.of_eq rfl
  · exact (storageForm_resetWith s.cfg).of_eq rfl

/-- Settles O44: an operation writes a file or buffer only inside it and in its form, and of the host's accesses only a write of
`IN` and a reset touch storage. -/
theorem storageFormKept : Obligations.StorageFormKept := fun _ _ h hs =>
  step_keeps (fun _ h => h.of_eq rfl) StorageForm.blockStep StorageForm.hostAct h hs

end Sys2Proof.Machine
end

section
/-! PROOFS. The invariant holds after reset and every step keeps it (rules R44, R126, R165, R185, R217, R253). -/

namespace Sys2Proof.Machine

variable {s t : State}

theorem inv_resetWith (c : Config) : Inv (State.resetWith c) :=
  ⟨storageForm_resetWith c, rfl, Nat.zero_le _, ⟨rfl, rfl, rfl, rfl, rfl, rfl⟩⟩

/-- Settles O45: nothing is stored, emitted or recorded right after reset. -/
theorem invariantAtReset : Obligations.InvariantAtReset := ⟨inv_resetWith _, inv_resetWith⟩

theorem Inv.runInv (h : Inv s) : RunInv s := ⟨h.outFits, h.phase⟩

/-- The fields that the invariant of a run rests on, besides those of the tree, and less `IN_LEN`. -/
def runInvPart (s : State) :
    (Config × Word32 × Nat × Nat × NodeRef × Store FtEntry × Store TreeNode × Store Nat × Word32 × Memory) ×
      (BitVec 3 × BitVec 4 × Byte × Word32 × Word32 × Word32) ×
      (Phase × Bool × Word32 × Word32 × NodeRef × Word32 × Word32 × Word64 × Store Word32) :=
  (treePart s, (s.errCode, s.errSub, s.errSym, s.errDeclared, s.errObserved, s.errCursor),
    (s.phase, s.validateEn, s.idx, s.cursor, s.walk, s.packedBits, s.packedBytes, s.payloadBase, s.obs))

/-- The invariant of a run rests on `IN_LEN` only while the block is BUSY. -/
theorem RunInv.of_eq (h : RunInv s) (e : runInvPart t = runInvPart s) (hl : t.inLen = s.inLen ∨ busy s = false) : RunInv t := by
  simp only [runInvPart, Prod.mk.injEq] at e
  obtain ⟨tree, ⟨h1, h2, h3, h4, h5, h6⟩, hp, hv, hi, hc, hw, hbits, hbytes, hbase, ho⟩ := e
  have same : SameTree s t := .of_eq tree
  exact ⟨by rw [same.outLen, same.cfg]; exact h.outFits,
    h.phase.congr hp same ⟨h1, h2, h3, h4, h5, h6⟩ hv hi hc hw hbits hbytes hbase ho hl⟩

/-- With no request at the Priority Queue, the block's step is an operation of the run. -/
theorem Inv.blockStep (h : Inv s) (hs : blockStep s = .next t) : Inv t := by
  have storage := h.storage.blockStep hs
  rw [blockStep_of_no_request h.port] at hs
  have given := exec_givenPart hs
  simp only [givenPart, Prod.mk.injEq] at given
  obtain ⟨-, -, -, -, -, -, port⟩ := given
  obtain ⟨outFits, phase⟩ := h.runInv.exec hs
  exact ⟨storage, port.trans h.port, outFits, phase⟩

theorem Inv.of_eq (h : Inv s) (storage : StorageForm t) (e : runInvPart t = runInvPart s) (hp : t.pqPort = s.pqPort)
    (hl : t.inLen = s.inLen ∨ busy s = false) : Inv t := by
  obtain ⟨outFits, phase⟩ := h.runInv.of_eq e hl
  exact ⟨storage, hp.trans h.port, outFits, phase⟩

theorem Inv.hostAct {a : HostAction} (h : Inv s) (hs : hostAct a s = .next t) : Inv t := by
  have storage := h.storage.hostAct hs
  rcases hostAct_next hs with rfl | ⟨b, rfl⟩ | ⟨v, hb, rfl⟩ | ⟨n, b, -, -, rfl⟩ | ⟨v, rfl⟩ | rfl
  · exact h
  · obtain ⟨outFits, phase⟩ := runInv_startRun b s
    exact ⟨storage, h.port, outFits, phase⟩
  · exact h.of_eq storage rfl rfl (.inr hb)
  · exact h.of_eq storage rfl rfl (.inl rfl)
  · exact h.of_eq storage rfl rfl (.inl rfl)
  · exact (inv_resetWith s.cfg).of_eq storage rfl rfl (.inl rfl)

/-- Settles O46: the block's operation advances the run, and of the host's accesses only `GO` and reset write what the invariant
rests on, but for `IN_LEN` of a block that is not BUSY. -/
theorem invariantKept : Obligations.InvariantKept := fun _ _ h hs =>
  step_keeps (fun _ h => h.of_eq (h.storage.of_eq rfl) rfl rfl (.inl rfl)) Inv.blockStep Inv.hostAct h hs

end Sys2Proof.Machine
end

section
/-! PROOFS. The frames: which operations write each register and each element of the register files (rules R24 to R38). -/

namespace Sys2Proof.Machine

variable {s t : State}

/-- Settles O41: each operation writes only the registers that its frame lemma names. -/
theorem registerWriters : Obligations.RegisterWriters := by
  intro i s t h
  cases i with
  | go v => rcases execGo_next h with ⟨-, rfl⟩ | ⟨-, rfl⟩ <;> simp
  | idle | haltDone | haltErr | vlInit | pqSize =>
    obtain rfl := Host.Outcome.next.inj h
    simp
  | ftHdr =>
    obtain ⟨_, _, _, _, _, _, _, rfl⟩ := execFtHdr_writes h
    simp
  | ftEnt =>
    obtain ⟨-, -, rfl⟩ := execFtEnt_next h
    simp
  | tbInit =>
    obtain ⟨_, _, _, _, _, _, rfl⟩ := execTbInit_writes h
    simp
  | tbLeaf =>
    obtain ⟨-, -, e, h', -, -, -, -, rfl⟩ := execTbLeaf_next h
    simp
  | tbMerge =>
    obtain ⟨-, a, b, h', -, -, -, rfl⟩ := execTbMerge_next h
    simp
  | tbRoot =>
    obtain ⟨-, r, -, rfl⟩ := execTbRoot_next h
    simp
  | bsHdr =>
    obtain ⟨_, _, _, _, _, _, _, _, _, _, rfl⟩ := execBsHdr_writes h
    simp
  | bsBit =>
    obtain ⟨_, _, _, _, _, _, _, _, rfl⟩ := execBsBit_writes h
    simp
  | bsRun1 =>
    obtain ⟨_, _, _, _, _, _, rfl⟩ := execBsRun1_writes h
    simp
  | vlTally =>
    obtain ⟨_, _, _, rfl⟩ := execVlTally_writes h
    simp
  | vlCmp =>
    obtain ⟨_, _, _, _, _, _, _, rfl⟩ := execVlCmp_writes h
    simp
  | pqPush k =>
    obtain ⟨-, -, -, h', -, rfl⟩ := execPqPush_next h
    simp
  | pqPop =>
    obtain ⟨-, m, h', -, -, rfl⟩ := execPqPop_next h
    simp

/-! ### The error registers -/

/-- The registers that record an error (rules R26, R47). -/
def errorPart (s : State) : BitVec 3 × BitVec 4 × Byte × Word32 × Word32 × Word32 :=
  (s.errCode, s.errSub, s.errSym, s.errDeclared, s.errObserved, s.errCursor)

/-- The operations that raise each error, the table of rule R242. -/
def BlockError.RaisedBy (e : BlockError) (i : Instr) : Prop :=
  match e with
  | .hdrTrunc | .entTrunc | .syms => i = .ftHdr
  | .zeroSyms => i = .tbInit
  | .bodyTrunc | .payloadTrunc | .bitsExceed => i = .bsHdr
  | .deadEnd | .outOfBounds => i = .bsBit
  | .countMismatch _ _ _ => i = .vlCmp
  | .out => i = .bsBit ∨ i = .bsRun1

/-- What an operation does to the record of an error: it leaves it, or raises an error of its own over it. -/
def ErrorFrame (i : Instr) (s t : State) : Prop :=
  errorPart t = errorPart s ∨ ∃ e u, t = raise e u ∧ e.RaisedBy i ∧ errorPart u = errorPart s

theorem execFtHdr_errorFrame (h : execFtHdr s = .next t) : ErrorFrame .ftHdr s t := by
  rcases execFtHdr_next h with ⟨-, rfl⟩ | ⟨-, rfl⟩
  · exact .inr ⟨.hdrTrunc, s, rfl, rfl, rfl⟩
  · rcases ftHdrChecks_cases { s with hdrTotalLen := inWord s 0, hdrReserved := inWord s 4, symCount := inWord s 8 } with
      e | e | ⟨-, -, e⟩ <;> rw [e]
    · exact .inr ⟨.entTrunc, _, rfl, rfl, rfl⟩
    · exact .inr ⟨.syms, _, rfl, rfl, rfl⟩
    · exact .inl rfl

theorem execTbInit_errorFrame (h : execTbInit s = .next t) : ErrorFrame .tbInit s t := by
  rcases execTbInit_next h with ⟨-, rfl⟩ | ⟨-, rfl⟩
  · exact .inr ⟨.zeroSyms, s, rfl, rfl, rfl⟩
  · exact .inl rfl

theorem execBsHdr_errorFrame (h : execBsHdr s = .next t) : ErrorFrame .bsHdr s t := by
  rcases execBsHdr_next h with ⟨-, rfl⟩ | ⟨-, u, rfl, rfl | rfl | ⟨-, -, r, n, -, -, -, rfl⟩⟩
  · exact .inr ⟨.bodyTrunc, s, rfl, rfl, rfl⟩
  · exact .inr ⟨.payloadTrunc, _, rfl, rfl, rfl⟩
  · exact .inr ⟨.bitsExceed, _, rfl, rfl, rfl⟩
  · exact .inl rfl

theorem execBsBit_errorFrame (h : execBsBit s = .next t) : ErrorFrame .bsBit s t := by
  obtain ⟨w, nd, -, -, -, -, hcase⟩ := execBsBit_next h
  rcases hcase with ⟨-, rfl⟩ | ⟨-, -, nxt, -, ⟨-, rfl⟩ | ⟨k, c, -, -, -, hleaf⟩⟩
  · exact .inl rfl
  · exact .inr ⟨.deadEnd, _, rfl, rfl, rfl⟩
  · rcases hleaf with ⟨-, -, rfl⟩ | ⟨-, -, rfl⟩ | ⟨-, -, rfl⟩ | ⟨-, -, rfl⟩
    · exact .inr ⟨.out, _, rfl, .inl rfl, rfl⟩
    · exact .inl rfl
    · exact .inr ⟨.outOfBounds, _, rfl, rfl, rfl⟩
    · exact .inl rfl

theorem execBsRun1_errorFrame (h : execBsRun1 s = .next t) : ErrorFrame .bsRun1 s t := by
  obtain ⟨r, nd, e, -, -, -, -, -, hcase⟩ := execBsRun1_next h
  rcases hcase with ⟨-, rfl⟩ | ⟨-, -, rfl⟩ | ⟨-, -, rfl⟩
  · exact .inl rfl
  · exact .inr ⟨.out, s, rfl, .inr rfl, rfl⟩
  · exact .inl rfl

theorem execVlCmp_errorFrame (h : execVlCmp s = .next t) : ErrorFrame .vlCmp s t := by
  obtain ⟨-, e, v, -, -, ⟨-, rfl⟩ | ⟨-, rfl⟩⟩ := execVlCmp_next h
  · exact .inr ⟨.countMismatch e.sym e.count v, s, rfl, rfl, rfl⟩
  · exact .inl rfl

/-- Any operation but `GO` leaves the record of an error, or raises an error of its own (rules R26, R252). -/
theorem exec_errorFrame {i : Instr} (h : exec i s = .next t) (hgo : ∀ v, i ≠ .go v) : ErrorFrame i s t := by
  cases i with
  | go v => exact absurd rfl (hgo v)
  | ftHdr => exact execFtHdr_errorFrame h
  | tbInit => exact execTbInit_errorFrame h
  | bsHdr => exact execBsHdr_errorFrame h
  | bsBit => exact execBsBit_errorFrame h
  | bsRun1 => exact execBsRun1_errorFrame h
  | vlCmp => exact execVlCmp_errorFrame h
  | idle | haltDone | haltErr | vlInit | pqSize =>
    obtain rfl := Host.Outcome.next.inj h
    exact .inl rfl
  | ftEnt =>
    obtain ⟨-, -, rfl⟩ := execFtEnt_next h
    exact .inl rfl
  | tbLeaf =>
    obtain ⟨-, -, e, h', -, -, -, -, rfl⟩ := execTbLeaf_next h
    exact .inl rfl
  | tbMerge =>
    obtain ⟨-, a, b, h', -, -, -, rfl⟩ := execTbMerge_next h
    exact .inl rfl
  | tbRoot =>
    obtain ⟨-, r, -, rfl⟩ := execTbRoot_next h
    exact .inl rfl
  | vlTally =>
    obtain ⟨_, _, _, rfl⟩ := execVlTally_writes h
    exact .inl rfl
  | pqPush k =>
    obtain ⟨-, -, -, h', -, rfl⟩ := execPqPush_next h
    exact .inl rfl
  | pqPop =>
    obtain ⟨-, m, h', -, -, rfl⟩ := execPqPop_next h
    exact .inl rfl

/-- Settles O42: an operation leaves the record, or raises one of its own errors, which writes the context of its kind only. -/
theorem errorRegisterWriters : Obligations.ErrorRegisterWriters := by
  intro i s t h hgo
  rcases exec_errorFrame h hgo with same | ⟨e, u, rfl, raised, same⟩
  · simp only [errorPart, Prod.mk.injEq] at same
    simp [same]
  · simp only [errorPart, Prod.mk.injEq] at same
    cases e with
    | out => rcases raised with rfl | rfl <;> simp [same]
    | hdrTrunc | entTrunc | zeroSyms | bodyTrunc | payloadTrunc | bitsExceed | deadEnd | outOfBounds | countMismatch _ _ _
      | syms =>
      obtain rfl := raised
      simp [same, BlockError.code]

/-! ### The register files -/

/-- Settles O40: `FT.ENT`, `TB.LEAF`, `TB.MERGE` and `VL.TALLY` write one element each, and a push or pop stays
inside the heap. -/
theorem fileWriters : Obligations.FileWriters := by
  intro i s t h
  cases i with
  | go v => rcases execGo_next h with ⟨-, rfl⟩ | ⟨-, rfl⟩ <;> simp
  | idle | haltDone | haltErr | vlInit | pqSize =>
    obtain rfl := Host.Outcome.next.inj h
    simp
  | ftHdr =>
    obtain ⟨_, _, _, _, _, _, _, rfl⟩ := execFtHdr_writes h
    simp
  | ftEnt =>
    obtain ⟨-, -, rfl⟩ := execFtEnt_next h
    simp +contextual [store_read_write]
  | tbInit =>
    obtain ⟨_, _, _, _, _, _, rfl⟩ := execTbInit_writes h
    simp
  | tbLeaf =>
    obtain ⟨-, hn, e, h', -, -, -, heap, rfl⟩ := execTbLeaf_next h
    simp +contextual [store_read_write, hn, heap]
  | tbMerge =>
    obtain ⟨-, a, b, h', -, -, heap, rfl⟩ := execTbMerge_next h
    have above : ∀ j, s.hsize < j → Store.read h' j = Store.read s.heap j := fun j hj => heap j (by omega)
    simp +contextual [store_read_write, heap, above]
  | tbRoot =>
    obtain ⟨-, r, -, rfl⟩ := execTbRoot_next h
    simp
  | bsHdr =>
    obtain ⟨_, _, _, _, _, _, _, _, _, _, rfl⟩ := execBsHdr_writes h
    simp
  | bsBit =>
    obtain ⟨_, _, _, _, _, _, _, _, rfl⟩ := execBsBit_writes h
    simp
  | bsRun1 =>
    obtain ⟨_, _, _, _, _, _, rfl⟩ := execBsRun1_writes h
    simp
  | vlTally =>
    obtain ⟨-, x, v, hx, -, rfl⟩ := execVlTally_next h
    rcases vlTallyNext_cases (writeObs s x (v + 1)) with ⟨-, e⟩ | ⟨-, e⟩ <;> rw [e] <;>
      simp +contextual [store_read_write, hx, writeObs]
  | vlCmp =>
    obtain ⟨_, _, _, _, _, _, _, rfl⟩ := execVlCmp_writes h
    simp
  | pqPush k =>
    obtain ⟨-, -, -, h', heap, rfl⟩ := execPqPush_next h
    simp +contextual [heap]
  | pqPop =>
    obtain ⟨-, m, h', -, heap, rfl⟩ := execPqPop_next h
    have above : ∀ j, s.hsize < j → Store.read h' j = Store.read s.heap j := fun j hj => heap j (by omega)
    simp +contextual [heap, above]

end Sys2Proof.Machine
end

section
/-! PROOFS. The bytes the block ignores do not change a run (rules R27, R67, R94, R101, U10): two runs over images that agree on
what is used stand at the same point after each operation. -/

namespace Sys2Proof.Machine

variable {s t u v : State}

/-! ### What a run holds of its image -/

/-- What the run holds of the image's header and body header, by phase: `SYM_COUNT` from `FT.HDR` on, and `PACKED_BITS` while
the payload is read. -/
def HoldsHeader (s : State) : Prop :=
  match s.phase with
  | .idle | .ftHdr | .bsRun1 | .vlInit | .vlTally | .vlCmp | .haltDone | .haltErr => True
  | .ftEnt | .tbInit | .tbLeaf | .tbMerge | .tbRoot | .bsHdr => s.symCount = inWord s 8
  | .bsBit => s.symCount = inWord s 8 ∧ s.packedBits = inWord s (entriesEnd s)

theorem holdsHeader_haltErr (h : s.phase = .haltErr) : HoldsHeader s := by
  simp only [HoldsHeader, h]

theorem ftHdrChecks_holdsHeader (h : s.symCount = inWord s 8) : HoldsHeader (ftHdrChecks s) := by
  rcases ftHdrChecks_conditions s with e | ⟨-, e⟩ | ⟨-, -, ⟨-, e⟩ | ⟨-, e⟩⟩ <;> rw [e]
  · exact holdsHeader_haltErr rfl
  · exact holdsHeader_haltErr rfl
  · exact h
  · exact h

theorem afterDecode_holdsHeader (s : State) : HoldsHeader { s with phase := afterDecode s } := by
  by_cases hv : s.validateEn = true
  · rw [show afterDecode s = .vlInit from if_pos hv]
    trivial
  · rw [show afterDecode s = .haltDone from if_neg hv]
    trivial

theorem execBsHdr_holdsHeader (h : s.symCount = inWord s 8) (hu : execBsHdr s = .next u) : HoldsHeader u := by
  rcases execBsHdr_next hu with ⟨-, rfl⟩ | ⟨-, w, rfl, rfl | rfl | ⟨-, -, r, n, -, -, -, rfl⟩⟩
  · exact holdsHeader_haltErr rfl
  · exact holdsHeader_haltErr rfl
  · exact holdsHeader_haltErr rfl
  · by_cases hl : n.leaf = true
    · rw [if_pos hl]
      trivial
    · rw [if_neg hl]
      exact ⟨h, rfl⟩

theorem execBsBit_holdsHeader (h : s.symCount = inWord s 8) (hbits : s.packedBits = inWord s (entriesEnd s))
    (hu : execBsBit s = .next u) : HoldsHeader u := by
  obtain ⟨w, nd, -, -, -, -, hcase⟩ := execBsBit_next hu
  rcases hcase with ⟨-, rfl⟩ | ⟨-, -, nxt, -, ⟨-, rfl⟩ | ⟨k, c, -, -, -, hleaf⟩⟩
  · exact afterDecode_holdsHeader s
  · exact holdsHeader_haltErr rfl
  · rcases hleaf with ⟨-, -, rfl⟩ | ⟨-, -, rfl⟩ | ⟨-, -, rfl⟩ | ⟨-, -, rfl⟩
    · exact holdsHeader_haltErr rfl
    · exact ⟨h, hbits⟩
    · exact holdsHeader_haltErr rfl
    · exact ⟨h, hbits⟩

/-- Every operation of a run keeps what it holds of the image. -/
theorem HoldsHeader.exec (h : HoldsHeader s) (hu : exec (phaseInstr s.phase) s = .next u) : HoldsHeader u := by
  have h0 := h
  cases hp : s.phase <;> simp only [HoldsHeader, hp] at h <;> rw [hp] at hu
  case idle | haltDone | haltErr => exact Host.Outcome.next.inj hu ▸ h0
  case ftHdr =>
    rcases execFtHdr_next hu with ⟨-, rfl⟩ | ⟨-, rfl⟩
    · exact holdsHeader_haltErr rfl
    · exact ftHdrChecks_holdsHeader rfl
  case ftEnt =>
    obtain ⟨-, -, rfl⟩ := execFtEnt_next hu
    rcases ftEntNext_cases { s with ft := _ } with ⟨-, e⟩ | ⟨-, e⟩ <;> rw [e] <;> exact h
  case tbInit =>
    rcases execTbInit_next hu with ⟨-, rfl⟩ | ⟨-, rfl⟩
    · exact holdsHeader_haltErr rfl
    · exact h
  case tbLeaf =>
    obtain ⟨hi, -, e, h', -, -, -, -, rfl⟩ := execTbLeaf_next hu
    rcases tbLeafNext_cases (s := { s with node := _, nnodes := _, heap := h', hsize := _ }) hi with
      ⟨-, e⟩ | ⟨-, -, e⟩ | ⟨-, -, e⟩ <;> rw [e] <;> exact h
  case tbMerge =>
    obtain ⟨-, a, b, h', -, -, -, rfl⟩ := execTbMerge_next hu
    rcases tbMergeNext_cases { s with node := _, nnodes := _, heap := h', hsize := _ } with ⟨-, e⟩ | ⟨-, e⟩ <;>
      rw [e] <;> exact h
  case tbRoot =>
    obtain ⟨-, r, -, rfl⟩ := execTbRoot_next hu
    exact h
  case bsHdr => exact execBsHdr_holdsHeader h hu
  case bsBit =>
    obtain ⟨hn, hbits⟩ := h
    exact execBsBit_holdsHeader hn hbits hu
  case bsRun1 =>
    obtain ⟨r, nd, e, -, -, -, -, -, hcase⟩ := execBsRun1_next hu
    rcases hcase with ⟨-, rfl⟩ | ⟨-, -, rfl⟩ | ⟨-, -, rfl⟩
    · exact afterDecode_holdsHeader s
    · exact holdsHeader_haltErr rfl
    · trivial
  case vlInit =>
    obtain rfl := Host.Outcome.next.inj hu
    by_cases ho : s.outLen = 0
    · rw [if_pos ho]; trivial
    · rw [if_neg ho]; trivial
  case vlTally =>
    obtain ⟨-, x, w, -, -, rfl⟩ := execVlTally_next hu
    rcases vlTallyNext_cases (writeObs s x (w + 1)) with ⟨-, e⟩ | ⟨-, e⟩ <;> rw [e] <;> trivial
  case vlCmp =>
    obtain ⟨-, e, w, -, -, ⟨-, rfl⟩ | ⟨-, rfl⟩⟩ := execVlCmp_next hu
    · exact holdsHeader_haltErr rfl
    · rcases vlCmpNext_cases s with ⟨-, e⟩ | ⟨-, e⟩ <;> rw [e] <;> trivial

/-! ### The same used image -/

theorem SameUsedImage.inWord (h : SameUsedImage s t) {a : Nat} (ha : a + 4 ≤ s.inLen.toNat)
    (hused : ∀ b, a ≤ b → b < a + 4 → UsedByte (inWord s 8).toNat b) : inWord s a = inWord t a := by
  have same : ∀ i, i < 4 → inByte s (a + i) = inByte t (a + i) := fun i hi =>
    h.bytes _ (by omega) (hused _ (by omega) (by omega))
  unfold Machine.inWord
  rw [h.cfg, same 1 (by omega), same 2 (by omega), same 3 (by omega)]
  exact congrArg (assemble _ · _ _ _) (same 0 (by omega))

theorem inWord_of_runPart (h : runPart u = runPart s) : inWord u = inWord s := by
  obtain ⟨bytes, -⟩ := inByte_of_runPart h
  have cfg : u.cfg = s.cfg := congrArg (·.1.1) h
  funext a
  unfold Machine.inWord
  rw [bytes, cfg]

/-- The image rests on what no operation of a run writes. -/
theorem SameUsedImage.of_runPart (h : SameUsedImage s t) (hu : runPart u = runPart s) (hv : runPart v = runPart t) :
    SameUsedImage u v := by
  obtain ⟨bytesU, lenU⟩ := inByte_of_runPart hu
  obtain ⟨bytesV, lenV⟩ := inByte_of_runPart hv
  have cfgU : u.cfg = s.cfg := congrArg (·.1.1) hu
  have cfgV : v.cfg = t.cfg := congrArg (·.1.1) hv
  refine ⟨?_, ?_, ?_, ?_⟩
  · rw [cfgU, cfgV, h.cfg]
  · rw [lenU, lenV, h.inLen]
  · rw [bytesU, bytesV, lenU, inWord_of_runPart hu]
    exact h.bytes
  · rw [bytesU, bytesV, lenU, inWord_of_runPart hu]
    exact h.bits

theorem SameUsedImage.readsAlike (h : SameUsedImage s t) (hi : RunInv s) (hl : HoldsHeader s)
    (hend : s.phase = .bsBit → s.cursor ≠ s.packedBits) : ReadsAlike s t := by
  obtain ⟨-, hph⟩ := hi
  cases hp : s.phase <;> simp only [HoldsHeader, PhaseInv, ReadsAlike, hp] at hl hph ⊢
  case ftHdr => exact fun hlen => h.inWord hlen fun b _ _ => .inl (by omega)
  case ftEnt =>
    obtain ⟨-, -, -, -, hlt⟩ := hph
    rw [hl] at hlt
    unfold entryAddr
    refine ⟨fun hlen => h.inWord hlen fun b _ _ => ?_, fun hlen => h.bytes _ (by omega) ?_⟩
    · exact .inr (.inl (by omega))
    · exact .inr (.inl (by omega))
  case bsHdr =>
    unfold entriesEnd
    rw [hl]
    exact fun hlen => ⟨h.inWord (by omega) fun b _ _ => .inr (.inr (by omega)),
      h.inWord (by omega) fun b _ _ => .inr (.inr (by omega))⟩
  case bsBit =>
    obtain ⟨hn, hbits⟩ := hl
    obtain ⟨-, -, -, hpay, -, -, -, hc, -⟩ := hph
    have hlt := toNat_lt_of_ne hc (hend hp)
    have base := hpay.base
    unfold entriesEnd at base hbits
    rw [hn] at base hbits
    rw [hbits] at hlt
    have addr : payloadAddr s = 24 + 8 * (Machine.inWord s 8).toNat + s.cursor.toNat / 8 := by
      unfold payloadAddr
      omega
    rw [addr]
    exact h.bits _ hlt

/-! ### Runs -/

/-- A relation that each step of two blocks left to themselves keeps, is kept along their runs. -/
theorem stepN_follows {R : State → State → Prop} {k : Nat}
    (each : ∀ {s t u : State}, R s t → Alone s → Alone t → step s = .next u → ∃ v, step t = .next v ∧ R u v)
    (h : R s t) (hs : Alone s) (ht : Alone t) (hu : stepN k s = some u) : ∃ v, stepN k t = some v ∧ R u v := by
  induction k generalizing s t with
  | zero => exact ⟨t, rfl, Option.some.inj hu ▸ h⟩
  | succ k ih =>
    obtain ⟨s', hs', hu⟩ := stepN_succ_some.1 hu
    obtain ⟨t', ht', h'⟩ := each h hs ht hs'
    obtain ⟨v, hv, huv⟩ := ih h' (hs.step hs').2 (ht.step ht').2 hu
    exact ⟨v, stepN_succ_some.2 ⟨t', ht', hv⟩, huv⟩

/-- At the end of the payload `BS.BIT` reads no bit. -/
theorem execBsBit_alike_at_end (h : SameRun s t) (hp : s.phase = .bsBit) (hend : s.cursor = s.packedBits) :
    Alike (execBsBit s) (execBsBit t) := by
  obtain ⟨htab, hnodes, hroot, hwalk, hc, hb⟩ := h.live_at hp
  have regs := h.regs
  refine Sim.finish (Sim.bind_eq (hnodes.readNodeRef hwalk) fun w _ => ?_)
  refine Sim.ite Iff.rfl (fun _ => Sim.error) fun _ => ?_
  exact Sim.ite (by rw [hc, regs.packedBits]) (fun _ => Sim.ok (afterDecode_alike regs htab)) fun hne => absurd hend hne

/-- Two runs at the same point, over images that agree on what is used. -/
structure Kin (s t : State) : Prop where
  run : SameRun s t
  image : SameUsedImage s t
  inv : RunInv s
  header : HoldsHeader s

theorem Kin.exec_alike (h : Kin s t) : Alike (exec (phaseInstr s.phase) s) (exec (phaseInstr t.phase) t) := by
  by_cases hend : s.phase = .bsBit ∧ s.cursor = s.packedBits
  · obtain ⟨hp, hc⟩ := hend
    rw [← h.run.phase, hp]
    exact execBsBit_alike_at_end h.run hp hc
  · exact Machine.exec_alike h.run (h.image.readsAlike h.inv h.header fun hp hc => hend ⟨hp, hc⟩)

theorem Kin.step (h : Kin s t) (hs : Alone s) (ht : Alone t) (hu : step s = .next u) :
    ∃ v, Machine.step t = .next v ∧ Kin u v := by
  rw [step_of_alone hs] at hu
  obtain ⟨v, hv, huv⟩ := h.exec_alike u hu
  exact ⟨v, (step_of_alone ht).trans hv, huv,
    h.image.of_runPart (exec_phaseInstr_runPart hu) (exec_phaseInstr_runPart hv), h.inv.exec hu, h.header.exec hu⟩

/-- Settles O56: the run over one image ends, and the run over the other follows it step by step. -/
theorem ignoredBytesDoNotMatter : Obligations.IgnoredBytesDoNotMatter := by
  intro s t validate hs ht _ _ himage
  have aloneS : Alone (startRun validate s) := hs
  have aloneT : Alone (startRun validate t) := ht
  have inv := runInv_startRun validate s
  obtain ⟨k, s', hk, hend, -⟩ := inv.ends aloneS (.inl rfl)
  have kin : Kin (startRun validate s) (startRun validate t) :=
    ⟨sameRun_startRun validate himage.cfg himage.inLen, himage, inv, trivial⟩
  obtain ⟨t', hk', hkin⟩ := stepN_follows Kin.step kin aloneS aloneT hk
  refine ⟨k, s', t', hk, hk', hend, ?_, hkin.run.resultOf⟩
  rw [Ended, ← hkin.run.phase]
  exact hend

end Sys2Proof.Machine
end

section
/-! PROOFS. The codes of the built tree (rules R45, R97, R107, R165): every node but the root has one parent and stands on one
side of it, a child is older than its parent, and a leaf has no child. -/

namespace Sys2Proof.Machine

variable {s : State} {k p : Nat} {b : Bool}

/-! ### Edges and paths -/

/-- Bit `b` leads from internal node `p` to node `k`. -/
def Edge (s : State) (p : Nat) (b : Bool) (k : Nat) : Prop :=
  ∃ nd, Store.read s.node p = some nd ∧ nd.leaf = false ∧ (if b then nd.right else nd.left) = some k

theorem followPath_cons {bits : List Bool} {m : Nat} :
    followPath s k (b :: bits) = some m ↔ ∃ c, Edge s k b c ∧ followPath s c bits = some m := by
  rw [followPath]
  unfold Edge
  cases hr : Store.read s.node k with
  | none => simp
  | some nd =>
    cases hl : nd.leaf with
    | true => simp [hl]
    | false => cases hc : (if b then nd.right else nd.left) <;> simp [hl, hc]

theorem followPath_append {bits more : List Bool} {m : Nat} :
    followPath s k (bits ++ more) = some m ↔ ∃ c, followPath s k bits = some c ∧ followPath s c more = some m := by
  induction bits generalizing k with
  | nil => simp [followPath]
  | cons b bits ih =>
    simp only [List.cons_append, followPath_cons, ih]
    constructor
    · rintro ⟨c, he, d, hd, hm⟩
      exact ⟨d, ⟨c, he, hd⟩, hm⟩
    · rintro ⟨d, ⟨c, he, hd⟩, hm⟩
      exact ⟨c, he, d, hd, hm⟩

theorem followPath_concat {bits : List Bool} {m : Nat} :
    followPath s k (bits ++ [b]) = some m ↔ ∃ c, followPath s k bits = some c ∧ Edge s c b m := by
  simp only [followPath_append, followPath_cons]
  simp [followPath]

/-! ### Parents -/

/-- The children of a node, as `childNodes` lists them. -/
def childrenOf (s : State) (p : Nat) : List Nat :=
  match Store.read s.node p with
  | some n => n.left.toList ++ n.right.toList
  | none => []

theorem childNodes_eq_flatMap (s : State) : childNodes s = (List.range s.nnodes).flatMap (childrenOf s) := rfl

/-- A leaf has no child; an internal node has two older ones, the left on bit 0 and the right on bit 1. -/
theorem TreeBuilt.children (h : TreeBuilt s) (hp : p < s.nnodes) :
    (p < s.symCount.toNat ∧ childrenOf s p = [] ∧ ∀ b k, ¬Edge s p b k) ∨
    (s.symCount.toNat ≤ p ∧ ∃ x y, x < p ∧ y < p ∧ childrenOf s p = [x, y] ∧
      ∀ b k, Edge s p b k ↔ (if b then y else x) = k) := by
  rcases h.arena.read_node hp with ⟨hlt, e, -, hn⟩ | ⟨hle, x, y, hx, hy, hn⟩
  · exact .inl ⟨hlt, by simp [childrenOf, hn, leafOf], fun b k => by simp [Edge, hn, leafOf]⟩
  · refine .inr ⟨hle, x, y, hx, hy, by simp [childrenOf, hn, joinOf], fun b k => ?_⟩
    cases b <;> simp [Edge, hn, joinOf]

/-- An edge leads from an internal node to an older one. -/
theorem TreeBuilt.edge_lt (h : TreeBuilt s) (hp : p < s.nnodes) (he : Edge s p b k) : s.symCount.toNat ≤ p ∧ k < p := by
  rcases h.children hp with ⟨-, -, hno⟩ | ⟨hle, x, y, hx, hy, -, hedge⟩
  · exact absurd he (hno b k)
  · obtain rfl := (hedge b k).1 he
    exact ⟨hle, by split <;> assumption⟩

theorem TreeBuilt.mem_childrenOf (h : TreeBuilt s) (hp : p < s.nnodes) : k ∈ childrenOf s p ↔ ∃ b, Edge s p b k := by
  rcases h.children hp with ⟨-, hnil, hno⟩ | ⟨-, x, y, -, -, hlist, hedge⟩
  · simp [hnil, hno]
  · simp [hlist, hedge, eq_comm]

theorem TreeBuilt.mem_childNodes (h : TreeBuilt s) : k ∈ childNodes s ↔ ∃ p, p < s.nnodes ∧ ∃ b, Edge s p b k := by
  rw [childNodes_eq_flatMap, List.mem_flatMap]
  refine exists_congr fun p => ?_
  rw [List.mem_range]
  exact and_congr_right fun hp => h.mem_childrenOf hp

/-- The root and the children of the internal nodes are all nodes, each once. -/
theorem TreeBuilt.nodup (h : TreeBuilt s) : ((s.nnodes - 1) :: childNodes s).Nodup :=
  h.arena.forest.nodup_iff.2 List.nodup_range

theorem TreeBuilt.root_no_child (h : TreeBuilt s) (hp : p < s.nnodes) : ¬Edge s p b (s.nnodes - 1) := fun he =>
  (List.nodup_cons.1 h.nodup).1 (h.mem_childNodes.2 ⟨p, hp, b, he⟩)

/-- A node that is not the root has a parent. -/
theorem TreeBuilt.exists_parent (h : TreeBuilt s) (hk : k < s.nnodes) (hne : k ≠ s.nnodes - 1) :
    ∃ p, p < s.nnodes ∧ ∃ b, Edge s p b k := by
  have listed : k ∈ (s.nnodes - 1) :: childNodes s := h.arena.forest.mem_iff.2 (List.mem_range.2 hk)
  exact h.mem_childNodes.1 ((List.mem_cons.1 listed).resolve_left hne)

/-- A node has no second parent, and stands on one side of it. -/
theorem TreeBuilt.parent_unique {p' : Nat} {b' : Bool} (h : TreeBuilt s) (hp : p < s.nnodes) (hp' : p' < s.nnodes)
    (he : Edge s p b k) (he' : Edge s p' b' k) : p = p' ∧ b = b' := by
  have nodup := (List.nodup_cons.1 h.nodup).2
  rw [childNodes_eq_flatMap, List.nodup_flatMap] at nodup
  obtain ⟨sides, parents⟩ := nodup
  have same : p = p' := by
    by_contra hne
    have symm : Std.Symm (Function.onFun List.Disjoint (childrenOf s)) := ⟨fun _ _ hd => hd.symm⟩
    have apart := parents.forall (List.mem_range.2 hp) (List.mem_range.2 hp') hne
    exact apart ((h.mem_childrenOf hp).2 ⟨b, he⟩) ((h.mem_childrenOf hp').2 ⟨b', he'⟩)
  subst same
  refine ⟨rfl, ?_⟩
  have twice := sides p (List.mem_range.2 hp)
  rcases h.children hp with ⟨-, -, hno⟩ | ⟨-, x, y, -, -, hlist, hedge⟩
  · exact absurd he (hno b k)
  · rw [hlist] at twice
    rw [hedge] at he he'
    cases b <;> cases b' <;> simp_all

/-! ### Paths from the root -/

/-- A path leads to no newer node. -/
theorem TreeBuilt.followPath_le (h : TreeBuilt s) {bits : List Bool} {m : Nat} (hm : m < s.nnodes)
    (hf : followPath s m bits = some k) : k ≤ m := by
  induction bits generalizing m with
  | nil => exact (Option.some.inj hf).ge
  | cons b bits ih =>
    obtain ⟨c, he, hc⟩ := followPath_cons.1 hf
    obtain ⟨-, hlt⟩ := h.edge_lt hm he
    have := ih (hlt.trans hm) hc
    omega

/-- A path leaves an internal node at each bit, and no node twice. -/
theorem TreeBuilt.length_le (h : TreeBuilt s) {bits : List Bool} {m : Nat} (hm : m < s.nnodes)
    (hf : followPath s m bits = some k) : bits.length ≤ m + 1 - s.symCount.toNat := by
  induction bits generalizing m with
  | nil => exact Nat.zero_le _
  | cons b bits ih =>
    obtain ⟨c, he, hc⟩ := followPath_cons.1 hf
    obtain ⟨hle, hlt⟩ := h.edge_lt hm he
    have := ih (hlt.trans hm) hc
    rw [List.length_cons]
    omega

/-- Every node is reached from the root by exactly one path: its parent's, and the side it stands on. -/
theorem TreeBuilt.path_unique (h : TreeBuilt s) (hk : k < s.nnodes) :
    ∃ p, followPath s (s.nnodes - 1) p = some k ∧ ∀ q, followPath s (s.nnodes - 1) q = some k → q = p := by
  have hroot : s.nnodes - 1 < s.nnodes := by have := h.nnodes_pos; omega
  induction hd : s.nnodes - k using Nat.strong_induction_on generalizing k with
  | h d ih =>
    by_cases hkr : k = s.nnodes - 1
    · refine ⟨[], by rw [hkr]; rfl, fun q hq => ?_⟩
      rcases q.eq_nil_or_concat with rfl | ⟨q, b, rfl⟩
      · rfl
      · rw [List.concat_eq_append] at hq
        obtain ⟨c, hc, he⟩ := followPath_concat.1 hq
        have := h.followPath_le hroot hc
        exact absurd (hkr ▸ he) (h.root_no_child (by omega))
    · obtain ⟨m, hm, b, he⟩ := h.exists_parent hk hkr
      obtain ⟨-, hlt⟩ := h.edge_lt hm he
      obtain ⟨p, hp, unique⟩ := ih _ (by omega) hm rfl
      refine ⟨p ++ [b], followPath_concat.2 ⟨m, hp, he⟩, fun q hq => ?_⟩
      rcases q.eq_nil_or_concat with rfl | ⟨q, b', rfl⟩
      · exact absurd (Option.some.inj hq).symm hkr
      · rw [List.concat_eq_append] at hq ⊢
        obtain ⟨c, hc, he'⟩ := followPath_concat.1 hq
        have := h.followPath_le hroot hc
        obtain ⟨rfl, rfl⟩ := h.parent_unique (by omega) hm he' he
        rw [unique q hc]

/-- No path continues past a leaf. -/
theorem TreeBuilt.leaf_ends (h : TreeBuilt s) (hk : k < s.symCount.toNat) {bits : List Bool} (hf : followPath s k bits ≠ none) :
    bits = [] := by
  cases bits with
  | nil => rfl
  | cons b bits =>
    obtain ⟨m, hm⟩ := Option.ne_none_iff_exists'.1 hf
    obtain ⟨c, he, -⟩ := followPath_cons.1 hm
    have size := h.size
    have := (h.edge_lt (by omega) he).1
    omega

/-- Settles O52: the path to a node is its parent's and one bit; each bit leaves an internal node for an older one. -/
theorem treeIsPrefixCode : Obligations.TreeIsPrefixCode := by
  intro s r h hr
  obtain rfl : s.nnodes - 1 = r := Option.some.inj (h.rootIs.symm.trans hr)
  have size := h.size
  refine ⟨fun k hk => h.path_unique hk, fun p q k hk hp hpq => ?_, fun p k h2 hk hp => ⟨?_, ?_⟩⟩
  · obtain ⟨m, hm⟩ := Option.ne_none_iff_exists'.1 hpq
    obtain ⟨c, hc, hq⟩ := followPath_append.1 hm
    obtain rfl : k = c := Option.some.inj (hp.symm.trans hc)
    exact h.leaf_ends hk (by simp [hq])
  · cases p with
    | nil =>
      have : s.nnodes - 1 = k := Option.some.inj hp
      omega
    | cons b bits => simp
  · have := h.length_le (by omega) hp
    omega

end Sys2Proof.Machine
end

section
/-! PROOFS. The host's view of the block: reset, `STATUS`, reads and writes, and where a word is placed (rules R21 to R28, R39 to
R46, R98 to R100, R223, R281, R289, R290). -/

namespace Sys2Proof.Machine

variable {s t : State}

/-! ### Reads of registers (rules R23, R223, R290) -/

theorem busy_eq_true : busy s = true ↔ runState s.phase = .busy := by
  simp [busy]

theorem busy_eq_false : busy s = false ↔ runState s.phase ≠ .busy := by
  simp [busy]

/-- When the block is not BUSY a read of a register returns its value. -/
theorem hostReadReg_of_rest (hb : busy s = false) (n : Nat) : hostReadReg s n = regValue s n := by
  simp [hostReadReg, hb]

/-- While BUSY a read of `STATUS` returns the two exact fields and free values in the others. -/
theorem hostReadReg_status_of_busy (hb : busy s = true) : hostReadReg s 1 = (busyStatus s).setWidth 64 := by
  simp [hostReadReg, hb]

/-- A read of `CTRL` returns 0 in any state. -/
theorem hostReadReg_ctrl (s : State) : hostReadReg s 0 = 0 := by
  unfold hostReadReg
  split <;> rfl

/-- A read of an absent register returns 0 in any state. -/
theorem hostReadReg_absent {n : Nat} (h : 14 ≤ n) : hostReadReg s n = 0 := by
  obtain ⟨m, rfl⟩ := Nat.exists_eq_add_of_le' h
  have noWidth : freeValue s (regWidth (m + 14)) = 0 := by
    show ((Config.freeRead s.reads).setWidth 0).setWidth 64 = 0
    rw [BitVec.eq_nil ((Config.freeRead s.reads).setWidth 0)]
    rfl
  unfold hostReadReg
  split
  · rw [if_neg (by omega), if_neg (by omega), noWidth]
  · rfl

/-- A host read of a register records what it returns and changes nothing else. -/
theorem hostAct_readReg {n : Nat} {v : Word64} (hv : hostReadReg s n = v) :
    hostAct (.readReg n) s = .next (hostReturns s v) := by
  subst hv
  rfl

/-! ### Reset (rules R44, R281) -/

theorem readFt_of_nil (h : s.ft = []) (i : Nat) : readFt s i = .error (.unwrittenRead .ft i) := by
  simp [readFt, h]

theorem readNode_of_nil (h : s.node = []) (k : Nat) : readNode s k = .error (.unwrittenRead .node k) := by
  simp [readNode, h]

theorem readOut_of_nil (h : s.outBuf = []) (a : Nat) : readOut s a = .error (.unwrittenRead .out a) := by
  simp [readOut, h]

theorem inByte_of_nil (h : s.inBuf = []) (a : Nat) : inByte s a = Config.freeInByte s.epoch a := by
  simp [inByte, h]

/-- Settles O7: the registers by the reset table; nothing is listed in a file or buffer, so nothing is read from one. -/
theorem resetValues : Obligations.ResetValues := by
  refine ⟨rfl, ?_⟩
  rintro c _ rfl
  exact ⟨rfl, rfl, rfl, rfl, rfl, rfl, rfl, rfl, rfl, rfl, rfl, rfl, rfl, rfl, rfl, rfl, rfl, rfl, rfl, rfl, rfl, rfl, rfl, rfl,
    readFt_of_nil rfl, readNode_of_nil rfl, fun _ => rfl, fun _ => rfl, readOut_of_nil rfl, inByte_of_nil rfl, rfl⟩

/-- Settles O8: the reset event is the reset state but for the parameters and the host's record. -/
theorem resetEventEffect : Obligations.ResetEventEffect := by
  intro s
  have status : statusWord (resetEvent s) = 0 := by
    show statusOf false 0 0 0 .idle = 0
    decide
  have read : regValue (resetEvent s) 1 = 0 := by simp [regValue, status]
  exact ⟨resetEvent s, rfl, rfl, status, (hostReadReg_of_rest rfl 1).trans read, rfl⟩

/-! ### `STATUS` (rule R23) -/

/-- The fields of a `STATUS` word. -/
theorem statusOf_fields {v : Bool} {sub : BitVec 4} {code : BitVec 3} {phase : BitVec 4} {st : RunState} {w : Word32}
    (h : w = statusOf v sub code phase st) :
    w.extractLsb' 0 2 = runStateCode st ∧ w.extractLsb' 2 2 = 0#2 ∧ w.extractLsb' 4 4 = phase ∧ w.extractLsb' 8 3 = code ∧
      w.extractLsb' 11 4 = sub ∧ w.extractLsb' 15 1 = BitVec.ofBool v ∧ w.extractLsb' 16 16 = 0#16 := by
  subst h
  unfold statusOf
  simp (disch := decide) only [BitVec.extractLsb'_append_eq_of_le, BitVec.extractLsb'_append_eq_of_add_le,
    BitVec.extractLsb'_eq_self, Nat.reduceSub, and_self]

theorem phaseOfCode_phaseCode (p : Phase) : phaseOfCode (phaseCode p) = some p := by
  cases p <;> rfl

/-- Settles O13: the word is put together from its fields, and each phase has its code and its view. -/
theorem statusFields : Obligations.StatusFields := by
  intro s
  obtain ⟨state, low, phase, code, sub, validate, high⟩ := statusOf_fields (w := statusWord s) rfl
  refine ⟨state.trans ?_, low, phase.trans ?_, phase, phaseOfCode_phaseCode _, code, sub, validate, high⟩
  · cases s.phase <;> rfl
  · cases s.phase <;> rfl

/-! ### Accesses (rules R223, R289) -/

/-- Settles O14: the register map row by row, and the byte that the buffer lists. -/
theorem hostReadsAtRest : Obligations.HostReadsAtRest := by
  intro s hrest
  have hb := busy_eq_false.2 hrest
  refine ⟨fun n v h => hostAct_readReg ?_, fun a b ha hr => ?_, fun a b ha hr => ?_⟩
  · rcases h with ⟨rfl, rfl⟩ | ⟨rfl, rfl⟩ | ⟨rfl, rfl⟩ | ⟨rfl, rfl⟩ | ⟨rfl, rfl⟩ | ⟨rfl, rfl⟩ | ⟨rfl, rfl⟩ | ⟨rfl, rfl⟩ |
      ⟨rfl, rfl⟩ | ⟨rfl, rfl⟩ | ⟨rfl, rfl⟩ | ⟨rfl, rfl⟩ | ⟨rfl, rfl⟩ | ⟨rfl, rfl⟩ | ⟨hn, rfl⟩
    case inr.inr.inr.inr.inr.inr.inr.inr.inr.inr.inr.inr.inr.inr => exact hostReadReg_absent hn
    all_goals exact hostReadReg_of_rest hb _
  · simp [hostAct, hostReadOut, hb, ha, hr, hostReturns]
  · simp [hostAct, hostReadIn, hb, ha, hr, hostReturns]

/-- The bits above a zero-extended word's high half read 0 when the half does. -/
theorem extract_high_setWidth {w : Word32} (h : w.extractLsb' 16 16 = 0#16) : (w.setWidth 64).extractLsb' 16 48 = 0#48 := by
  have half := congrArg BitVec.toNat h
  refine BitVec.eq_of_toNat_eq ?_
  simp only [BitVec.extractLsb'_toNat, BitVec.toNat_setWidth, BitVec.toNat_ofNat, Nat.shiftRight_eq_div_pow] at half ⊢
  have := w.isLt
  omega

/-- Settles O15: while BUSY the word read has the exact fields and free values in the others. -/
theorem statusReadWhileBusy : Obligations.StatusReadWhileBusy := by
  intro s hbusy
  obtain ⟨state, low, -, -, -, validate, high⟩ := statusOf_fields (w := busyStatus s) rfl
  refine ⟨⟨(busyStatus s).setWidth 64, ?_, ?_, ?_, ?_, extract_high_setWidth high⟩, ?_, fun n hn => ?_⟩
  · exact hostAct_readReg (hostReadReg_status_of_busy (busy_eq_true.2 hbusy))
  · rw [BitVec.extractLsb'_setWidth_of_le (by decide), state, hbusy]
    rfl
  · rw [BitVec.extractLsb'_setWidth_of_le (by decide), low]
  · rw [BitVec.extractLsb'_setWidth_of_le (by decide), validate]
  · exact hostAct_readReg (hostReadReg_ctrl s)
  · exact hostAct_readReg (hostReadReg_absent hn)

/-- Settles O16: one clause for each write, by whether the block is BUSY. -/
theorem hostWrites : Obligations.HostWrites := by
  intro s
  refine ⟨fun n v h0 h2 => ?_, fun hrest => ?_, fun hbusy => ?_⟩
  · simp [hostAct, hostWriteReg, h0, h2]
  · have hb := busy_eq_false.2 hrest
    refine ⟨fun v => ?_, fun a b ha => ⟨Store.write s.inBuf a b, ?_, fun c => store_read_write _ _ _ _⟩, fun a b ha => ?_⟩
    · simp [hostAct, hostWriteReg, hb]
    · simp [hostAct, hostWriteIn, hb, ha]
    · simp [hostAct, hostWriteIn, hb, not_lt.2 ha]
  · have hb := busy_eq_true.2 hbusy
    exact ⟨fun v => by simp [hostAct, hostWriteReg, hb], fun a b => by simp [hostAct, hostWriteIn, hb]⟩

/-! ### Placed words (rules R28, R98 to R100) -/

theorem decodeTableWord_eq_some {nbits w : Nat} {i : Instr} (h : decodeTableWord nbits w = some i) :
    decode (tableCode nbits w) = .ok i := by
  unfold decodeTableWord at h
  split at h
  · next hd => rw [hd, Option.some.inj h]
  · cases h

/-- A move of the block, placed before the host's waiting accesses, is the next step. -/
theorem step_blockNext (u : State) : step { u with inputs := blockNext u } = blockStep u := by
  have same : ∀ {l}, u.inputs = l → { u with inputs := l } = u := fun h => by rw [← h]
  cases hin : u.inputs with
  | nil =>
    rw [blockNext, if_pos (by simp [hin]), same hin]
    exact step_no_inputs hin
  | cons i rest =>
    rw [blockNext, if_neg (by simp [hin])]
    exact step_block_input rfl

/-- A `PHASE` code that decodes is the code of a phase (rule R99). -/
theorem phaseOfCode_of_decode {c : BitVec 4} {i : Instr} (h : decode (.seq c) = .ok i) :
    ∃ p, phaseOfCode c = some p ∧ phaseCode p = c ∧ phaseInstr p = i := by
  have reserved : ∀ c : BitVec 4, phaseOfCode c = none → c = 15#4 := by decide
  have named : ∀ c : BitVec 4, ∀ p ∈ phaseOfCode c, phaseCode p = c := by decide
  cases hc : phaseOfCode c with
  | none =>
    rw [reserved c hc] at h
    cases h
  | some p =>
    obtain rfl := named c p hc
    exact ⟨p, rfl, rfl, Except.ok.inj ((decode_phaseCode p).symm.trans h)⟩

/-- A request code that decodes is a request, with its node (rule R100). -/
theorem requestOfCode_of_decode {q : BitVec 2} {k : Nat} {i : Instr} (h : decode (.pq q k) = .ok i) :
    ∃ r, requestOfCode q k = some r ∧ decode (requestCode r) = .ok i := by
  have codes : ∀ q : BitVec 2, q = 0#2 ∨ q = 1#2 ∨ q = 2#2 ∨ q = 3#2 := by decide
  rcases codes q with rfl | rfl | rfl | rfl
  · exact ⟨.size, rfl, h⟩
  · exact ⟨.push k, rfl, h⟩
  · exact ⟨.pop, rfl, h⟩
  · cases h

/-- Settles O6: a decoded code has a place, and the step takes it from there. -/
theorem placedWordRuns : Obligations.PlacedWordRuns := by
  intro s nbits w i h
  have hd := decodeTableWord_eq_some h
  unfold State.withFetchWord
  refine ⟨fun c hc => ?_, fun c hc => ?_, fun q k hc => ?_⟩ <;> rw [hc] at hd ⊢
  · have narrow : (c.setWidth 64).setWidth 32 = c := by simp
    exact (step_host_input rfl).trans (hostAct_writeCtrl (by rw [narrow]; exact hd))
  · obtain ⟨p, hp, hcode, rfl⟩ := phaseOfCode_of_decode hd
    refine ⟨p, hcode, ?_⟩
    simp only [placeCode, hp]
    exact (step_blockNext { s with phase := p, pqPort := none }).trans (blockStep_of_no_request rfl)
  · obtain ⟨r, hr, hd⟩ := requestOfCode_of_decode hd
    simp only [placeCode, hr]
    exact (step_blockNext { s with pqPort := some r }).trans (blockStep_of_fetch rfl hd)

end Sys2Proof.Machine
end

section
/-! PROOFS. The frame of memory: which operations store a byte, and where (rules R64 to R66). -/

namespace Sys2Proof.Machine

variable {i : Instr} {s t : State}

/-- No operation stores to `IN`: all its accesses to it are reads (rule R64). -/
theorem exec_inBuf (h : exec i s = .next t) : t.inBuf = s.inBuf := by
  have given := exec_givenPart h
  simp only [givenPart, Prod.mk.injEq] at given
  obtain ⟨-, -, inBuf, -⟩ := given
  exact inBuf

/-- A byte of `IN` reads the same after any operation but `GO`, which renews the unplaced ones. -/
theorem exec_inByte (h : exec i s = .next t) (hgo : ∀ v, i ≠ .go v) : inByte t = inByte s := by
  obtain ⟨onlyGo, -⟩ := registerWriters i s t h
  obtain ⟨-, epoch⟩ := onlyGo hgo
  exact inByte_congr (exec_cfg h) (exec_inBuf h) epoch

/-- An operation other than `BS.BIT` and `BS.RUN1` stores nothing to `OUT`. -/
theorem exec_outBuf (h : exec i s = .next t) (hbit : i ≠ .bsBit) (hrun : i ≠ .bsRun1) : t.outBuf = s.outBuf := by
  cases i with
  | bsBit => exact absurd rfl hbit
  | bsRun1 => exact absurd rfl hrun
  | go v => rcases execGo_next h with ⟨-, rfl⟩ | ⟨-, rfl⟩ <;> rfl
  | idle | haltDone | haltErr | vlInit | pqSize =>
    obtain rfl := Host.Outcome.next.inj h
    rfl
  | ftHdr =>
    obtain ⟨_, _, _, _, _, _, _, rfl⟩ := execFtHdr_writes h
    rfl
  | ftEnt =>
    obtain ⟨-, -, rfl⟩ := execFtEnt_next h
    rfl
  | tbInit =>
    obtain ⟨_, _, _, _, _, _, rfl⟩ := execTbInit_writes h
    rfl
  | tbLeaf =>
    obtain ⟨-, -, e, h', -, -, -, -, rfl⟩ := execTbLeaf_next h
    rfl
  | tbMerge =>
    obtain ⟨-, a, b, h', -, -, -, rfl⟩ := execTbMerge_next h
    rfl
  | tbRoot =>
    obtain ⟨-, r, -, rfl⟩ := execTbRoot_next h
    rfl
  | bsHdr =>
    obtain ⟨_, _, _, _, _, _, _, _, _, _, rfl⟩ := execBsHdr_writes h
    rfl
  | vlTally =>
    obtain ⟨_, _, _, rfl⟩ := execVlTally_writes h
    rfl
  | vlCmp =>
    obtain ⟨_, _, _, _, _, _, _, rfl⟩ := execVlCmp_writes h
    rfl
  | pqPush k =>
    obtain ⟨-, -, -, h', -, rfl⟩ := execPqPush_next h
    rfl
  | pqPop =>
    obtain ⟨-, m, h', -, -, rfl⟩ := execPqPop_next h
    rfl

/-- Nothing stored, or one byte at index `n`, leaves every other byte. -/
theorem read_of_stored_at {m m' : Memory} {n a : Nat} {room : Prop} (h : m' = m ∨ (room ∧ ∃ x, m' = Store.write m n x))
    (ha : a ≠ n) : Store.read m' a = Store.read m a := by
  rcases h with rfl | ⟨-, x, rfl⟩
  · rfl
  · exact store_read_write_other m x ha

/-- Settles O39: `IN` is what no operation writes, and only the two decoding operations store to `OUT`, at `OUT_LEN`. -/
theorem bytesStored : Obligations.BytesStored := by
  intro i s t h
  refine ⟨fun a => ?_, fun hgo a => ?_, fun hbit hrun a => ?_, fun hi a ha => ?_⟩
  · rw [exec_inBuf h]
  · rw [exec_inByte h hgo]
  · rw [exec_outBuf h hbit hrun]
  · rcases hi with rfl | rfl
    · exact read_of_stored_at (execBsBit_outBuf h) ha
    · exact read_of_stored_at (execBsRun1_outBuf h) ha

end Sys2Proof.Machine
end

section
/-! PROOFS. The encodings (rules R96, R98 to R102): words written to `CTRL`, the codes of `PHASE` and of the Priority Queue, and
the bits of the payload; and `PQ.SIZE` (rule R122). -/

namespace Sys2Proof.Machine

variable {i : Instr} {s : State}

/-! ### Bits of a word -/

/-- A word masked to bit `n` is that bit's mask when the bit is 1. -/
theorem and_twoPow_eq_twoPow {m : Nat} (n : Nat) (hn : n < m) (x : BitVec m) :
    x &&& BitVec.twoPow m n = BitVec.twoPow m n ↔ x.getLsbD n = true := by
  rw [BitVec.and_twoPow]
  cases hx : x.getLsbD n with
  | true => simp
  | false =>
    have hbit : (0#m).getLsbD n ≠ (BitVec.twoPow m n).getLsbD n := by simp [hn]
    simpa using fun h => hbit (congrArg (·.getLsbD n) h)

/-- The two bits of a `CTRL` word that are not ignored (rule R98). -/
theorem and_three (w : Word32) :
    w &&& 3#32 = (if w.getLsbD 1 then 2#32 else 0#32) ||| (if w.getLsbD 0 then 1#32 else 0#32) := by
  rw [show 3#32 = BitVec.twoPow 32 1 ||| BitVec.twoPow 32 0 by decide, BitVec.and_or_distrib_left, BitVec.and_twoPow,
    BitVec.and_twoPow]
  rfl

/-! ### `CTRL` words (rule R98) -/

theorem decode_cmd_go {w : Word32} (h : w.getLsbD 0 = true) : decode (.cmd w) = .ok (.go (w.getLsbD 1)) := if_pos h

theorem decode_cmd_none {w : Word32} (h : w.getLsbD 0 = false) : decode (.cmd w) = .error .noCommand :=
  if_neg (h ▸ Bool.false_ne_true)

theorem decode_cmd_ok_iff {w : Word32} : decode (.cmd w) = .ok i ↔ w.getLsbD 0 = true ∧ i = .go (w.getLsbD 1) := by
  cases h : w.getLsbD 0 with
  | true => simp [decode_cmd_go h, eq_comm]
  | false => simp [decode_cmd_none h]

/-- Settles O1: the decoder looks at bit 0, and then at bit 1. -/
theorem commandWordsDecode : Obligations.CommandWordsDecode := by
  intro w
  have bit0 : w &&& 1#32 = 1#32 ↔ w.getLsbD 0 = true := and_twoPow_eq_twoPow 0 (by decide) w
  have bit1 : w &&& 2#32 = 2#32 ↔ w.getLsbD 1 = true := and_twoPow_eq_twoPow 1 (by decide) w
  refine ⟨fun h => ?_, fun h => ?_⟩
  · rw [decode_cmd_go (bit0.1 h)]
    simp [bit1]
  · refine decode_cmd_none (Bool.eq_false_iff.2 fun hb => ?_)
    exact absurd (h.symm.trans (bit0.2 hb)) (by decide)

/-! ### Codes of `PHASE` and of the Priority Queue (rules R99, R100, R102) -/

/-- Settles O2: each code is the code of its phase or request; the reserved codes are neither. -/
theorem operationCodesDecode : Obligations.OperationCodesDecode :=
  ⟨decode_phaseCode .idle, decode_phaseCode .ftHdr, decode_phaseCode .ftEnt, decode_phaseCode .tbInit, decode_phaseCode .tbLeaf,
    decode_phaseCode .tbMerge, decode_phaseCode .tbRoot, decode_phaseCode .bsHdr, decode_phaseCode .bsBit,
    decode_phaseCode .bsRun1, decode_phaseCode .vlInit, decode_phaseCode .vlTally, decode_phaseCode .vlCmp,
    decode_phaseCode .haltDone, decode_phaseCode .haltErr, rfl, fun _ => ⟨rfl, rfl, rfl, rfl⟩⟩

/-- Settles O4: the decoder evaluates each word. -/
theorem selectedWordsDecode : Obligations.SelectedWordsDecode := by
  unfold Obligations.SelectedWordsDecode
  decide

/-! ### Decoder and encoder -/

theorem decode_encode (i : Instr) : decode (encode i) = .ok i := by
  cases i with
  | go v => cases v <;> rfl
  | idle | ftHdr | ftEnt | tbInit | tbLeaf | tbMerge | tbRoot | bsHdr | bsBit | bsRun1 | vlInit | vlTally | vlCmp | haltDone
  | haltErr => rfl
  | pqSize | pqPush k | pqPop => rfl

/-- `GO` is encoded with the ignored bits 0. -/
theorem encode_of_decode_cmd {w : Word32} (h : decode (.cmd w) = .ok i) : encode i = .cmd (w &&& 3#32) := by
  obtain ⟨hgo, rfl⟩ := decode_cmd_ok_iff.1 h
  rw [and_three, hgo]
  cases w.getLsbD 1 <;> rfl

theorem encode_phaseInstr (p : Phase) : encode (phaseInstr p) = .seq (phaseCode p) := by
  cases p <;> rfl

theorem encode_of_decode_seq {p : BitVec 4} (h : decode (.seq p) = .ok i) : encode i = .seq p := by
  obtain ⟨q, -, rfl, rfl⟩ := phaseOfCode_of_decode h
  exact encode_phaseInstr q

/-- A request is encoded with the node index for `PQ.PUSH` only. -/
theorem encode_of_decode_pq {q : BitVec 2} {k : Nat} (h : decode (.pq q k) = .ok i) :
    encode i = .pq q (if q = 1#2 then k else 0) := by
  have codes : ∀ q : BitVec 2, q = 0#2 ∨ q = 1#2 ∨ q = 2#2 ∨ q = 3#2 := by decide
  rcases codes q with rfl | rfl | rfl | rfl <;> cases h <;> rfl

/-- Settles O3: each operation is encoded by its table's row, and each table has one row for a code. -/
theorem decoderAndEncoderAgree : Obligations.DecoderAndEncoderAgree :=
  ⟨decode_encode, fun _ _ => encode_of_decode_cmd, fun _ _ => encode_of_decode_seq, fun _ _ _ => encode_of_decode_pq⟩

/-! ### Payload bits (rule R96) -/

theorem bitOfByte_eq_decide (b : Byte) (c : Nat) : bitOfByte b c = decide ((b >>> (7 - c % 8)) &&& 1#8 = 1#8) := by
  have low : (b >>> (7 - c % 8)) &&& 1#8 = 1#8 ↔ (b >>> (7 - c % 8)).getLsbD 0 = true := 
    and_twoPow_eq_twoPow 0 (by decide) _
  simp [bitOfByte, low]

/-- Settles O18: `CURSOR` shifted and masked is its quotient and its remainder by 8. -/
theorem payloadBitOrder : Obligations.PayloadBitOrder := by
  refine ⟨fun s hin => ?_, by decide⟩
  have quotient : (s.cursor >>> 3).toNat = s.cursor.toNat / 8 := by simp [Nat.shiftRight_eq_div_pow]
  have remainder : (s.cursor &&& 7#32).toNat = s.cursor.toNat % 8 := Nat.and_two_pow_sub_one_eq_mod _ 3
  rw [quotient] at hin ⊢
  have read : memRead1 s (payloadAddr s) = .ok (inByte s (payloadAddr s)) := memRead1_eq hin
  rw [payloadBit, read, except_ok_bind, bitOfByte_eq_decide, remainder]
  rfl

/-! ### `PQ.SIZE` (rule R122) -/

/-- Settles O21: the answer is the only field written. -/
theorem pqSizeEffect : Obligations.PqSizeEffect := fun s =>
  show execPqSize s = .next { s with pqAns := some s.hsize } from rfl

end Sys2Proof.Machine
end

section
/-! PROOFS. What a run has decoded: the payload bits consumed are the codes of the bytes emitted, one after another, and then the
path from the root to where the walk stands (rules R94, R96, R97, R182, R186); and equal outputs over one tree of distinct symbols
have equal codes (rules R107, R187). -/

namespace Sys2Proof.Machine

variable {s t u : State} {r : Nat} {rest : List Bool} {codes : List (List Bool)}

/-! ### Payload bits and the codes of the output -/

/-- The first `n` payload bits (rules R94, R96). -/
def bitsTo (s : State) (n : Nat) : List Bool :=
  (List.range n).map fun c => bitOfByte (inByte s (s.payloadBase.toNat + c / 8)) c

theorem payloadBits_eq_bitsTo (s : State) : payloadBits s = bitsTo s s.packedBits.toNat := rfl

/-- The bit that `BS.BIT` reads next. -/
def nextBit (s : State) : Bool := bitOfByte (inByte s (payloadAddr s)) s.cursor.toNat

theorem bitsTo_cursor_succ (s : State) : bitsTo s (s.cursor.toNat + 1) = bitsTo s s.cursor.toNat ++ [nextBit s] := by
  simp [bitsTo, List.range_succ, nextBit, payloadAddr]

theorem bitsTo_congr (hb : inByte t = inByte s) (hp : t.payloadBase = s.payloadBase) : bitsTo t = bitsTo s := by
  funext n
  simp only [bitsTo, hb, hp]

theorem followPath_congr (h : t.node = s.node) : followPath t = followPath s := by
  funext k bits
  induction bits generalizing k with
  | nil => rfl
  | cons b bits ih => simp only [followPath, h, ih]

/-- One code for each output byte, leading from node `r` to a leaf of that byte (rule R97). -/
def OutputCodes (s : State) (r : Nat) (codes : List (List Bool)) : Prop :=
  codes.length = s.outLen.toNat ∧ ∀ j code, codes[j]? = some code → CodeEmits s r code j

theorem outputCodes_nil (h : s.outLen = 0) : OutputCodes s r [] := ⟨by simp [h], by simp⟩

theorem OutputCodes.congr (h : OutputCodes s r codes) (hn : t.node = s.node) (hb : t.outBuf = s.outBuf)
    (hl : t.outLen = s.outLen) : OutputCodes t r codes := by
  unfold OutputCodes CodeEmits at h ⊢
  rwa [followPath_congr hn, hn, hb, hl]

/-- A byte more of the output is the symbol of the leaf that its code leads to. -/
theorem OutputCodes.emit {code : List Bool} {k : Nat} {c : TreeNode} (h : OutputCodes s r codes)
    (hpath : followPath s r code = some k) (hk : Store.read s.node k = some c) (hleaf : c.leaf = true)
    (hn : t.node = s.node) (hb : t.outBuf = Store.write s.outBuf s.outLen.toNat c.sym)
    (hl : t.outLen.toNat = s.outLen.toNat + 1) : OutputCodes t r (codes ++ [code]) := by
  obtain ⟨length, emits⟩ := h
  refine ⟨by simp [length, hl], fun j code' hj => ?_⟩
  unfold CodeEmits
  rw [followPath_congr hn, hn, hb]
  rw [List.getElem?_append] at hj
  split at hj
  · next hlt =>
    obtain ⟨k', c', hpath', hk', hleaf', hsym⟩ := emits j code' hj
    exact ⟨k', c', hpath', hk', hleaf', by rwa [store_read_write_other _ _ (by omega)]⟩
  · next hle =>
    obtain ⟨hlast, hcode⟩ := List.getElem?_eq_some_iff.1 hj
    obtain rfl : code = code' := by simpa using hcode
    obtain rfl : j = s.outLen.toNat := by rw [List.length_singleton] at hlast; omega
    exact ⟨k, c, hpath, hk, hleaf, store_read_write_same _ _ _⟩

/-! ### The walk -/

/-- While the payload is read: the bits consumed are the codes of the output, and then the path to where the walk stands. -/
def WalkStands (s : State) : Prop :=
  ∃ r codes rest w, s.root = some r ∧ OutputCodes s r codes ∧ codes.flatten ++ rest = bitsTo s s.cursor.toNat ∧
    s.walk = some w ∧ followPath s r rest = some w

/-- After a complete decode of two or more symbols: the valid payload bits are the codes of the output. -/
def PayloadDecoded (s : State) : Prop :=
  2 ≤ s.symCount.toNat → ∃ r codes, s.root = some r ∧ OutputCodes s r codes ∧ codes.flatten = payloadBits s

theorem PayloadDecoded.congr (h : PayloadDecoded s) (e : SameTree s t) (hin : inByte t = inByte s)
    (hbase : t.payloadBase = s.payloadBase) (hbits : t.packedBits = s.packedBits) : PayloadDecoded t := by
  intro h2
  rw [e.symCount] at h2
  obtain ⟨r, codes, hroot, hcodes, hflat⟩ := h h2
  refine ⟨r, codes, e.root.trans hroot, hcodes.congr e.node e.outBuf e.outLen, ?_⟩
  rw [hflat, payloadBits_eq_bitsTo, payloadBits_eq_bitsTo, bitsTo_congr hin hbase, hbits]

/-- The walk starts at the root with nothing consumed and nothing emitted (rule R181). -/
theorem walkStands_start {r : Nat} (ho : s.outLen = 0) (hc : s.cursor = 0) (hroot : s.root = some r) (hw : s.walk = s.root) :
    WalkStands s :=
  ⟨r, [], [], r, hroot, outputCodes_nil ho, by simp [hc, bitsTo], hw.trans hroot, rfl⟩

/-- Only the empty path leads from the root to the root. -/
theorem TreeBuilt.path_to_root (h : TreeBuilt s) (hroot : s.root = some r) (hpath : followPath s r rest = some r) :
    rest = [] := by
  obtain rfl : s.nnodes - 1 = r := Option.some.inj (h.rootIs.symm.trans hroot)
  have hpos := h.nnodes_pos
  obtain ⟨p, -, unique⟩ := h.path_unique (show s.nnodes - 1 < s.nnodes by omega)
  exact (unique _ hpath).trans (unique [] rfl).symm

/-- With all bits consumed the walk stands at the root, so no code is left unfinished (rule R186). -/
theorem WalkStands.decoded (h : WalkStands s) (htree : TreeBuilt s) (hend : s.cursor = s.packedBits) (hw : s.walk = s.root) :
    PayloadDecoded s := by
  intro _
  obtain ⟨r, codes, rest, w, hroot, hcodes, hbits, hwalk, hpath⟩ := h
  obtain rfl : w = r := Option.some.inj (hwalk.symm.trans (hw.trans hroot))
  obtain rfl := htree.path_to_root hroot hpath
  refine ⟨w, codes, hroot, hcodes, ?_⟩
  rw [payloadBits_eq_bitsTo, ← hend, ← hbits, List.append_nil]

/-- A bit that leads from where the walk stands to node `k` adds to the path. -/
theorem WalkStands.consume {p k : Nat} (h : WalkStands s) (hp : s.walk = some p) (he : Edge s p (nextBit s) k) :
    ∃ r codes code, s.root = some r ∧ OutputCodes s r codes ∧ codes.flatten ++ code = bitsTo s (s.cursor.toNat + 1) ∧
      followPath s r code = some k := by
  obtain ⟨r, codes, rest, w, hroot, hcodes, hbits, hwalk, hpath⟩ := h
  obtain rfl : p = w := Option.some.inj (hp.symm.trans hwalk)
  refine ⟨r, codes, rest ++ [nextBit s], hroot, hcodes, ?_, followPath_concat.2 ⟨p, hpath, he⟩⟩
  rw [← List.append_assoc, hbits, bitsTo_cursor_succ]

/-- A bit leads to an internal node: the walk stands there. -/
theorem WalkStands.descends {p k : Nat} (h : WalkStands s) (hp : s.walk = some p) (he : Edge s p (nextBit s) k)
    (hc : s.cursor.toNat < s.packedBits.toNat) :
    WalkStands { s with cursor := s.cursor + 1, walk := some k, phase := .bsBit } := by
  obtain ⟨r, codes, code, hroot, hcodes, hbits, hpath⟩ := h.consume hp he
  refine ⟨r, codes, code, k, hroot, hcodes.congr rfl rfl rfl, ?_, rfl, ?_⟩
  · rw [hbits, ← toNat_succ_of_lt hc]
    rfl
  · rw [followPath_congr (s := s), hpath]
    rfl

/-- A bit leads to a leaf: its path is one code more, and the walk stands at the root again. -/
theorem WalkStands.emits {p k : Nat} {c : TreeNode} (h : WalkStands s) (hp : s.walk = some p) (he : Edge s p (nextBit s) k)
    (hk : Store.read s.node k = some c) (hleaf : c.leaf = true) (hc : s.cursor.toNat < s.packedBits.toNat)
    (ho : s.outLen.toNat ≤ s.cursor.toNat) :
    WalkStands { s with
      cursor := s.cursor + 1, walk := s.root, outBuf := Store.write s.outBuf s.outLen.toNat c.sym, outLen := s.outLen + 1,
      phase := .bsBit } := by
  obtain ⟨r, codes, code, hroot, hcodes, hbits, hpath⟩ := h.consume hp he
  have output : (s.outLen + 1).toNat = s.outLen.toNat + 1 := toNat_succ_of_lt (ho.trans_lt hc)
  refine ⟨r, codes ++ [code], [], r, hroot, hcodes.emit hpath hk hleaf rfl rfl output, ?_, hroot, rfl⟩
  rw [List.flatten_concat, List.append_nil, hbits, ← toNat_succ_of_lt hc]
  rfl

/-! ### Along a run -/

/-- What a run has decoded, by phase. -/
def HoldsCodes (s : State) : Prop :=
  match s.phase with
  | .idle | .ftHdr | .ftEnt | .tbInit | .tbLeaf | .tbMerge | .tbRoot | .bsHdr | .bsRun1 | .haltErr => True
  | .bsBit => WalkStands s
  | .vlInit | .vlTally | .vlCmp | .haltDone => PayloadDecoded s

theorem holdsCodes_haltErr (h : s.phase = .haltErr) : HoldsCodes s := by
  simp only [HoldsCodes, h]

theorem PayloadDecoded.afterDecode (h : PayloadDecoded s) : HoldsCodes { s with phase := afterDecode s } := by
  have held : ∀ p, PayloadDecoded { s with phase := p } := fun p => h.congr (.of_eq rfl) rfl rfl rfl
  unfold Machine.afterDecode
  split
  · exact held .vlInit
  · exact held .haltDone

theorem execBsHdr_holdsCodes (ho : s.outLen = 0) (hu : execBsHdr s = .next u) : HoldsCodes u := by
  rcases execBsHdr_next hu with ⟨-, rfl⟩ | ⟨-, v, rfl, rfl | rfl | ⟨-, -, r, nd, hroot, -, -, rfl⟩⟩
  · exact holdsCodes_haltErr rfl
  · exact holdsCodes_haltErr rfl
  · exact holdsCodes_haltErr rfl
  · by_cases hl : nd.leaf = true
    · rw [if_pos hl]
      trivial
    · rw [if_neg hl]
      exact walkStands_start ho rfl hroot rfl

theorem execBsBit_holdsCodes (h : WalkStands s) (hi : RunInv s) (hp : s.phase = .bsBit) (hu : execBsBit s = .next u) :
    HoldsCodes u := by
  obtain ⟨-, hph⟩ := hi
  simp only [PhaseInv, hp] at hph
  obtain ⟨-, -, htree, -, -, -, -, hc, hend, ho⟩ := hph
  obtain ⟨p, nd, hwalk, -, hnd, hinner, hcase⟩ := execBsBit_next hu
  rcases hcase with ⟨hdone, rfl⟩ | ⟨hmore, -, nxt, hnxt, ⟨-, rfl⟩ | ⟨k, c, hk, -, hkr, hchild⟩⟩
  · exact (h.decoded htree hdone (hend hdone)).afterDecode
  · exact holdsCodes_haltErr rfl
  · have edge : Edge s p (nextBit s) k := ⟨nd, hnd, hinner, hnxt.symm.trans hk⟩
    have hlt := toNat_lt_of_ne hc hmore
    rcases hchild with ⟨-, -, rfl⟩ | ⟨hleaf, -, rfl⟩ | ⟨-, -, rfl⟩ | ⟨-, -, rfl⟩
    · exact holdsCodes_haltErr rfl
    · exact h.emits hwalk edge hkr hleaf hlt ho
    · exact holdsCodes_haltErr rfl
    · exact h.descends hwalk edge hlt

/-- In the single-symbol case there is no code to hold. -/
theorem execBsRun1_holdsCodes (h1 : s.symCount.toNat = 1) (hu : execBsRun1 s = .next u) : HoldsCodes u := by
  obtain ⟨r, nd, e, -, -, -, -, -, ⟨-, rfl⟩ | ⟨-, -, rfl⟩ | ⟨-, -, rfl⟩⟩ := execBsRun1_next hu
  · exact PayloadDecoded.afterDecode fun h2 => by omega
  · exact holdsCodes_haltErr rfl
  · trivial

/-- Every operation of a run keeps what it has decoded. -/
theorem HoldsCodes.exec (h : HoldsCodes s) (hi : RunInv s) (hu : exec (phaseInstr s.phase) s = .next u) : HoldsCodes u := by
  have h0 := h
  have hph := hi.phase
  cases hp : s.phase <;> simp only [HoldsCodes, PhaseInv, hp] at h hph <;> rw [hp] at hu
  case idle | haltDone | haltErr => exact Host.Outcome.next.inj hu ▸ h0
  case ftHdr =>
    rcases execFtHdr_next hu with ⟨-, rfl⟩ | ⟨-, rfl⟩
    · exact holdsCodes_haltErr rfl
    · rcases ftHdrChecks_conditions { s with hdrTotalLen := _, hdrReserved := _, symCount := _ } with
        e | ⟨-, e⟩ | ⟨-, -, ⟨-, e⟩ | ⟨-, e⟩⟩ <;> rw [e] <;> trivial
  case ftEnt =>
    obtain ⟨-, -, rfl⟩ := execFtEnt_next hu
    rcases ftEntNext_cases { s with ft := _ } with ⟨-, e⟩ | ⟨-, e⟩ <;> rw [e] <;> trivial
  case tbInit => rcases execTbInit_next hu with ⟨-, rfl⟩ | ⟨-, rfl⟩ <;> trivial
  case tbLeaf =>
    obtain ⟨hlt, -, e, h', -, -, -, -, rfl⟩ := execTbLeaf_next hu
    rcases tbLeafNext_cases (s := { s with node := _, nnodes := _, heap := h', hsize := _ }) hlt with
      ⟨-, e⟩ | ⟨-, -, e⟩ | ⟨-, -, e⟩ <;> rw [e] <;> trivial
  case tbMerge =>
    obtain ⟨-, a, b, h', -, -, -, rfl⟩ := execTbMerge_next hu
    rcases tbMergeNext_cases { s with node := _, nnodes := _, heap := h', hsize := _ } with ⟨-, e⟩ | ⟨-, e⟩ <;>
      rw [e] <;> trivial
  case tbRoot =>
    obtain ⟨-, r, -, rfl⟩ := execTbRoot_next hu
    trivial
  case bsHdr =>
    obtain ⟨-, ho, -⟩ := hph
    exact execBsHdr_holdsCodes ho hu
  case bsBit => exact execBsBit_holdsCodes h hi hp hu
  case bsRun1 =>
    obtain ⟨-, -, -, -, h1, -⟩ := hph
    exact execBsRun1_holdsCodes h1 hu
  case vlInit =>
    obtain rfl := Host.Outcome.next.inj hu
    by_cases hout : s.outLen = 0
    · rw [if_pos hout]
      exact h.congr (.of_eq rfl) rfl rfl rfl
    · rw [if_neg hout]
      exact h.congr (.of_eq rfl) rfl rfl rfl
  case vlTally =>
    obtain ⟨-, x, v, -, -, rfl⟩ := execVlTally_next hu
    rcases vlTallyNext_cases (writeObs s x (v + 1)) with ⟨-, e⟩ | ⟨-, e⟩ <;> rw [e] <;>
      exact h.congr (.of_eq rfl) rfl rfl rfl
  case vlCmp =>
    obtain ⟨-, e, v, -, -, ⟨-, rfl⟩ | ⟨-, rfl⟩⟩ := execVlCmp_next hu
    · exact holdsCodes_haltErr rfl
    · rcases vlCmpNext_cases s with ⟨-, e⟩ | ⟨-, e⟩ <;> rw [e] <;> exact h.congr (.of_eq rfl) rfl rfl rfl

/-- What a run has decoded holds all along it. -/
theorem HoldsCodes.stepN {k : Nat} (h : HoldsCodes s) (hi : RunInv s) (ha : Alone s) (hk : stepN k s = some t) :
    HoldsCodes t := by
  induction k generalizing s with
  | zero => exact Option.some.inj hk ▸ h
  | succ k ih =>
    obtain ⟨u, hu, hk⟩ := stepN_succ_some.1 hk
    obtain ⟨he, ha'⟩ := ha.step hu
    exact ih (h.exec hi he) (hi.exec he) ha' hk

/-- A DONE run of two or more symbols has the built tree, and its valid payload bits are the codes of its output. -/
theorem done_decoded {v : Bool} {k : Nat} (ha : Alone s) (hk : stepN k (startRun v s) = some t) (hp : t.phase = .haltDone)
    (h2 : 2 ≤ t.symCount.toNat) :
    TreeBuilt t ∧ ∃ r codes, t.root = some r ∧ OutputCodes t r codes ∧ codes.flatten = payloadBits t := by
  have alone : Alone (startRun v s) := ha
  have inv := runInv_startRun v s
  have held : HoldsCodes t := HoldsCodes.stepN (s := startRun v s) trivial inv alone hk
  obtain ⟨-, hph⟩ := inv.stepN alone hk
  simp only [PhaseInv, HoldsCodes, hp] at hph held
  obtain ⟨-, hdec, -⟩ := hph
  exact ⟨hdec.tree, held h2⟩

/-- Settles O53: each bit consumed extends the path to where the walk stands, and each byte emitted makes that path a code. -/
theorem outputDecodesPayload : Obligations.OutputDecodesPayload := by
  intro s v k t ha _ hk hp h2
  obtain ⟨-, r, codes, hroot, ⟨hlength, hemits⟩, hbits⟩ := done_decoded ha hk hp h2
  exact ⟨r, codes, hroot, hbits, hlength, hemits⟩

/-! ### Equal outputs -/

/-- In trees of the same nodes the same paths lead to the same nodes. -/
theorem TreeBuilt.followPath_agree (h : TreeBuilt s) (hn : AgreeTo s.nnodes s.node t.node) {k : Nat} (hk : k < s.nnodes)
    (bits : List Bool) : followPath t k bits = followPath s k bits := by
  induction bits generalizing k with
  | nil => rfl
  | cons b bits ih =>
    have edges : ∀ c, Edge t k b c ↔ Edge s k b c := fun c => by rw [Edge, Edge, hn k hk]
    ext m
    simp only [followPath_cons, edges]
    refine exists_congr fun c => and_congr_right fun he => ?_
    obtain ⟨-, hck⟩ := h.edge_lt hk he
    rw [ih (hck.trans hk)]

/-- The code of an output byte leads to the leaf of a table entry that has that byte as its symbol. -/
theorem TreeBuilt.code_leaf {code : List Bool} {j : Nat} (h : TreeBuilt s) (hc : CodeEmits s (s.nnodes - 1) code j) :
    ∃ k e, k < s.symCount.toNat ∧ followPath s (s.nnodes - 1) code = some k ∧ Store.read s.ft k = some e ∧
      Store.read s.outBuf j = some e.sym := by
  obtain ⟨k, nd, hpath, hnd, hleaf, hsym⟩ := hc
  have hpos := h.nnodes_pos
  have hle := h.followPath_le (show s.nnodes - 1 < s.nnodes by omega) hpath
  rcases h.arena.read_node (show k < s.nnodes by omega) with ⟨hk, e, he, hn⟩ | ⟨-, x, y, -, -, hn⟩ <;>
    obtain rfl := Option.some.inj (hnd.symm.trans hn)
  · exact ⟨k, e, hk, hpath, he, hsym⟩
  · cases hleaf

/-- With distinct symbols an output byte has one code (rules R107, R187). -/
theorem TreeBuilt.code_unique {code code' : List Bool} {j : Nat} (h : TreeBuilt s)
    (distinct : ∀ x y e f, x < s.symCount.toNat → y < s.symCount.toNat → Store.read s.ft x = some e →
      Store.read s.ft y = some f → e.sym = f.sym → x = y)
    (hc : CodeEmits s (s.nnodes - 1) code j) (hc' : CodeEmits s (s.nnodes - 1) code' j) : code = code' := by
  obtain ⟨x, e, hx, hpath, he, hsym⟩ := h.code_leaf hc
  obtain ⟨y, f, hy, hpath', hf, hsym'⟩ := h.code_leaf hc'
  obtain rfl : x = y := distinct x y e f hx hy he hf (Option.some.inj (hsym.symm.trans hsym'))
  have size := h.size
  obtain ⟨p, -, unique⟩ := h.path_unique (show x < s.nnodes by omega)
  exact (unique code hpath).trans (unique code' hpath').symm

theorem outputOf_eq (h : outputOf s = outputOf t) :
    s.outLen.toNat = t.outLen.toNat ∧ AgreeTo s.outLen.toNat s.outBuf t.outBuf := by
  have length : s.outLen.toNat = t.outLen.toNat := by simpa [outputOf] using congrArg List.length h
  refine ⟨length, fun j hj => ?_⟩
  unfold outputOf at h
  rw [← length] at h
  exact List.map_inj_left.1 h j (List.mem_range.2 hj)

/-- A code of one run's output is a code of the other's, when the trees and the outputs are the same. -/
theorem CodeEmits.of_agree {code : List Bool} {j : Nat} (h : CodeEmits t (s.nnodes - 1) code j) (htree : TreeBuilt s)
    (hn : AgreeTo s.nnodes s.node t.node) (hb : Store.read s.outBuf j = Store.read t.outBuf j) :
    CodeEmits s (s.nnodes - 1) code j := by
  obtain ⟨k, nd, hpath, hnd, hleaf, hsym⟩ := h
  have hpos := htree.nnodes_pos
  have hroot : s.nnodes - 1 < s.nnodes := by omega
  rw [htree.followPath_agree hn hroot] at hpath
  have hle := htree.followPath_le hroot hpath
  exact ⟨k, nd, hpath, (hn k (by omega)).trans hnd, hleaf, hb.trans hsym⟩

/-- Settles O58: equal output bytes have equal codes, and the codes are the valid payload bits. -/
theorem changedBitsChangeOutput : Obligations.ChangedBitsChangeOutput := by
  intro s t v j k u w hs ht _ _ hu hw hpu hpw h2 hsym hroot hnodes distinct hout
  obtain ⟨htree, r, codes, hr, ⟨hlen, hemits⟩, hbits⟩ := done_decoded hs hu hpu h2
  obtain ⟨-, r', codes', hr', ⟨hlen', hemits'⟩, hbits'⟩ := done_decoded ht hw hpw (hsym ▸ h2)
  obtain rfl : u.nnodes - 1 = r := Option.some.inj (htree.rootIs.symm.trans hr)
  obtain rfl : u.nnodes - 1 = r' := Option.some.inj (hr.symm.trans (hroot.trans hr'))
  obtain ⟨hlength, hbytes⟩ := outputOf_eq hout
  have same : codes = codes' := by
    refine List.ext_getElem (by omega) fun i hi hi' => ?_
    refine htree.code_unique distinct (hemits i _ (List.getElem?_eq_getElem hi)) ?_
    exact (hemits' i _ (List.getElem?_eq_getElem hi')).of_agree htree hnodes (hbytes i (by omega))
  rw [← hbits, ← hbits', same]

end Sys2Proof.Machine
end

section
/-! PROOFS. No step of a state that meets the invariant is an internal fault (rules R125, R217, R247). -/

namespace Sys2Proof.Machine

variable {s t : State}

/-- Under the invariant the block's own step answers (rule R247). -/
theorem Inv.blockStep_answers (h : Inv s) : ∃ t, Machine.blockStep s = .next t := by
  rw [blockStep_of_no_request h.port]
  by_cases hb : runState s.phase = .busy
  · obtain ⟨t, ht, -⟩ := exec_stepsWell h.runInv hb
    exact ⟨t, ht⟩
  · exact ⟨s, exec_of_rest hb⟩

/-- The invariant does not rest on the waiting inputs. -/
theorem Inv.with_inputs (h : Inv s) (rest : List Input) : Inv { s with inputs := rest } :=
  h.of_eq (h.storage.of_eq rfl) rfl rfl (.inl rfl)

theorem execGo_not_fault (v : Bool) (s : State) (f : Fault) : execGo v s ≠ .fault f := by
  unfold execGo
  split <;> exact nofun

theorem hostWriteCtrl_not_fault (w : Word32) (s : State) (f : Fault) : hostWriteCtrl w s ≠ .fault f := by
  unfold hostWriteCtrl
  split
  · next i hi =>
    obtain rfl := decode_cmd_ok hi
    exact execGo_not_fault _ _ _
  · exact nofun

/-- An access of the host answers or is refused, in any state. -/
theorem hostAct_not_fault (a : HostAction) (s : State) (f : Fault) : hostAct a s ≠ .fault f := by
  cases a with
  | writeReg n v =>
    simp only [hostAct, hostWriteReg]
    split
    · exact hostWriteCtrl_not_fault _ _ _
    · split
      · split <;> exact nofun
      · exact nofun
  | writeIn off b =>
    simp only [hostAct, hostWriteIn]
    split
    · exact nofun
    · split <;> exact nofun
  | readReg _ | readIn _ | readOut _ | reset => exact nofun

/-- Settles O47: the operation a phase selects answers under the invariant, and an access of the host never faults. -/
theorem noInternalFault : Obligations.NoInternalFault := by
  intro s h
  have own : s.inputs = [] → ∃ t, step s = .next t := fun hin => by
    rw [step_no_inputs hin]
    exact h.blockStep_answers
  have turn : ∀ rest, s.inputs = .block :: rest → ∃ t, step s = .next t := fun rest hin => by
    rw [step_block_input hin]
    exact (h.with_inputs rest).blockStep_answers
  refine ⟨fun f hf => ?_, own, turn⟩
  match hin : s.inputs with
  | [] =>
    obtain ⟨t, ht⟩ := own hin
    cases ht.symm.trans hf
  | .block :: rest =>
    obtain ⟨t, ht⟩ := turn rest hin
    cases ht.symm.trans hf
  | .host a :: rest =>
    rw [step_host_input hin] at hf
    exact hostAct_not_fault _ _ _ hf

end Sys2Proof.Machine
end

section
/-! PROOFS. The Priority Queue's requests executed alone: their effect, the heap invariant, where they stop (rules R121 to R126,
R247). -/

namespace Sys2Proof.Machine

variable {s t : State}

/-! ### Push and pop -/

theorem inHeap_iff {k : Nat} : inHeap s k = true ↔ ∃ j, j < s.hsize ∧ Store.read s.heap j = some k := by
  simp [inHeap]

theorem inHeap_eq_false {k : Nat} (h : ∀ j, j < s.hsize → Store.read s.heap j ≠ some k) : inHeap s k = false := by
  rw [Bool.eq_false_iff, Ne, inHeap_iff]
  rintro ⟨j, hj, hr⟩
  exact h j hj hr

theorem exec_pqPush_of_ok {k : Nat} (h : pqPush k s = .ok t) : exec (.pqPush k) s = .next { t with pqAns := none } := by
  simp only [exec, execPqPush, h, except_ok_bind, finish_ok]

theorem exec_pqPop_of_ok {m : Nat} (h : pqPop s = .ok (m, t)) : exec .pqPop s = .next { t with pqAns := some m } := by
  simp only [exec, execPqPop, h, except_ok_bind, finish_ok]

theorem exec_pqPush_of_error {k : Nat} {f : Fault} (h : pqPush k s = .error f) : exec (.pqPush k) s = .fault f := by
  simp only [exec, execPqPush, h, except_error_bind, finish_error]

/-- Settles O22: the sift-up leaves every node where rule R123 puts it. -/
theorem pqPushEffect : Obligations.PqPushEffect := by
  rintro s k filled hk ⟨nd, hn⟩ hnew hroom
  obtain ⟨h', e, pushed⟩ := pqPush_pushed filled hk hn (inHeap_eq_false hnew) hroom
  exact ⟨h', exec_pqPush_of_ok e, pushed⟩

/-- Settles O23: the sift-down leaves every node where rule R124 puts it. -/
theorem pqPopEffect : Obligations.PqPopEffect := by
  intro s filled h1 tie stop
  obtain ⟨m, h', e, root, popped⟩ := pqPop_popped (n := s.hsize - 1) tie stop filled (by omega)
  exact ⟨m, h', exec_pqPop_of_ok e, root, popped⟩

/-! ### The heap invariant (rule R126) -/

/-- In an ordered heap no node has a smaller frequency than the root. -/
theorem HeapOrdered.root_le (ho : HeapOrdered s) (j : Nat) (hj : j < s.hsize) : posFreq s 0 ≤ posFreq s j := by
  induction j using Nat.strong_induction_on with
  | h j ih =>
    by_cases j0 : j = 0
    · rw [j0]
      exact BitVec.le_refl _
    · have hp : heapParent j < j := by unfold heapParent; omega
      exact BitVec.le_trans (ih _ hp (by omega)) (ho j (by omega) hj)

theorem posFreq_of_read {j k : Nat} (h : Store.read s.heap j = some k) : posFreq s j = nodeFreq s.node k := by
  simp only [posFreq, arrayFreq, h]

/-- A push that answers keeps the heap filled and ordered and its nodes distinct, and adds the pushed node. -/
theorem exec_pqPush_keeps_heap {k : Nat} {nd : TreeNode} (filled : HeapFilled s) (ordered : HeapOrdered s)
    (distinct : (heapNodes s).Nodup) (hn : Store.read s.node k = some nd) (h : exec (.pqPush k) s = .next t) :
    HeapFilled t ∧ HeapOrdered t ∧ (heapNodes t).Nodup ∧ (heapNodes t).Perm (k :: heapNodes s) := by
  obtain ⟨hk, hnew, hroom, -⟩ := execPqPush_next h
  obtain ⟨h', e, filled', perm, ordered'⟩ := pqPush_spec filled ordered hk hn hnew hroom
  obtain rfl := Host.Outcome.next.inj (h.symm.trans (exec_pqPush_of_ok e))
  have fresh : k ∉ heapNodes s := fun hmem => by
    rw [inHeap_iff.2 (mem_heapNodes.1 hmem)] at hnew
    cases hnew
  exact ⟨filled', ordered', perm.nodup_iff.2 (List.nodup_cons.2 ⟨fresh, distinct⟩), perm⟩

/-- A pop that answers keeps the heap filled and ordered and its nodes distinct, and takes out a node of minimum frequency. -/
theorem exec_pqPop_keeps_heap (filled : HeapFilled s) (ordered : HeapOrdered s) (distinct : (heapNodes s).Nodup)
    (h : exec .pqPop s = .next t) : ∃ m, t.pqAns = some m ∧
      HeapFilled t ∧ HeapOrdered t ∧ (heapNodes t).Nodup ∧ (heapNodes s).Perm (m :: heapNodes t) ∧
      ∀ j, j < s.hsize → nodeFreq s.node m ≤ posFreq s j := by
  obtain ⟨h0, -⟩ := execPqPop_next h
  obtain ⟨m, h', e, root, filled', perm, ordered'⟩ := pqPop_spec filled ordered h0
  obtain rfl := Host.Outcome.next.inj (h.symm.trans (exec_pqPop_of_ok e))
  refine ⟨m, rfl, filled', ordered', (List.nodup_cons.1 (perm.nodup_iff.2 distinct)).2, perm.symm, fun j hj => ?_⟩
  rw [← posFreq_of_read root]
  exact ordered.root_le j hj

/-- Settles O24: either sift reorders the heap's nodes and restores the order, and the root of an ordered heap is a minimum. -/
theorem heapInvariantKept : Obligations.HeapInvariantKept := by
  intro s t filled ordered distinct
  refine ⟨?_, exec_pqPop_keeps_heap filled ordered distinct⟩
  rintro k ⟨nd, hn⟩ h
  exact exec_pqPush_keeps_heap filled ordered distinct hn h

/-! ### Where a request stops -/

theorem pqPush_operand {k : Nat} (h : s.nnodes ≤ k ∨ inHeap s k = true) : pqPush k s = .error .pqPushOperand := if_pos h

/-- Settles O25: each request checks its operand and the room before it reads the heap. -/
theorem pqRequestsStop : Obligations.PqRequestsStop := by
  intro s k
  refine ⟨fun h0 => ?_, fun hk => ?_, fun j hj hr => ?_, fun hk hnew hfull => ?_⟩
  · have empty : pqPop s = .error .pqPopEmpty := if_pos h0
    simp only [exec, execPqPop, empty, except_error_bind, finish_error]
  · exact exec_pqPush_of_error (pqPush_operand (.inl hk))
  · exact exec_pqPush_of_error (pqPush_operand (.inr (inHeap_iff.2 ⟨j, hj, hr⟩)))
  · refine exec_pqPush_of_error ?_
    unfold pqPush
    rw [if_neg (by simp [not_le.2 hk, inHeap_eq_false hnew]), if_pos hfull]

end Sys2Proof.Machine
end

section
/-! PROOFS. The effect of the Frequency Table Reader's two operations (rules R141, R142). -/

namespace Sys2Proof.Machine

variable {s : State}

theorem store_write_updated {α : Type} (m : Store α) (a : Nat) (v : α) : Updated m (Store.write m a v) a v :=
  fun b => store_read_write m a b v

/-! ### `FT.HDR` -/

theorem execFtHdr_of_short (h : s.inLen.toNat < 12) : execFtHdr s = .next (raise .hdrTrunc s) := by
  rw [execFtHdr, if_pos h, finish_ok]

/-- With a whole header the three words are latched before any further check. -/
theorem execFtHdr_of_header (h : 12 ≤ s.inLen.toNat) :
    execFtHdr s =
      .next (ftHdrChecks { s with hdrTotalLen := inWord s 0, hdrReserved := inWord s 4, symCount := inWord s 8 }) := by
  rw [execFtHdr, if_neg (not_lt.2 h), memRead4_eq (by omega), memRead4_eq (by omega), memRead4_eq (by omega)]
  simp only [except_ok_bind, finish_ok]

theorem ftHdrChecks_of_outside (h : s.inLen.toNat < entriesEnd s) : ftHdrChecks s = raise .entTrunc s := if_pos h

theorem ftHdrChecks_of_tooMany (hin : entriesEnd s ≤ s.inLen.toNat) (hmax : s.cfg.maxSyms < s.symCount.toNat) :
    ftHdrChecks s = raise .syms s := by
  rw [ftHdrChecks, if_neg (not_lt.2 hin), if_pos hmax]

theorem ftHdrChecks_of_fits (hin : entriesEnd s ≤ s.inLen.toNat) (hmax : s.symCount.toNat ≤ s.cfg.maxSyms) :
    ftHdrChecks s = { s with idx := 0, phase := if s.symCount = 0 then .tbInit else .ftEnt } := by
  rw [ftHdrChecks, if_neg (not_lt.2 hin), if_neg (not_lt.2 hmax)]

/-- Settles O19: the length check, then on the latched state the checks of `FT.HDR` in their order. -/
theorem ftHdrEffect : Obligations.FtHdrEffect := by
  rintro s u rfl
  have header {n : Nat} (h : 12 + n ≤ s.inLen.toNat) : 12 ≤ s.inLen.toNat := (Nat.le_add_right 12 n).trans h
  refine ⟨execFtHdr_of_short, fun h12 hout => ?_, fun hin hmax => ?_, fun hin hmax h0 => ?_, fun hin hmax h0 => ?_⟩
  · exact (execFtHdr_of_header h12).trans (congrArg _ (ftHdrChecks_of_outside hout))
  · exact (execFtHdr_of_header (header hin)).trans (congrArg _ (ftHdrChecks_of_tooMany hin hmax))
  · exact (execFtHdr_of_header (header hin)).trans (congrArg _ ((ftHdrChecks_of_fits hin hmax).trans (by rw [if_pos h0])))
  · exact (execFtHdr_of_header (header hin)).trans (congrArg _ ((ftHdrChecks_of_fits hin hmax).trans (by rw [if_neg h0])))

/-! ### `FT.ENT` -/

/-- Below `SYM_COUNT` the index does not wrap, so the registers compare as the numbers do. -/
theorem ftEntNext_of_lt (hi : s.idx.toNat < s.symCount.toNat) :
    ftEntNext s =
      { s with idx := s.idx + 1, phase := if s.idx.toNat + 1 = s.symCount.toNat then .tbInit else .ftEnt } := by
  simp only [ftEntNext, ← toNat_succ_of_lt hi, BitVec.toNat_inj]

/-- The count and the symbol are the first five bytes of the entry; no other byte has to lie inside `IN_LEN`. -/
theorem execFtEnt_of_entry (hi : s.idx.toNat < s.symCount.toNat) (hmax : s.idx.toNat < s.cfg.maxSyms)
    (hin : entryAddr s.idx.toNat + 5 ≤ s.inLen.toNat) :
    execFtEnt s = .next (ftEntNext { s with
      ft := Store.write s.ft s.idx.toNat
        { count := inWord s (entryAddr s.idx.toNat), sym := inByte s (entryAddr s.idx.toNat + 4) } }) := by
  have written (e : FtEntry) : writeFt s s.idx.toNat e = .ok { s with ft := Store.write s.ft s.idx.toNat e } :=
    writeFt_ok.2 ⟨hmax, rfl⟩
  rw [execFtEnt, if_neg (not_le.2 hi), memRead4_eq (by omega), memRead1_eq (by omega)]
  simp only [except_ok_bind, written, finish_ok]

/-- Settles O20: the entry's five bytes are written to `FT[IDX]`, and `IDX` advances without a wrap. -/
theorem ftEntEffect : Obligations.FtEntEffect := by
  intro s hi hmax hin
  exact ⟨_, (execFtEnt_of_entry hi hmax hin).trans (congrArg _ (ftEntNext_of_lt hi)), store_write_updated _ _ _⟩

end Sys2Proof.Machine
end

section
/-! PROOFS. The effect of the Tree Builder's four operations (rules R161 to R164). -/

namespace Sys2Proof.Machine

variable {s t : State}

/-! ### `TB.INIT` -/

/-- Settles O26: an empty table is the one way to fail; otherwise the queue and the arena start empty. -/
theorem tbInitEffect : Obligations.TbInitEffect := fun _ =>
  ⟨fun hz => congrArg _ (if_pos hz), fun hz => congrArg _ (if_neg hz)⟩

/-! ### `TB.ROOT` -/

/-- The pop of the last node moves nothing. -/
theorem pqPop_of_hsize_one {r : Nat} (h1 : s.hsize = 1) (hr : Store.read s.heap 0 = some r) :
    pqPop s = .ok (r, { s with hsize := 0 }) := by
  simp [pqPop, h1, heapAt_ok.2 hr]

/-- Settles O29: the popped node becomes `ROOT`. -/
theorem tbRootEffect : Obligations.TbRootEffect := by
  intro s r h1 hr
  rw [exec, execTbRoot, if_neg (not_not.2 h1), pqPop_of_hsize_one h1 hr]
  rfl

/-! ### A created node

`TB.LEAF` and `TB.MERGE` both end by creating the next node and pushing it. -/

theorem withNode_added (s : State) (n : TreeNode) : NodeAdded s (withNode s s.nnodes n) n := ⟨rfl, rfl, rfl⟩

/-- The created node has an index of its own, so the nodes in the heap stay as they were. -/
theorem HeapFilled.withNode (hf : HeapFilled s) (n : TreeNode) : HeapFilled (Machine.withNode s s.nnodes n) := by
  intro j hj
  obtain ⟨k, nd, hr, hlt, hn⟩ := hf j hj
  exact ⟨k, nd, hr, Nat.lt_succ_of_lt hlt, ((withNode_added s n).read_old hlt).trans hn⟩

/-- With room in the arena and in the heap the next node is created and pushed: no heap position can hold it already. -/
theorem addNode_pushed (hf : HeapFilled s) (hk : s.nnodes < 2 * s.cfg.maxSyms - 1) (hroom : s.hsize < s.cfg.maxSyms)
    (n : TreeNode) :
    ∃ h', addNode s s.nnodes n = .ok { s with
        node := Store.write s.node s.nnodes n, nnodes := s.nnodes + 1, heap := h', hsize := s.hsize + 1 } ∧
      Pushed (Store.write s.node s.nnodes n) s.heap s.hsize s.nnodes h' := by
  have fresh : inHeap (withNode s s.nnodes n) s.nnodes = false := hf.inHeap_of_nnodes_le le_rfl
  obtain ⟨h', e, pushed⟩ := pqPush_pushed (hf.withNode n) (Nat.lt_succ_self _) (withNode_added s n).read_new fresh hroom
  exact ⟨h', except_bind_ok.2 ⟨_, writeNode_ok.2 ⟨hk, rfl⟩, e⟩, pushed⟩

/-! ### `TB.LEAF` -/

/-- Below `SYM_COUNT` the index does not wrap, so the registers compare as the numbers do. -/
theorem succ_lt_iff_of_lt {x y : Word32} (h : x.toNat < y.toNat) : x + 1 < y ↔ x.toNat + 1 < y.toNat := by
  rw [BitVec.lt_def, toNat_succ_of_lt h]

/-- Settles O27: the leaf of entry `IDX` is created and pushed, and `IDX` advances without a wrap. -/
theorem tbLeafEffect : Obligations.TbLeafEffect := by
  intro s e hi hmax hnew he filled hroom
  obtain ⟨h', added, pushed⟩ := addNode_pushed filled (by omega) hroom (leafOf e)
  rw [hnew] at added pushed
  refine ⟨_, h', ?_, store_write_updated _ _ _, pushed⟩
  rw [exec, execTbLeaf, if_neg (by omega), readFt_ok.2 ⟨hi, he⟩, except_ok_bind, added, except_ok_bind, finish_ok]
  simp only [tbLeafNext, pqSize, succ_lt_iff_of_lt hi, Nat.lt_add_one_iff, leafOf]

/-! ### `TB.MERGE` -/

/-- The heap stays filled when the node of an occupied position is copied to another position. -/
theorem FilledTo.write_copy {n i j k : Nat} {h : Store Nat} (hf : FilledTo s n h) (hj : j < n) (hr : Store.read h j = some k) :
    FilledTo s n (Store.write h i k) := by
  intro x hx
  rw [store_read_write]
  split
  · exact hr ▸ hf j hj
  · exact hf x hx

/-- A pop leaves existing nodes in the heap, whether or not it was ordered. -/
theorem HeapFilled.of_pqPop {m : Nat} (hf : HeapFilled s) (h : pqPop s = .ok (m, t)) : HeapFilled t := by
  unfold pqPop at h
  split at h
  · cases h
  obtain ⟨_, -, h⟩ := except_bind_ok.1 h
  dsimp only at h
  split at h
  · cases h
    exact FilledTo.mono hf (Nat.sub_le ..)
  · next hn =>
    obtain ⟨last, hl, h⟩ := except_bind_ok.1 h
    obtain ⟨h', hs, h⟩ := except_bind_ok.1 h
    cases h
    have written : FilledTo s s.hsize (Store.write s.heap 0 last) := FilledTo.write_copy hf (by omega) (heapAt_ok.1 hl)
    obtain ⟨h'', hs', sifted⟩ := siftDown_ok (s.hsize - 1) (written.mono (Nat.sub_le ..)) (Nat.pos_of_ne_zero hn)
    obtain rfl := Except.ok.inj (hs.symm.trans hs')
    exact sifted.filled

/-- A pop from heap array `h` of `n + 1` nodes: what it answers under the decided policies, and the array it leaves. -/
theorem pqPop_from {n : Nat} {h : Store Nat} (tie : s.cfg.tieChild = .left) (stop : s.cfg.siftStop = .strict)
    (hf : FilledTo s (n + 1) h) :
    ∃ m h', pqPop { s with heap := h, hsize := n + 1 } = .ok (m, { s with heap := h', hsize := n }) ∧
      Store.read h 0 = some m ∧ Popped s.node h n h' ∧ FilledTo s n h' := by
  obtain ⟨m, h', pop, root, popped⟩ := pqPop_popped (s := { s with heap := h, hsize := n + 1 }) tie stop hf rfl
  exact ⟨m, h', pop, root, popped, HeapFilled.of_pqPop (s := { s with heap := h, hsize := n + 1 }) hf pop⟩

/-- The node at an occupied position has a frequency to read. -/
theorem FilledTo.freqOf_eq {n j k : Nat} {h : Store Nat} (hf : FilledTo s n h) (hj : j < n) (hr : Store.read h j = some k) :
    freqOf s k = .ok (nodeFreq s.node k) := by
  obtain ⟨k', nd, hr', hlt, hn⟩ := hf j hj
  obtain rfl := Option.some.inj (hr.symm.trans hr')
  exact Machine.freqOf_eq hlt hn

/-- Settles O28: each of the two pops and the push acts on the heap array that the one before it left. -/
theorem tbMergeEffect : Obligations.TbMergeEffect := by
  intro s h2 filled hmax hk tie stop
  obtain ⟨n, hn⟩ : ∃ n, s.hsize = n + 2 := ⟨s.hsize - 2, by omega⟩
  have filled₀ : FilledTo s (n + 2) s.heap := hn ▸ filled
  obtain ⟨a, h₁, pop₁, root₁, popped₁, filled₁⟩ := pqPop_from tie stop filled₀
  obtain ⟨b, h₂, pop₂, root₂, popped₂, filled₂⟩ := pqPop_from tie stop filled₁
  have fa := filled₀.freqOf_eq (Nat.succ_pos _) root₁
  have fb := filled₁.freqOf_eq (Nat.succ_pos _) root₂
  obtain ⟨h₃, added, pushed⟩ := addNode_pushed (s := { s with heap := h₂, hsize := n }) filled₂
    (show s.nnodes < 2 * s.cfg.maxSyms - 1 by omega) (show n < s.cfg.maxSyms by omega)
    (joinOf a b (nodeFreq s.node a) (nodeFreq s.node b))
  rw [← hn] at pop₁
  have more : 1 < n + 1 ↔ 2 < n + 2 := by omega
  rw [hn]
  refine ⟨a, b, h₁, h₂, h₃, _, ?_, root₁, popped₁, root₂, popped₂, store_write_updated _ _ _, pushed⟩
  refine finish_next.2 ((if_neg (not_lt.2 h2)).trans ?_)
  refine except_bind_ok.2 ⟨_, pop₁, except_bind_ok.2 ⟨_, pop₂, except_bind_ok.2 ⟨_, fa, except_bind_ok.2 ⟨_, fb, ?_⟩⟩⟩⟩
  refine except_bind_ok.2 ⟨_, added, ?_⟩
  simp only [tbMergeNext, pqSize, more, joinOf, Nat.reduceSubDiff]

end Sys2Proof.Machine
end

section
/-! PROOFS. The effect of the Bit Stream Decoder's three operations (rules R181 to R184). -/

namespace Sys2Proof.Machine

variable {s : State}

/-! ### `BS.HDR` -/

/-- What `BS.HDR` has written before its second check. -/
def bodyLatched (s : State) : State :=
  { s with
    packedBits := inWord s (entriesEnd s), packedBytes := inWord s (entriesEnd s + 4),
    unpackedBytes := inWord s (entriesEnd s + 8), payloadBase := BitVec.ofNat 64 (entriesEnd s + 12) }

theorem execBsHdr_of_short (h : s.inLen.toNat < entriesEnd s + 12) : execBsHdr s = .next (raise .bodyTrunc s) := by
  rw [execBsHdr, if_pos h, finish_ok]

/-- With a whole body header the three words and `PAYLOAD_BASE` are latched before any further check. -/
theorem execBsHdr_of_body (h : entriesEnd s + 12 ≤ s.inLen.toNat) : execBsHdr s = finish (bsHdrChecks (bodyLatched s)) := by
  rw [execBsHdr, if_neg (not_lt.2 h), memRead4_eq (by omega), memRead4_eq (by omega), memRead4_eq (by omega)]
  simp only [except_ok_bind, bodyLatched]

theorem bsHdrChecks_of_outside (h : s.inLen.toNat < s.payloadBase.toNat + s.packedBytes.toNat) :
    bsHdrChecks s = .ok (raise .payloadTrunc s) := if_pos h

theorem bsHdrChecks_of_tooManyBits (hin : s.payloadBase.toNat + s.packedBytes.toNat ≤ s.inLen.toNat)
    (hbits : 8 * s.packedBytes.toNat < s.packedBits.toNat) : bsHdrChecks s = .ok (raise .bitsExceed s) := by
  rw [bsHdrChecks, if_neg (not_lt.2 hin), if_pos hbits]

theorem bsHdrChecks_of_fits {nd : TreeNode} (hin : s.payloadBase.toNat + s.packedBytes.toNat ≤ s.inLen.toNat)
    (hbits : s.packedBits.toNat ≤ 8 * s.packedBytes.toNat) (hroot : readNodeRef s s.root = .ok nd) :
    bsHdrChecks s =
      .ok { s with cursor := 0, walk := s.root, idx := 0, phase := if nd.leaf then .bsRun1 else .bsBit } := by
  rw [bsHdrChecks, if_neg (not_lt.2 hin), if_neg (not_lt.2 hbits), hroot, except_ok_bind]

/-- Settles O30: the length check, then on the latched state the checks of `BS.HDR` in their order. -/
theorem bsHdrEffect : Obligations.BsHdrEffect := by
  rintro s u B rfl hu
  obtain rfl : u = bodyLatched s := hu
  have base : (bodyLatched s).payloadBase.toNat = 12 + 8 * s.symCount.toNat + 12 := entriesEnd_toNat s
  rw [← base]
  have body {n : Nat} (h : (bodyLatched s).payloadBase.toNat + n ≤ s.inLen.toNat) : entriesEnd s + 12 ≤ s.inLen.toNat :=
    base ▸ (Nat.le_add_right _ n).trans h
  refine ⟨fun hshort => execBsHdr_of_short (base ▸ hshort), fun hbody hout => ?_, fun hin hbits => ?_,
    fun r nd hin hbits hroot hr hnd => ?_⟩
  · exact (execBsHdr_of_body (base ▸ hbody)).trans (finish_next.2 (bsHdrChecks_of_outside hout))
  · exact (execBsHdr_of_body (body hin)).trans (finish_next.2 (bsHdrChecks_of_tooManyBits hin hbits))
  · have root : readNodeRef (bodyLatched s) (bodyLatched s).root = .ok nd := readNodeRef_ok.2 ⟨r, hroot, hr, hnd⟩
    exact (execBsHdr_of_body (body hin)).trans (finish_next.2 (bsHdrChecks_of_fits hin hbits root))

/-! ### Emission -/

theorem emitThen_of_full {x : Byte} {k : State → State} (h : s.outLen.toNat = s.cfg.outCap) :
    emitThen x s k = .ok (raise .out s) := emitThen_ok.2 (.inl ⟨h, rfl⟩)

theorem emitThen_of_room {x : Byte} {k : State → State} (h : s.outLen.toNat < s.cfg.outCap) :
    emitThen x s k =
      .ok (k { s with outBuf := Store.write s.outBuf s.outLen.toNat x, outLen := s.outLen + 1 }) :=
  emitThen_ok.2 (.inr ⟨h, rfl⟩)

/-! ### `BS.BIT` -/

section
variable {k : Nat} {nd c : TreeNode}

theorem execBsBit_of_end (hwalk : readNodeRef s s.walk = .ok nd) (hinner : nd.leaf = false) (hend : s.cursor = s.packedBits) :
    execBsBit s = .next { s with phase := afterDecode s } := by
  rw [execBsBit, hwalk, except_ok_bind, if_neg (Bool.eq_false_iff.1 hinner), if_pos hend, finish_ok]

/-- Before the end one bit is consumed, and it selects the child. -/
theorem execBsBit_of_more (hwalk : readNodeRef s s.walk = .ok nd) (hinner : nd.leaf = false) (hmore : s.cursor ≠ s.packedBits)
    (hin : payloadAddr s < s.inLen.toNat) :
    execBsBit s =
      finish (bsBitArrive { s with cursor := s.cursor + 1 } (if nextBit s then nd.right else nd.left)) := by
  rw [execBsBit, hwalk, except_ok_bind, if_neg (Bool.eq_false_iff.1 hinner), if_neg hmore, payloadBit,
    memRead1_eq hin]
  rfl

/-- At a leaf the symbol is emitted and the walk goes back to the root. -/
theorem bsBitArrive_of_leaf (hk : k < s.nnodes) (hc : Store.read s.node k = some c) (hleaf : c.leaf = true) :
    bsBitArrive s (some k) =
      emitThen c.sym { s with walk := some k } fun t => { t with walk := t.root, phase := .bsBit } := by
  have read : readNode { s with walk := some k } k = .ok c := readNode_ok.2 ⟨hk, hc⟩
  rw [bsBitArrive, read, except_ok_bind, if_pos hleaf]

/-- At an internal node a bit has to be left. -/
theorem bsBitArrive_of_inner (hk : k < s.nnodes) (hc : Store.read s.node k = some c) (hinner : c.leaf = false) :
    bsBitArrive s (some k) =
      if s.cursor = s.packedBits then .ok (raise .outOfBounds { s with walk := some k })
      else .ok { s with walk := some k, phase := .bsBit } := by
  have read : readNode { s with walk := some k } k = .ok c := readNode_ok.2 ⟨hk, hc⟩
  rw [bsBitArrive, read, except_ok_bind, if_neg (Bool.eq_false_iff.1 hinner)]

end

/-- Settles O31: at the end nothing is read; else the bit selects a child, which is absent, a leaf or internal. -/
theorem bsBitEffect : Obligations.BsBitEffect := by
  intro s w nd hw hlt hnd hinner
  have walk : readNodeRef s s.walk = .ok nd := readNodeRef_ok.2 ⟨w, hw, hlt, hnd⟩
  refine ⟨execBsBit_of_end walk hinner, fun hmore hin nxt hnxt => ?_⟩
  have arrive : exec .bsBit s = finish (bsBitArrive { s with cursor := s.cursor + 1 } nxt) :=
    hnxt ▸ execBsBit_of_more walk hinner hmore hin
  refine ⟨fun habsent => ?_, fun k c hnode hk hc => ?_⟩
  · subst habsent
    exact arrive
  · subst hnode
    have leaf (h : c.leaf = true) := arrive.trans (congrArg finish (bsBitArrive_of_leaf hk hc h))
    have inner (h : c.leaf = false) := arrive.trans (congrArg finish (bsBitArrive_of_inner hk hc h))
    refine ⟨fun h hfull => ?_, fun h hroom => ⟨_, ?_, store_write_updated _ _ _⟩, fun h hlast => ?_, fun h hleft => ?_⟩
    · exact (leaf h).trans (finish_next.2 (emitThen_of_full hfull))
    · exact (leaf h).trans (finish_next.2 (emitThen_of_room hroom))
    · exact (inner h).trans (finish_next.2 (if_pos hlast))
    · exact (inner h).trans (finish_next.2 (if_neg hleft))

/-! ### `BS.RUN1` -/

section
variable {nd : TreeNode} {e : FtEntry}

theorem execBsRun1_of_end (hroot : readNodeRef s s.root = .ok nd) (hleaf : nd.leaf = true) (he : readFt s 0 = .ok e)
    (hend : s.idx = e.count) : execBsRun1 s = .next { s with phase := afterDecode s } := by
  rw [execBsRun1, hroot, except_ok_bind, hleaf, if_neg (by decide), he, except_ok_bind, if_pos hend, finish_ok]

theorem execBsRun1_of_more (hroot : readNodeRef s s.root = .ok nd) (hleaf : nd.leaf = true) (he : readFt s 0 = .ok e)
    (hmore : s.idx ≠ e.count) :
    execBsRun1 s = finish (emitThen nd.sym s fun t => { t with idx := t.idx + 1, phase := .bsRun1 }) := by
  rw [execBsRun1, hroot, except_ok_bind, hleaf, if_neg (by decide), he, except_ok_bind, if_neg hmore]

end

/-- Settles O32: the declared count decides between the end and an emission, and the room in `OUT` how the emission goes. -/
theorem bsRun1Effect : Obligations.BsRun1Effect := by
  intro s r nd e hr hlt hnd hleaf hpos he
  have root : readNodeRef s s.root = .ok nd := readNodeRef_ok.2 ⟨r, hr, hlt, hnd⟩
  have entry : readFt s 0 = .ok e := readFt_ok.2 ⟨hpos, he⟩
  refine ⟨execBsRun1_of_end root hleaf entry, fun hmore hfull => ?_, fun hmore hroom => ⟨_, ?_, store_write_updated _ _ _⟩⟩
  · exact (execBsRun1_of_more root hleaf entry hmore).trans (finish_next.2 (emitThen_of_full hfull))
  · exact (execBsRun1_of_more root hleaf entry hmore).trans (finish_next.2 (emitThen_of_room hroom))

end Sys2Proof.Machine
end

section
/-! PROOFS. How a run from an accepted `GO` can end, and what a run of one symbol emits (rules R183, R186, R220, R221, R241 to
R246, R253). -/

namespace Sys2Proof.Machine

variable {s t : State} {v : Bool} {k : Nat}

/-! ### A run from `GO` -/

/-- A run writes nothing of what only `GO` writes. -/
theorem Alone.stepN_runPart (ha : Alone s) (hk : stepN k s = some t) : runPart t = runPart s := by
  induction k generalizing s with
  | zero => exact Option.some.inj hk ▸ rfl
  | succ k ih =>
    obtain ⟨u, hu, hk⟩ := stepN_succ_some.1 hk
    obtain ⟨he, ha'⟩ := ha.step hu
    exact (ih ha' hk).trans (exec_phaseInstr_runPart he)

theorem validateEn_of_run (ha : Alone s) (hk : stepN k (startRun v s) = some t) : t.validateEn = v := by
  have kept := Alone.stepN_runPart (s := startRun v s) ha hk
  simp only [runPart, Prod.mk.injEq] at kept
  obtain ⟨-, -, hv⟩ := kept
  exact hv

theorem phaseInv_of_run (ha : Alone s) (hk : stepN k (startRun v s) = some t) : PhaseInv t :=
  ((runInv_startRun v s).stepN (show Alone (startRun v s) from ha) hk).phase

/-! ### The record of an error -/

/-- Before an error nothing is recorded (rules R243, R253). -/
theorem PhaseInv.noError (h : PhaseInv s) (hp : s.phase ≠ .haltErr) : NoError s := by
  unfold PhaseInv at h
  cases hs : s.phase <;> simp only [hs] at h
  case idle => exact h
  case haltErr => exact absurd hs hp
  all_goals
    obtain ⟨clean, -⟩ := h
    exact clean

/-- A dead end is no outcome: over the built tree every internal node has both children (rules R165, R185). -/
theorem ErrorRecord.not_deadEnd (h : ErrorRecord s) : ¬(s.errCode = 2 ∧ s.errSub = 1) := by
  rintro ⟨hcode, hsub⟩
  cases h with
  | midCode _ sub => exact absurd (sub.symm.trans hsub) (by decide)
  | format code | mismatch code | tooManySymbols code | outputFull code =>
    exact absurd (code.symm.trans hcode) (by decide)

theorem PhaseInv.not_deadEnd (h : PhaseInv s) : ¬(s.errCode = 2 ∧ s.errSub = 1) := by
  by_cases hp : s.phase = .haltErr
  · simp only [PhaseInv, hp] at h
    exact h.not_deadEnd
  · obtain ⟨hcode, -⟩ := h.noError hp
    rintro ⟨hcode', -⟩
    exact absurd (hcode.symm.trans hcode') (by decide)

/-! ### The outcomes -/

/-- Settles O50: the invariant of a run says at each halt what the run has recorded and decoded. -/
theorem runOutcome : Obligations.RunOutcome := by
  intro s v k t ha _ hk
  have inv := phaseInv_of_run ha hk
  refine ⟨fun hp => ?_, fun hp => ?_, inv.not_deadEnd⟩
  · simp only [PhaseInv, hp, validateEn_of_run ha hk] at inv
    exact inv
  · simpa only [PhaseInv, hp] using inv

/-- With one table entry every emitted byte is its symbol, emitted its declared count of times (rule R183). -/
theorem Decoded.single_output (h : Decoded s) (h1 : s.symCount.toNat = 1) :
    ∃ e, Store.read s.ft 0 = some e ∧ s.outLen = e.count ∧ s.cursor = 0 ∧
      ∀ j, j < s.outLen.toNat → Store.read s.outBuf j = some e.sym := by
  obtain ⟨e, he⟩ := h.table.listed 0 (by omega)
  obtain ⟨hcursor, hlen⟩ := h.single h1
  have count : countOf s 0 = e.count.toNat := by simp only [countOf, he]
  refine ⟨e, he, BitVec.eq_of_toNat_eq (hlen.trans count), hcursor, fun j hj => ?_⟩
  obtain ⟨i, f, hi, hf, hout⟩ := h.emitted j hj
  obtain rfl : i = 0 := by omega
  obtain rfl := Option.some.inj (he.symm.trans hf)
  exact hout

/-- Settles O54: the one symbol is the only one to emit, and the complete decode counts its emissions. -/
theorem singleSymbolOutput : Obligations.SingleSymbolOutput := by
  intro s v k t ha hrest hk hp h1
  obtain ⟨done, -⟩ := runOutcome s v k t ha hrest hk
  obtain ⟨-, decoded, -⟩ := done hp
  exact decoded.single_output (congrArg BitVec.toNat h1)

end Sys2Proof.Machine
end

section
/-! PROOFS. The effect of the Validator's three operations (rules R201 to R203). -/

namespace Sys2Proof.Machine

variable {s : State}

/-- Below its bound a register does not wrap, so its successor compares as the numbers do. -/
theorem succ_eq_iff_of_lt {x y : Word32} (h : x.toNat < y.toNat) : x + 1 = y ↔ x.toNat + 1 = y.toNat := by
  rw [← toNat_succ_of_lt h, BitVec.toNat_inj]

/-- Settles O33: the next phase is the only thing that depends on the state. -/
theorem vlInitEffect : Obligations.VlInitEffect := fun _ => ⟨zeroTallies, rfl, read_zeroTallies⟩

theorem execVlTally_of_byte {x : Byte} {v : Word32} (hi : s.idx.toNat < s.outLen.toNat)
    (hx : Store.read s.outBuf s.idx.toNat = some x) (hv : Store.read s.obs x.toNat = some v) :
    execVlTally s = .next (vlTallyNext (writeObs s x (v + 1))) := by
  rw [execVlTally, if_neg (not_le.2 hi), readOut_ok.2 ⟨hi, hx⟩, except_ok_bind, readObs_ok.2 hv, except_ok_bind, finish_ok]

/-- Settles O34: a tally of at most `IDX` is below `OUT_LEN`, so neither it nor `IDX` wraps. -/
theorem vlTallyEffect : Obligations.VlTallyEffect := by
  intro s x v hi hx hv
  have run := execVlTally_of_byte hi hx hv
  refine ⟨_, store_write_updated _ _ _, fun hle => toNat_succ_of_lt (hle.trans_lt hi), fun hlast => ?_, fun hmore => ?_⟩
  · exact run.trans (congrArg _ (if_pos ((succ_eq_iff_of_lt hi).2 hlast)))
  · exact run.trans (congrArg _ (if_neg (mt (succ_eq_iff_of_lt hi).1 hmore)))

theorem execVlCmp_of_entry {e : FtEntry} {v : Word32} (hi : s.idx.toNat < s.symCount.toNat)
    (he : Store.read s.ft s.idx.toNat = some e) (hv : Store.read s.obs e.sym.toNat = some v) :
    execVlCmp s = .next (if v ≠ e.count then raise (.countMismatch e.sym e.count v) s else vlCmpNext s) := by
  rw [execVlCmp, if_neg (not_le.2 hi), readFt_ok.2 ⟨hi, he⟩, except_ok_bind, readObs_ok.2 hv, except_ok_bind,
    ← apply_ite Except.ok, finish_ok]

/-- Settles O35: the comparison of the tally with the declared count decides. -/
theorem vlCmpEffect : Obligations.VlCmpEffect := by
  intro s e v hi he hv
  have run := execVlCmp_of_entry hi he hv
  refine ⟨fun hdiff => run.trans (congrArg _ (if_pos hdiff)), fun hsame => ?_⟩
  refine (run.trans (congrArg _ (if_neg (not_not.2 hsame)))).trans ?_
  simp only [vlCmpNext, succ_eq_iff_of_lt hi]

end Sys2Proof.Machine
end

section
/-! PROOFS. A run with `VAL` = 1 beside the run with `VAL` = 0 from the same state (rules R204, R205): the two agree, but for
`VALIDATE_EN`, until decoding ends without error; then the one is DONE and the other validates, which leaves the output. -/

namespace Sys2Proof.Machine

variable {s t u : State} {k : Nat}

/-! ### The two states side by side -/

/-- The same state with `VALIDATE_EN` set. -/
def validating (s : State) : State := { s with validateEn := true }

/-- Where the first computation answers a state, the second answers that state with `VALIDATE_EN` set. -/
abbrev Mirror (x y : Except Fault State) : Prop := Sim (fun u v => v = validating u) x y

theorem Mirror.bind {x y : Except Fault State} {f g : State → Except Fault State} (h : Mirror x y)
    (hfg : ∀ u, Mirror (f u) (g (validating u))) : Mirror (x >>= f) (y >>= g) := by
  refine Sim.bind h ?_
  rintro u _ - rfl
  exact hfg u

/-- What one operation from `s` and from `validating s` makes of the two: they still differ in `VALIDATE_EN` only, or decoding
ended, after which only the second run validates (rule R222). -/
def Beside (s u v : State) : Prop :=
  v = validating u ∨ (u = { s with phase := afterDecode s } ∧ v = { validating s with phase := .vlInit })

/-- The first operation's next state has its counterpart after the second. -/
def Parallel (s : State) (o o' : Host.Outcome State Fault Refusal) : Prop :=
  ∀ u, o = .next u → ∃ v, o' = .next v ∧ Beside s u v

theorem parallel_finish {x y : Except Fault State} (h : Sim (Beside s) x y) : Parallel s (finish x) (finish y) := by
  intro u hu
  obtain ⟨v, hv, huv⟩ := h u (finish_next.1 hu)
  exact ⟨v, finish_next.2 hv, huv⟩

theorem parallel_next {v : State} (h : v = validating u) : Parallel s (.next u) (.next v) := by
  rintro _ ⟨⟩
  exact ⟨v, rfl, .inl h⟩

theorem Mirror.beside {x y : Except Fault State} (h : Mirror x y) : Sim (Beside s) x y := by
  intro u hu
  obtain ⟨v, hv, huv⟩ := h u hu
  exact ⟨v, hv, .inl huv⟩

theorem Mirror.parallel {x y : Except Fault State} (h : Mirror x y) : Parallel s (finish x) (finish y) :=
  parallel_finish h.beside

/-! ### The Frequency Table Reader -/

theorem ftHdrChecks_validating (s : State) : ftHdrChecks (validating s) = validating (ftHdrChecks s) := by
  simp only [ftHdrChecks, apply_ite validating]
  rfl

theorem execFtHdr_parallel (s : State) : Parallel s (execFtHdr s) (execFtHdr (validating s)) := by
  refine Mirror.parallel (Sim.ite (c := s.inLen.toNat < 12) Iff.rfl (fun _ => Sim.ok rfl) fun _ => ?_)
  refine Sim.bind_eq rfl fun total _ => Sim.bind_eq rfl fun reserved _ => Sim.bind_eq rfl fun n _ => Sim.ok ?_
  exact ftHdrChecks_validating { s with hdrTotalLen := total, hdrReserved := reserved, symCount := n }

theorem execFtEnt_parallel (s : State) : Parallel s (execFtEnt s) (execFtEnt (validating s)) := by
  refine Mirror.parallel (Sim.ite Iff.rfl (fun _ => Sim.error) fun _ => ?_)
  refine Sim.bind_eq rfl fun count _ => Sim.bind_eq rfl fun x _ => ?_
  refine (writeFt_alike (s := s) (t := validating s) rfl rfl { count := count, sym := x }).bind ?_
  rintro _ _ - ⟨rfl, rfl⟩
  exact Sim.ok rfl

/-! ### The Tree Builder -/

theorem execTbInit_parallel (s : State) : Parallel s (execTbInit s) (execTbInit (validating s)) := by
  refine parallel_next ?_
  rw [apply_ite validating]
  rfl

theorem heapKey_validating (s : State) : heapKey (validating s) = heapKey s := rfl

theorem siftUp_validating (s : State) (fuel j : Nat) (h : Store Nat) : siftUp (validating s) fuel j h = siftUp s fuel j h := by
  induction fuel generalizing j h with
  | zero => rfl
  | succ fuel ih => simp only [siftUp, heapKey_validating, ih]

theorem siftDown_validating (s : State) (n fuel j : Nat) (h : Store Nat) :
    siftDown (validating s) n fuel j h = siftDown s n fuel j h := by
  have child : chosenChild (validating s) = chosenChild s := rfl
  have cfg : (validating s).cfg = s.cfg := rfl
  induction fuel generalizing j h with
  | zero => rfl
  | succ fuel ih => simp only [siftDown, heapKey_validating, child, cfg, ih]

theorem pqPush_mirror (k : Nat) (s : State) : Mirror (pqPush k s) (pqPush k (validating s)) :=
  Sim.ite Iff.rfl (fun _ => Sim.error) fun _ => Sim.ite Iff.rfl (fun _ => Sim.error) fun _ =>
    Sim.bind_eq (siftUp_validating s _ _ _).symm fun _ _ => Sim.ok rfl

theorem pqPop_mirror (s : State) :
    Sim (fun p q => q = (p.1, validating p.2)) (pqPop s) (pqPop (validating s)) := by
  refine Sim.ite Iff.rfl (fun _ => Sim.error) fun _ => Sim.bind_eq rfl fun m _ => ?_
  refine Sim.ite Iff.rfl (fun _ => Sim.ok rfl) fun _ => Sim.bind_eq rfl fun last _ => ?_
  exact Sim.bind_eq (siftDown_validating s _ _ _ _).symm fun _ _ => Sim.ok rfl

theorem addNode_mirror (s : State) (k : Nat) (n : TreeNode) : Mirror (addNode s k n) (addNode (validating s) k n) := by
  intro u hu
  obtain ⟨w, hw, hu⟩ := except_bind_ok.1 hu
  obtain ⟨hk, rfl⟩ := writeNode_ok.1 hw
  obtain ⟨v, hv, rfl⟩ := pqPush_mirror k (withNode s k n) u hu
  exact ⟨_, except_bind_ok.2 ⟨_, writeNode_ok.2 ⟨hk, rfl⟩, hv⟩, rfl⟩

theorem execTbLeaf_parallel (s : State) : Parallel s (execTbLeaf s) (execTbLeaf (validating s)) := by
  refine Mirror.parallel (Sim.ite Iff.rfl (fun _ => Sim.error) fun _ => Sim.bind_eq rfl fun e _ => ?_)
  exact (addNode_mirror s _ _).bind fun _ => Sim.ok rfl

theorem execTbMerge_parallel (s : State) : Parallel s (execTbMerge s) (execTbMerge (validating s)) := by
  refine Mirror.parallel (Sim.ite Iff.rfl (fun _ => Sim.error) fun _ => (pqPop_mirror s).bind ?_)
  rintro ⟨a, s₁⟩ _ - rfl
  refine (pqPop_mirror s₁).bind ?_
  rintro ⟨b, s₂⟩ _ - rfl
  refine Sim.bind_eq rfl fun fa _ => Sim.bind_eq rfl fun fb _ => ?_
  exact (addNode_mirror s₂ _ _).bind fun _ => Sim.ok rfl

theorem execTbRoot_parallel (s : State) : Parallel s (execTbRoot s) (execTbRoot (validating s)) := by
  refine Mirror.parallel (Sim.ite Iff.rfl (fun _ => Sim.error) fun _ => (pqPop_mirror s).bind ?_)
  rintro ⟨r, s₁⟩ _ - rfl
  exact Sim.ok rfl

/-! ### The Bit Stream Decoder -/

theorem bsHdrChecks_mirror (s : State) : Mirror (bsHdrChecks s) (bsHdrChecks (validating s)) :=
  Sim.ite Iff.rfl (fun _ => Sim.ok rfl) fun _ => Sim.ite Iff.rfl (fun _ => Sim.ok rfl) fun _ =>
    Sim.bind_eq rfl fun _ _ => Sim.ok rfl

theorem execBsHdr_parallel (s : State) : Parallel s (execBsHdr s) (execBsHdr (validating s)) := by
  refine Mirror.parallel (Sim.ite Iff.rfl (fun _ => Sim.ok rfl) fun _ => ?_)
  refine Sim.bind_eq rfl fun bits _ => Sim.bind_eq rfl fun bytes _ => Sim.bind_eq rfl fun unpacked _ => ?_
  exact bsHdrChecks_mirror _

theorem emitThen_mirror {x : Byte} {f : State → State} (hf : ∀ t, f (validating t) = validating (f t)) :
    Mirror (emitThen x s f) (emitThen x (validating s) f) := by
  intro u hu
  rcases emitThen_ok.1 hu with ⟨hfull, rfl⟩ | ⟨hroom, rfl⟩
  · exact ⟨_, emitThen_ok.2 (.inl ⟨hfull, rfl⟩), rfl⟩
  · exact ⟨_, emitThen_ok.2 (.inr ⟨hroom, rfl⟩),
      hf { s with outBuf := Store.write s.outBuf s.outLen.toNat x, outLen := s.outLen + 1 }⟩

theorem bsBitArrive_mirror (s : State) (nxt : NodeRef) : Mirror (bsBitArrive s nxt) (bsBitArrive (validating s) nxt) := by
  cases nxt with
  | none => exact Sim.ok rfl
  | some k =>
    refine Sim.bind_eq rfl fun n _ => Sim.ite Iff.rfl (fun _ => emitThen_mirror fun _ => rfl) fun _ => ?_
    exact Sim.ite Iff.rfl (fun _ => Sim.ok rfl) fun _ => Sim.ok rfl

theorem execBsBit_parallel (s : State) : Parallel s (execBsBit s) (execBsBit (validating s)) := by
  refine parallel_finish (Sim.bind_eq rfl fun w _ => Sim.ite Iff.rfl (fun _ => Sim.error) fun _ => ?_)
  refine Sim.ite Iff.rfl (fun _ => Sim.ok (.inr ⟨rfl, rfl⟩)) fun _ => Sim.bind_eq rfl fun bit _ => ?_
  exact (bsBitArrive_mirror _ _).beside

theorem execBsRun1_parallel (s : State) : Parallel s (execBsRun1 s) (execBsRun1 (validating s)) := by
  refine parallel_finish (Sim.bind_eq rfl fun r _ => Sim.ite Iff.rfl (fun _ => Sim.error) fun _ => ?_)
  refine Sim.bind_eq rfl fun e _ => Sim.ite Iff.rfl (fun _ => Sim.ok (.inr ⟨rfl, rfl⟩)) fun _ => ?_
  exact Mirror.beside (emitThen_mirror fun _ => rfl)

/-! ### The Validator -/

theorem vlTallyNext_validating (s : State) : vlTallyNext (validating s) = validating (vlTallyNext s) := by
  rw [vlTallyNext, vlTallyNext, apply_ite validating]
  rfl

theorem execVlTally_parallel (s : State) : Parallel s (execVlTally s) (execVlTally (validating s)) := by
  refine Mirror.parallel (Sim.ite Iff.rfl (fun _ => Sim.error) fun _ => ?_)
  exact Sim.bind_eq rfl fun x _ => Sim.bind_eq rfl fun v _ => Sim.ok (vlTallyNext_validating (writeObs s x (v + 1)))

theorem execVlCmp_parallel (s : State) : Parallel s (execVlCmp s) (execVlCmp (validating s)) := by
  refine Mirror.parallel (Sim.ite Iff.rfl (fun _ => Sim.error) fun _ => ?_)
  refine Sim.bind_eq rfl fun e _ => Sim.bind_eq rfl fun v _ => ?_
  exact Sim.ite Iff.rfl (fun _ => Sim.ok rfl) fun _ => Sim.ok rfl

/-! ### Any operation, and a run -/

/-- Only the end of decoding looks at `VALIDATE_EN` (rules R29, R222). -/
theorem exec_parallel (s : State) : Parallel s (exec (phaseInstr s.phase) s) (exec (phaseInstr s.phase) (validating s)) := by
  cases s.phase with
  | idle | haltDone | haltErr | vlInit => exact parallel_next rfl
  | ftHdr => exact execFtHdr_parallel s
  | ftEnt => exact execFtEnt_parallel s
  | tbInit => exact execTbInit_parallel s
  | tbLeaf => exact execTbLeaf_parallel s
  | tbMerge => exact execTbMerge_parallel s
  | tbRoot => exact execTbRoot_parallel s
  | bsHdr => exact execBsHdr_parallel s
  | bsBit => exact execBsBit_parallel s
  | bsRun1 => exact execBsRun1_parallel s
  | vlTally => exact execVlTally_parallel s
  | vlCmp => exact execVlCmp_parallel s

/-- A resting block left to itself stays as it is. -/
theorem stepN_of_rest (ha : Alone s) (hb : runState s.phase ≠ .busy) (k : Nat) : stepN k s = some s := by
  induction k with
  | zero => rfl
  | succ k ih => exact stepN_succ_some.2 ⟨s, (step_of_alone ha).trans (exec_of_rest hb), ih⟩

/-- Beside a run without validation: the run with it is at the same point, or the one is DONE where the other began to
validate. -/
theorem stepN_validating (ha : Alone s) (hv : s.validateEn = false) (hk : stepN k s = some u) :
    stepN k (validating s) = some (validating u) ∨
      (u.phase = .haltDone ∧ ∃ j, stepN j (validating s) = some { validating u with phase := .vlInit }) := by
  induction k generalizing s with
  | zero => exact .inl (Option.some.inj hk ▸ rfl)
  | succ k ih =>
    obtain ⟨t, hst, hk⟩ := stepN_succ_some.1 hk
    obtain ⟨hexec, ha'⟩ := ha.step hst
    obtain ⟨w, hw, hbeside⟩ := exec_parallel s t hexec
    have step' : step (validating s) = .next w := (step_of_alone (s := validating s) ha).trans hw
    rcases hbeside with rfl | ⟨rfl, rfl⟩
    · have hv' : t.validateEn = false := by
        have kept := exec_phaseInstr_runPart hexec
        simp only [runPart, Prod.mk.injEq] at kept
        obtain ⟨-, -, validateEn⟩ := kept
        exact validateEn.trans hv
      rcases ih ha' hv' hk with same | ⟨done, j, hj⟩
      · exact .inl (stepN_succ_some.2 ⟨_, step', same⟩)
      · exact .inr ⟨done, j + 1, stepN_succ_some.2 ⟨_, step', hj⟩⟩
    · have done : afterDecode s = .haltDone := by rw [afterDecode, hv]; rfl
      rw [done] at ha' hk
      obtain rfl := Option.some.inj ((stepN_of_rest ha' nofun k).symm.trans hk)
      exact .inr ⟨rfl, 1, stepN_succ_some.2 ⟨_, step', rfl⟩⟩

/-! ### Validation leaves the output -/

/-- From `s` on the block did nothing but validate: the output is that of `s`, and the one error is a `ValidationError`. -/
structure Validates (s t : State) : Prop where
  outLen : t.outLen = s.outLen
  outBuf : t.outBuf = s.outBuf
  phase : t.phase = .vlInit ∨ t.phase = .vlTally ∨ t.phase = .vlCmp ∨ t.phase = .haltDone ∨
    (t.phase = .haltErr ∧ t.errCode = 3)

theorem validates_start (s : State) : Validates s { validating s with phase := .vlInit } := ⟨rfl, rfl, .inl rfl⟩

theorem Validates.exec (h : Validates s t) (hu : exec (phaseInstr t.phase) t = .next u) : Validates s u := by
  obtain ⟨len, buf, hp⟩ := h
  rcases hp with hp | hp | hp | hp | ⟨hp, hcode⟩ <;> rw [hp] at hu
  · obtain rfl := Host.Outcome.next.inj hu
    refine ⟨len, buf, ?_⟩
    by_cases h0 : t.outLen = 0
    · exact .inr (.inr (.inl (if_pos h0)))
    · exact .inr (.inl (if_neg h0))
  · obtain ⟨-, x, v, -, -, rfl⟩ := execVlTally_next hu
    rcases vlTallyNext_cases (writeObs t x (v + 1)) with ⟨-, e⟩ | ⟨-, e⟩ <;> rw [e]
    · exact ⟨len, buf, .inr (.inr (.inl rfl))⟩
    · exact ⟨len, buf, .inr (.inl rfl)⟩
  · obtain ⟨-, e, v, -, -, ⟨-, rfl⟩ | ⟨-, rfl⟩⟩ := execVlCmp_next hu
    · exact ⟨len, buf, .inr (.inr (.inr (.inr ⟨rfl, rfl⟩)))⟩
    · rcases vlCmpNext_cases t with ⟨-, e⟩ | ⟨-, e⟩ <;> rw [e]
      · exact ⟨len, buf, .inr (.inr (.inr (.inl rfl)))⟩
      · exact ⟨len, buf, .inr (.inr (.inl rfl))⟩
  · obtain rfl := Host.Outcome.next.inj hu
    exact ⟨len, buf, .inr (.inr (.inr (.inl hp)))⟩
  · obtain rfl := Host.Outcome.next.inj hu
    exact ⟨len, buf, .inr (.inr (.inr (.inr ⟨hp, hcode⟩)))⟩

theorem Validates.stepN (h : Validates s t) (ha : Alone t) (hk : stepN k t = some u) : Validates s u := by
  induction k generalizing t with
  | zero => exact Option.some.inj hk ▸ h
  | succ k ih =>
    obtain ⟨w, hw, hk⟩ := stepN_succ_some.1 hk
    obtain ⟨hexec, ha'⟩ := ha.step hw
    exact ih (h.exec hexec) ha' hk

theorem Validates.outcome (h : Validates s t) (hend : Ended t) :
    t.phase = .haltDone ∨ (t.phase = .haltErr ∧ t.errCode = 3) := by
  have phase := h.phase
  rcases hend with hp | hp
  · exact .inl hp
  · simp only [hp, reduceCtorEq, false_or, true_and] at phase
    exact .inr ⟨hp, phase⟩

/-- Runs one after the other are one run. -/
theorem stepN_add {j : Nat} (hj : stepN j s = some t) (hk : stepN k t = some u) : stepN (j + k) s = some u := by
  induction j generalizing s with
  | zero => rw [Nat.zero_add, Option.some.inj hj, hk]
  | succ j ih =>
    obtain ⟨w, hw, hj⟩ := stepN_succ_some.1 hj
    rw [Nat.succ_add]
    exact stepN_succ_some.2 ⟨w, hw, ih hj⟩

theorem outputOf_congr (hl : t.outLen = s.outLen) (hb : t.outBuf = s.outBuf) : outputOf t = outputOf s := by
  rw [outputOf, outputOf, hl, hb]

/-- Settles O57: the run with validation ends where the other does, or goes on from there through the Validator alone. -/
theorem validationLeavesOutput : Obligations.ValidationLeavesOutput := by
  intro s ha _
  have plain : Alone (startRun false s) := ha
  have checked : Alone (startRun true s) := ha
  obtain ⟨k, u, hk, hend, -⟩ := (runInv_startRun false s).ends plain (.inl rfl)
  rcases stepN_validating plain rfl hk with same | ⟨done, j, hj⟩
  · exact ⟨k, k, u, validating u, hk, hend, same, hend, rfl, rfl, fun herr => ⟨herr, rfl, rfl, rfl⟩, .inl⟩
  · have alone : Alone { validating u with phase := .vlInit } :=
      checked.of_givenPart (congrArg Prod.fst (checked.stepN_runPart hj))
    obtain ⟨m, w, hm, hend', -⟩ := ((runInv_startRun true s).stepN checked hj).ends alone (.inl rfl)
    have validates : Validates u w := (validates_start u).stepN alone hm
    exact ⟨k, j + m, u, w, hk, hend, stepN_add hj hm, hend', outputOf_congr validates.outLen validates.outBuf,
      validates.outLen, fun herr => absurd (done.symm.trans herr) nofun, fun _ => validates.outcome hend'⟩

end Sys2Proof.Machine
end

section
/-! PROOFS. The host's command and the resting block: what starts a run, and what leaves `IDLE` or a halt (rules R216 to R221,
R254, R255, R281). -/

namespace Sys2Proof.Machine

variable {s t : State}

/-! ### The command `GO` (rules R216, R218) -/

/-- An accepted `GO` starts a run (rule R216). -/
theorem execGo_of_rest (hb : runState s.phase ≠ .busy) (v : Bool) : execGo v s = .next (startRun v s) :=
  if_neg (Bool.eq_false_iff.1 (busy_eq_false.2 hb))

/-- `GO` is dropped while BUSY (rule R218). -/
theorem execGo_of_busy (hb : runState s.phase = .busy) (v : Bool) : execGo v s = .next s := if_pos (busy_eq_true.2 hb)

/-- Settles O10: one case for each value of the BUSY test. -/
theorem goCompletes : Obligations.GoCompletes := fun _ v => ⟨fun hb => execGo_of_rest hb v, fun hb => execGo_of_busy hb v⟩

/-- The low 32 bits of the value written are the command word. -/
theorem getLsbD_ctrl (v : Word64) : (v.setWidth 32).getLsbD 0 = v.getLsbD 0 ∧ (v.setWidth 32).getLsbD 1 = v.getLsbD 1 := by
  simp

theorem hostAct_writeCtrl_none {v : Word64} (h : v.getLsbD 0 = false) : hostAct (.writeReg 0 v) s = .next s := by
  obtain ⟨bit0, -⟩ := getLsbD_ctrl v
  simp only [hostAct, hostWriteReg, hostWriteCtrl, decode_cmd_none (bit0.trans h), if_true]

theorem hostAct_writeCtrl_go {v : Word64} (h : v.getLsbD 0 = true) :
    hostAct (.writeReg 0 v) s = execGo (v.getLsbD 1) s := by
  obtain ⟨bit0, bit1⟩ := getLsbD_ctrl v
  rw [hostAct_writeCtrl (decode_cmd_go (bit0.trans h)), bit1, exec]

/-- Settles O9: bit 0 decides whether the word is a command, and the BUSY test whether the command is accepted. -/
theorem commandWriteStartsRun : Obligations.CommandWriteStartsRun := fun s v =>
  ⟨hostAct_writeCtrl_none, fun h hb => (hostAct_writeCtrl_go h).trans (execGo_of_busy hb _), fun h hb =>
    ⟨startRun (v.getLsbD 1) s, (hostAct_writeCtrl_go h).trans (execGo_of_rest hb _), rfl, rfl⟩⟩

/-! ### The resting block (rules R219 to R221) -/

theorem not_busy_iff : runState s.phase ≠ .busy ↔ s.phase = .idle ∨ s.phase = .haltDone ∨ s.phase = .haltErr := by
  cases s.phase <;> decide

/-- Settles O11: the three operations answer the state they are given, and a resting block selects one of them. -/
theorem restingOperationsChangeNothing : Obligations.RestingOperationsChangeNothing := fun _ =>
  ⟨rfl, rfl, rfl, fun hin hp hrest => (step_of_alone ⟨hin, hp⟩).trans (exec_of_rest (not_busy_iff.2 hrest))⟩

/-! ### Leaving rest (rules R254, R255, R281) -/

/-- `PHASE` and the two fields of `STATUS` that record an error. -/
def haltPart (s : State) : Phase × BitVec 3 × BitVec 4 := (s.phase, s.errCode, s.errSub)

/-- A write to a register other than `CTRL` sets at most `IN_LEN`. -/
theorem hostWriteReg_haltPart {n : Nat} {v : Word64} (hn : n ≠ 0) (h : hostWriteReg n v s = .next t) :
    haltPart t = haltPart s := by
  rw [hostWriteReg, if_neg hn] at h
  split at h
  · split at h
    · cases h
    · obtain rfl := Host.Outcome.next.inj h
      rfl
  · obtain rfl := Host.Outcome.next.inj h
    rfl

/-- An access of the host leaves `PHASE` and the recorded error alone, or it is a command that starts a run, or a reset. -/
theorem hostAct_haltPart {a : HostAction} (h : hostAct a s = .next t) :
    haltPart t = haltPart s ∨ (∃ v, a = .writeReg 0 v ∧ v.getLsbD 0 = true ∧ t.phase = .ftHdr) ∨
      (a = .reset ∧ t.phase = .idle) := by
  cases a with
  | writeReg n v =>
    by_cases hn : n = 0
    · subst hn
      cases hv : v.getLsbD 0 with
      | false =>
        obtain rfl := Host.Outcome.next.inj ((hostAct_writeCtrl_none hv).symm.trans h)
        exact .inl rfl
      | true =>
        rcases execGo_next ((hostAct_writeCtrl_go hv).symm.trans h) with ⟨-, rfl⟩ | ⟨-, rfl⟩
        · exact .inl rfl
        · exact .inr (.inl ⟨v, rfl, hv, rfl⟩)
    · exact .inl (hostWriteReg_haltPart hn h)
  | writeIn n b =>
    obtain ⟨-, -, rfl⟩ := hostWriteIn_next h
    exact .inl rfl
  | readReg _ | readIn _ | readOut _ =>
    obtain rfl := Host.Outcome.next.inj h
    exact .inl rfl
  | reset =>
    obtain rfl := Host.Outcome.next.inj h
    exact .inr (.inr ⟨rfl, rfl⟩)

/-- A step of a resting block leaves `PHASE` and the recorded error alone, or it is a command that starts a run, or a reset. -/
theorem step_haltPart (hport : s.pqPort = none) (hrest : runState s.phase ≠ .busy) (h : step s = .next t) :
    haltPart t = haltPart s ∨
      (∃ v rest, s.inputs = .host (.writeReg 0 v) :: rest ∧ v.getLsbD 0 = true ∧ t.phase = .ftHdr) ∨
      (∃ rest, s.inputs = .host .reset :: rest ∧ t.phase = .idle) := by
  have block {u : State} (hport : u.pqPort = none) (hrest : runState u.phase ≠ .busy) (h : blockStep u = .next t) :
      haltPart t = haltPart u := by
    rw [blockStep_of_no_request hport, exec_of_rest hrest] at h
    rw [Host.Outcome.next.inj h]
  cases hin : s.inputs with
  | nil => exact .inl (block hport hrest (step_no_inputs hin ▸ h))
  | cons i rest =>
    cases i with
    | block => exact .inl (block (u := { s with inputs := rest }) hport hrest (step_block_input hin ▸ h))
    | host a =>
      rcases hostAct_haltPart (step_host_input hin ▸ h) with same | ⟨v, rfl, hv, hp⟩ | ⟨rfl, hp⟩
      · exact .inl same
      · exact .inr (.inl ⟨v, rest, rfl, hv, hp⟩)
      · exact .inr (.inr ⟨rest, rfl, hp⟩)

/-- Settles O12: the block's own step changes nothing at rest, and of the host's accesses only `GO` and reset write `PHASE`. -/
theorem onlyGoOrResetLeavesRest : Obligations.OnlyGoOrResetLeavesRest := by
  intro s t hport hrest h
  rcases step_haltPart hport (not_busy_iff.2 hrest) h with same | ⟨v, rest, hin, hv, hp⟩ | ⟨rest, hin, hp⟩
  · exact .inl (congrArg Prod.fst same)
  · exact .inr (.inl ⟨hp, v, rest, hin, hv⟩)
  · exact .inr (.inr ⟨hp, rest, hin⟩)

/-- Settles O48: under the invariant an error is recorded only in `HALT.ERR`, where the block rests. -/
theorem errorsDoNotNest : Obligations.ErrorsDoNotNest := by
  intro s t inv herr h
  have halted : s.phase = .haltErr := by
    by_contra hp
    obtain ⟨hcode, -⟩ := inv.phase.noError hp
    exact herr hcode
  rcases step_haltPart inv.port (not_busy_iff.2 (.inr (.inr halted))) h with same | ⟨v, rest, hin, hv, -⟩ | ⟨rest, hin, -⟩
  · simp only [haltPart, Prod.mk.injEq] at same
    obtain ⟨hp, hcode, hsub⟩ := same
    exact .inl ⟨hcode, hsub, hp.trans halted⟩
  · exact .inr (.inl ⟨v, rest, hin, hv⟩)
  · exact .inr (.inr ⟨rest, hin⟩)

end Sys2Proof.Machine
end

section
/-! PROOFS. Every run ends within the bound of rule R224, and the successors of rule R222. -/

namespace Sys2Proof.Machine

variable {s t : State}

/-! ### Termination (rule R224) -/

/-- At a halt the count of a run's operations is the bound itself. -/
theorem Ended.elapsed_eq (h : Ended s) : elapsed s = operationBound s := by
  rcases h with hp | hp <;> simp only [elapsed, hp]

/-- Settles O49: each operation of a run raises the count of operations, and at a halt the count is the bound. -/
theorem everyRunEnds : Obligations.EveryRunEnds := by
  intro s v ha hrest
  obtain ⟨k, t, hk, hend, hle⟩ := (runInv_startRun v s).ends (show Alone (startRun v s) from ha) (.inl rfl)
  exact ⟨k, t, execGo_of_rest hrest v, hk, hend, (Nat.le_add_right k _).trans (hle.trans_eq hend.elapsed_eq)⟩

/-! ### Successors (rule R222) -/

theorem execFtHdr_successor (h : execFtHdr s = .next t) :
    t.phase = .haltErr ∨ (t.symCount ≠ 0 ∧ t.phase = .ftEnt) ∨ (t.symCount = 0 ∧ t.phase = .tbInit) := by
  rcases execFtHdr_next h with ⟨-, rfl⟩ | ⟨-, rfl⟩
  · exact .inl rfl
  · rcases ftHdrChecks_conditions { s with hdrTotalLen := inWord s 0, hdrReserved := inWord s 4, symCount := inWord s 8 } with
      e | ⟨-, e⟩ | ⟨-, -, ⟨h0, e⟩ | ⟨h0, e⟩⟩ <;> rw [e]
    · exact .inl rfl
    · exact .inl rfl
    · exact .inr (.inr ⟨h0, rfl⟩)
    · exact .inr (.inl ⟨h0, rfl⟩)

theorem execFtEnt_successor (h : execFtEnt s = .next t) :
    (t.idx.toNat < t.symCount.toNat ∧ t.phase = .ftEnt) ∨ (t.idx = t.symCount ∧ t.phase = .tbInit) := by
  obtain ⟨hi, -, rfl⟩ := execFtEnt_next h
  rcases ftEntNext_cases { s with ft := _ } with ⟨hl, e⟩ | ⟨hl, e⟩ <;> rw [e]
  · exact .inr ⟨hl, rfl⟩
  · exact .inl ⟨toNat_succ_le_of_ne hi hl, rfl⟩

theorem execTbInit_successor (h : execTbInit s = .next t) :
    (t.symCount = 0 ∧ t.phase = .haltErr) ∨ (t.symCount ≠ 0 ∧ t.phase = .tbLeaf) := by
  rcases execTbInit_next h with ⟨h0, rfl⟩ | ⟨h0, rfl⟩
  · exact .inl ⟨h0, rfl⟩
  · exact .inr ⟨h0, rfl⟩

/-- The leaf just pushed is in the heap, so the heap that does not hold more than one node holds one. -/
theorem execTbLeaf_successor (h : execTbLeaf s = .next t) :
    (t.idx.toNat < t.symCount.toNat ∧ t.phase = .tbLeaf) ∨ (t.idx = t.symCount ∧ 1 < t.hsize ∧ t.phase = .tbMerge) ∨
      (t.idx = t.symCount ∧ t.hsize = 1 ∧ t.phase = .tbRoot) := by
  obtain ⟨hi, -, e, h', -, -, -, -, rfl⟩ := execTbLeaf_next h
  rcases tbLeafNext_cases (s := { s with
      node := Store.write s.node s.idx.toNat (leafOf e), nnodes := s.idx.toNat + 1, heap := h', hsize := s.hsize + 1 }) hi with
    ⟨hl, e⟩ | ⟨hl, h1, e⟩ | ⟨hl, h1, e⟩ <;> rw [e]
  · exact .inl ⟨hl, rfl⟩
  · exact .inr (.inl ⟨hl, h1, rfl⟩)
  · exact .inr (.inr ⟨hl, le_antisymm h1 (Nat.le_add_left 1 _), rfl⟩)

/-- Of two nodes or more a merge leaves at least one. -/
theorem execTbMerge_successor (h : execTbMerge s = .next t) :
    (1 < t.hsize ∧ t.phase = .tbMerge) ∨ (t.hsize = 1 ∧ t.phase = .tbRoot) := by
  obtain ⟨h2, a, b, h', -, -, -, rfl⟩ := execTbMerge_next h
  rcases tbMergeNext_cases { s with node := _, nnodes := _, heap := h', hsize := s.hsize - 1 } with
    ⟨h1, e⟩ | ⟨h1, e⟩ <;> rw [e]
  · exact .inl ⟨h1, rfl⟩
  · exact .inr ⟨le_antisymm h1 (Nat.le_sub_one_of_lt h2), rfl⟩

theorem execBsHdr_successor (h : execBsHdr s = .next t) :
    t.phase = .haltErr ∨ ∃ r n, t.root = some r ∧ Store.read t.node r = some n ∧
      ((n.leaf = false ∧ t.phase = .bsBit) ∨ (n.leaf = true ∧ t.phase = .bsRun1)) := by
  rcases execBsHdr_next h with ⟨-, rfl⟩ | ⟨-, u, rfl, rfl | rfl | ⟨-, -, r, n, hroot, -, hn, rfl⟩⟩
  · exact .inl rfl
  · exact .inl rfl
  · exact .inl rfl
  · refine .inr ⟨r, n, hroot, hn, ?_⟩
    cases hleaf : n.leaf with
    | false => exact .inl ⟨rfl, rfl⟩
    | true => exact .inr ⟨rfl, rfl⟩

theorem execBsBit_successor (h : execBsBit s = .next t) :
    (s.cursor ≠ s.packedBits ∧ (t.phase = .bsBit ∨ t.phase = .haltErr)) ∨
      (s.cursor = s.packedBits ∧ t.phase = afterDecode s) := by
  obtain ⟨w, nd, -, -, -, -, ⟨hend, rfl⟩ | ⟨hmore, -, nxt, -, hcase⟩⟩ := execBsBit_next h
  · exact .inr ⟨hend, rfl⟩
  · refine .inl ⟨hmore, ?_⟩
    rcases hcase with ⟨-, rfl⟩ | ⟨k, c, -, -, -, ⟨-, -, rfl⟩ | ⟨-, -, rfl⟩ | ⟨-, -, rfl⟩ | ⟨-, -, rfl⟩⟩
    · exact .inr rfl
    · exact .inr rfl
    · exact .inl rfl
    · exact .inr rfl
    · exact .inl rfl

theorem execBsRun1_successor (h : execBsRun1 s = .next t) : ∃ e, Store.read s.ft 0 = some e ∧
    ((s.idx ≠ e.count ∧ (t.phase = .bsRun1 ∨ t.phase = .haltErr)) ∨ (s.idx = e.count ∧ t.phase = afterDecode s)) := by
  obtain ⟨r, nd, e, -, -, -, -, he, hcase⟩ := execBsRun1_next h
  refine ⟨e, he, ?_⟩
  rcases hcase with ⟨hend, rfl⟩ | ⟨hmore, -, rfl⟩ | ⟨hmore, -, rfl⟩
  · exact .inr ⟨hend, rfl⟩
  · exact .inl ⟨hmore, .inr rfl⟩
  · exact .inl ⟨hmore, .inl rfl⟩

theorem execVlInit_successor (h : execVlInit s = .next t) :
    (t.outLen ≠ 0 ∧ t.phase = .vlTally) ∨ (t.outLen = 0 ∧ t.phase = .vlCmp) := by
  obtain rfl := Host.Outcome.next.inj h
  by_cases h0 : s.outLen = 0
  · exact .inr ⟨h0, if_pos h0⟩
  · exact .inl ⟨h0, if_neg h0⟩

theorem execVlTally_successor (h : execVlTally s = .next t) :
    (t.idx.toNat < t.outLen.toNat ∧ t.phase = .vlTally) ∨
      (s.idx.toNat + 1 = s.outLen.toNat ∧ t.idx = 0 ∧ t.phase = .vlCmp) := by
  obtain ⟨hi, x, v, -, -, rfl⟩ := execVlTally_next h
  rcases vlTallyNext_cases (writeObs s x (v + 1)) with ⟨hl, e⟩ | ⟨hl, e⟩ <;> rw [e]
  · exact .inr ⟨(succ_eq_iff_of_lt hi).1 hl, rfl, rfl⟩
  · exact .inl ⟨toNat_succ_le_of_ne hi hl, rfl⟩

theorem execVlCmp_successor (h : execVlCmp s = .next t) :
    t.phase = .haltErr ∨ (t.idx.toNat < t.symCount.toNat ∧ t.phase = .vlCmp) ∨
      (t.idx = t.symCount ∧ t.phase = .haltDone) := by
  obtain ⟨hi, e, v, -, -, ⟨-, rfl⟩ | ⟨-, rfl⟩⟩ := execVlCmp_next h
  · exact .inl rfl
  · rcases vlCmpNext_cases s with ⟨hl, e⟩ | ⟨hl, e⟩ <;> rw [e]
    · exact .inr (.inr ⟨hl, rfl⟩)
    · exact .inr (.inl ⟨toNat_succ_le_of_ne hi hl, rfl⟩)

/-- Settles O38: one clause for each operation of a run. -/
theorem successorTable : Obligations.SuccessorTable := by
  intro s t
  refine ⟨execFtHdr_successor, execFtEnt_successor, execTbInit_successor, execTbLeaf_successor, execTbMerge_successor,
    fun h => ?_, execBsHdr_successor, execBsBit_successor, execBsRun1_successor, execVlInit_successor,
    execVlTally_successor, execVlCmp_successor⟩
  obtain ⟨-, r, -, rfl⟩ := execTbRoot_next h
  rfl

end Sys2Proof.Machine
end

section
/-! PROOFS. The trap entry (rule R252), and where an operation entered with its precondition false stops (rule R247). -/

namespace Sys2Proof.Machine

variable {s : State}

/-! ### The trap entry -/

/-- Only a `DecodeError` (code 2) and a `ValidationError` (code 3) record a context. -/
theorem raise_of_no_context {e : BlockError} (hdecode : e.code ≠ 2) (hvalidation : e.code ≠ 3) (s : State) :
    raise e s = { s with errCode := e.code, errSub := e.sub, phase := .haltErr } := by
  cases e with
  | deadEnd | outOfBounds => exact absurd rfl hdecode
  | countMismatch => exact absurd rfl hvalidation
  | hdrTrunc | entTrunc | zeroSyms | bodyTrunc | payloadTrunc | bitsExceed | syms | out => rfl

/-- A `DecodeError` records `CURSOR` as well. -/
theorem raise_of_decodeError {e : BlockError} (hdecode : e.code = 2) (s : State) :
    raise e s = { s with errCode := 2, errSub := e.sub, errCursor := s.cursor, phase := .haltErr } := by
  cases e with
  | deadEnd | outOfBounds => rfl
  | hdrTrunc | entTrunc | zeroSyms | bodyTrunc | payloadTrunc | bitsExceed | countMismatch | syms | out =>
    simp [BlockError.code] at hdecode

/-- Settles O36: an error records the context of its kind; the `ValidationError` brings its three values along. -/
theorem trapEntryEffect : Obligations.TrapEntryEffect := by
  intro s
  have plain (e : BlockError) (h : e.code ≠ 2 ∧ e.code ≠ 3) := raise_of_no_context h.1 h.2 s
  exact ⟨plain .hdrTrunc (by decide), plain .entTrunc (by decide), plain .zeroSyms (by decide), plain .bodyTrunc (by decide),
    plain .payloadTrunc (by decide), plain .bitsExceed (by decide), raise_of_decodeError rfl s, raise_of_decodeError rfl s,
    fun _ _ _ => rfl, plain .syms (by decide), plain .out (by decide)⟩

/-! ### False preconditions -/

theorem execFtEnt_of_past_end (h : s.symCount.toNat ≤ s.idx.toNat) : execFtEnt s = .fault .ftEntPre := by
  rw [execFtEnt, if_pos h, finish_error]

theorem execTbLeaf_of_false_precondition (h : s.symCount.toNat ≤ s.idx.toNat ∨ s.nnodes ≠ s.idx.toNat) :
    execTbLeaf s = .fault .tbLeafPre := by
  rw [execTbLeaf, if_pos h, finish_error]

theorem execTbMerge_of_lt_two (h : s.hsize < 2) : execTbMerge s = .fault .tbMergePre := by
  rw [execTbMerge, if_pos h, finish_error]

theorem execTbRoot_of_ne_one (h : s.hsize ≠ 1) : execTbRoot s = .fault .tbRootPre := by
  rw [execTbRoot, if_pos h, finish_error]

theorem execBsBit_of_leaf {nd : TreeNode} (hwalk : readNodeRef s s.walk = .ok nd) (hleaf : nd.leaf = true) :
    execBsBit s = .fault .bsBitPre := by
  rw [execBsBit, hwalk, except_ok_bind, if_pos hleaf, finish_error]

theorem execBsRun1_of_inner {nd : TreeNode} (hroot : readNodeRef s s.root = .ok nd) (hinner : nd.leaf = false) :
    execBsRun1 s = .fault .bsRun1Pre := by
  rw [execBsRun1, hroot, except_ok_bind, hinner, if_pos (by decide), finish_error]

theorem execVlTally_of_past_end (h : s.outLen.toNat ≤ s.idx.toNat) : execVlTally s = .fault .vlTallyPre := by
  rw [execVlTally, if_pos h, finish_error]

theorem execVlCmp_of_past_end (h : s.symCount.toNat ≤ s.idx.toNat) : execVlCmp s = .fault .vlCmpPre := by
  rw [execVlCmp, if_pos h, finish_error]

/-- Settles O37: every operation checks its precondition first; `BS.BIT` and `BS.RUN1` read one node for it. -/
theorem falsePreconditionsStop : Obligations.FalsePreconditionsStop := by
  intro s
  refine ⟨fun h => ⟨execFtEnt_of_past_end h, execTbLeaf_of_false_precondition (.inl h), execVlCmp_of_past_end h⟩,
    fun h => execTbLeaf_of_false_precondition (.inr h), execTbMerge_of_lt_two, execTbRoot_of_ne_one,
    fun w nd hw hlt hnd hleaf => ?_, fun r nd hr hlt hnd hinner => ?_, execVlTally_of_past_end⟩
  · exact execBsBit_of_leaf (readNodeRef_ok.2 ⟨w, hw, hlt, hnd⟩) hleaf
  · exact execBsRun1_of_inner (readNodeRef_ok.2 ⟨r, hr, hlt, hnd⟩) hinner

end Sys2Proof.Machine
end
